-- ==== Sys2Proof/Word.lean ====
section
/-! DEFINITION. The word and byte types of the WS281x core, and nothing else.
Every control block field, address, mask and register of the block is 32 bits wide (spec/00_scope.md R8, D2);
values are unsigned and addition is modulo 2^32 (R12), which is `BitVec` arithmetic. -/

namespace Sys2Proof

/-- A 32-bit value: a control block field, an address, a mask or a working register (R8). -/
abbrev Word := BitVec 32

/-- One byte of the control block or of the system address space (R40). -/
abbrev Byte := BitVec 8

end Sys2Proof
end

