-- ==== Sys2Proof/Config.lean ====
section
/-! DEFINITION. What an implementation fixes, and the free value.
`Config` holds the parameters of R8 and R9 that the spec leaves to the build, and ADMIT (R49); no action writes any of
them (R38). `Config.drawCycles` is DrawCycles() of R13 and R33: a value under no law. -/

namespace Sys2Proof

/-- A CHMAP entry (MAPENT, R69): the bank and the pin a channel drives. Plain numbers: R10's check WF1 bounds them. -/
structure MapEntry where
  bank : Nat
  pin : Nat
  deriving DecidableEq, Repr

/-- A run of readable system addresses: `base`, `base + 1`, …, `base + size - 1` (a piece of ADMIT, R49). -/
structure AddrRange where
  base : Nat
  size : Nat
  deriving DecidableEq, Repr

/-- The platform addresses of one bank's SET and CLEAR ports (BANK_PORT of D12); used by no rule of the block. -/
structure BankPort where
  setPort : Word
  clearPort : Word
  deriving DecidableEq, Repr

/-- The configuration: a parameter of the step relation, never written (R9, R38). -/
structure Config where
  /-- PINMASK[k]: the pins of bank k that the block controls (R9). -/
  pinmask : Vector Word 4
  /-- CHMAP[c]: the bank and pin of channel c (R9, R69). -/
  chmap : Vector MapEntry 24
  /-- N_RISE: repetitions of the SET sweep (R9, R121). -/
  nRise : Nat
  /-- N_MID: repetitions of the selective-fall sweep (R9, R121). -/
  nMid : Nat
  /-- N_LOW: repetitions of the full-fall sweep (R9, R121). -/
  nLow : Nat
  /-- REPORT_CYCLES: whether the done response carries the cycle count (R8, D6). -/
  reportCycles : Bool
  /-- ADMIT: the system addresses the block may read (R49). -/
  admitted : List AddrRange
  /-- CB_BASE: the control block's address in the producer's view; used by no rule of the block (R9, D4). -/
  cbBase : Word
  /-- BANK_PORT[k]: used by no rule of the block (R43, D12). -/
  bankPort : Vector BankPort 4
  /-- F_CLK: the clock rate; used by no rule of the model (R9, D18). -/
  fClk : Nat
  /-- LATCH_CYCLES: the latch delay's length; used by no rule of the model (R9, D18). -/
  latchCycles : Nat
  deriving DecidableEq, Repr

/-- The checks of R10 a configuration must pass; a refusal names the failed one (R161, outcome M2). -/
inductive ConfigCheck where
  | wf1 | wf2 | wf3 | wf4 | wf5
  deriving DecidableEq, Repr

/-- DrawCycles() (R13, R33): the 32-bit value read from the cycle counter by the `n`-th draw. It has no body: nothing
can be proved about its value. Log entry 1. -/
opaque Config.drawCycles : Nat → Word

end Sys2Proof
end

