-- ==== Sys2Proof/Machine/ConfigCheck.lean ====
section
/-! DEFINITION. The well-formedness of a configuration (R10). -/

namespace Sys2Proof.Machine

/-- WF1: every CHMAP[c] has bank < NB and pin < BANK_WIDTH. -/
def wf1 (cfg : Config) : Bool := cfg.chmap.toList.all fun e => decide (e.bank < 4) && decide (e.pin < 32)

/-- WF2's banks: bank 0 for channels 0 to 7, bank 1 for 8 to 15, bank 2 or 3 for 16 to 23. -/
def bankOfChannelOk (c : Fin 24) (bank : Nat) : Bool :=
  if c.val < 8 then bank == 0 else if c.val < 16 then bank == 1 else bank == 2 || bank == 3

/-- WF2: every channel lies in a bank of its group. -/
def wf2 (cfg : Config) : Bool := (List.finRange 24).all fun c => bankOfChannelOk c cfg.chmap[c].bank

/-- WF3: CHMAP is injective. -/
def wf3 (cfg : Config) : Bool := decide cfg.chmap.toList.Nodup

/-- WF4: every set bit p of PINMASK[k] is CHMAP[c] = (k, p) for exactly one channel c. -/
def wf4 (cfg : Config) : Bool :=
  (List.finRange 4).all fun k => (List.finRange 32).all fun p =>
    !(cfg.pinmask[k].getLsbD p.val) || cfg.chmap.toList.count { bank := k.val, pin := p.val } == 1

/-- WF5: every repeat count is at least 1. -/
def wf5 (cfg : Config) : Bool := decide (1 ≤ cfg.nRise) && decide (1 ≤ cfg.nMid) && decide (1 ≤ cfg.nLow)

/-- The first check of R10 that the configuration fails, if any (R161, outcome M2). Which one of several: log entry 10. -/
def failedCheck (cfg : Config) : Option ConfigCheck :=
  if !wf1 cfg then some .wf1
  else if !wf2 cfg then some .wf2
  else if !wf3 cfg then some .wf3
  else if !wf4 cfg then some .wf4
  else if !wf5 cfg then some .wf5
  else none

end Sys2Proof.Machine
end

