-- ==== Sys2Proof/Machine/RefConfig.lean ====
section
/-! DEFINITION. The reference configuration REF of R11, the configuration `State.reset` carries (log entry 2).
Statements over all states quantify over every configuration; REF is the one the spec's worked examples use. -/

namespace Sys2Proof.Machine

/-- CHMAP[c] of REF (R11): channels 0 to 7 on bank 0, 8 to 15 on bank 1, 16 to 19 on bank 2, 20 to 23 on bank 3, each
group from pin 0 up. -/
def refMapEntry (c : Fin 24) : MapEntry :=
  if c.val < 8 then { bank := 0, pin := c.val }
  else if c.val < 16 then { bank := 1, pin := c.val - 8 }
  else if c.val < 20 then { bank := 2, pin := c.val - 16 }
  else { bank := 3, pin := c.val - 20 }

/-- REF (R11) with REPORT_CYCLES of R8. ADMIT is the whole 32-bit system address space (log entry 2); CB_BASE, BANK_PORT, F_CLK and LATCH_CYCLES are used by
no rule and stand at 0 (log entry 2). -/
def refConfig : Config where
  pinmask := #v[0x000000FF, 0x000000FF, 0x0000000F, 0x0000000F]
  chmap := Vector.ofFn refMapEntry
  nRise := 1
  nMid := 1
  nLow := 1
  reportCycles := true
  admitted := [{ base := 0, size := 2 ^ 32 }]
  cbBase := 0
  bankPort := Vector.replicate 4 { setPort := 0, clearPort := 0 }
  fClk := 0
  latchCycles := 0

end Sys2Proof.Machine
end

