-- ==== Sys2Proof/Syntax.lean ====
section
/-! DEFINITION. The instructions of the WS281x core: one constructor per row of spec/opcode_table.json.
The block has no instruction set of its own (R3): its instructions are the three command codes of the command field
(R62) and the thirteen internal operations (R72). ACCEPT, REPORT and EXIT are performed over several steps (R21), one
atomic action each (R14); their operand says which of their steps is meant. -/

namespace Sys2Proof

/-- The four steps of ACCEPT (R85): the control states ACC_ADDR, ACC_ROWS, ACC_RESP and ACC_CMD of R21. -/
inductive AcceptPart where
  | addr | rows | resp | cmd
  deriving DecidableEq, Repr

/-- The two steps of REPORT (R89): the control states REPORT_ACK and REPORT_CYC of R21. -/
inductive ReportPart where
  | ack | cyc
  deriving DecidableEq, Repr

/-- The three steps of EXIT (R91): the control states EXIT_RESP, EXIT_NOTIFY and EXIT_HALT of R21. -/
inductive ExitPart where
  | resp | notify | halt
  deriving DecidableEq, Repr

/-- The instructions: the command codes first, then the internal operations, in the opcode table's order. -/
inductive Instr where
  /-- CMD_IDLE (R84): the command word 0. -/
  | cmdIdle
  /-- CMD_EXIT (R90): the command word 0xFF. -/
  | cmdExit
  /-- CMD_START (R86): every other command word; the operand is the word itself. -/
  | cmdStart (word : Word)
  /-- BOOT (R81). -/
  | boot
  /-- NOTIFY (R82). -/
  | notify
  /-- POLL (R83). -/
  | poll
  /-- ACCEPT (R85), one of its four steps. -/
  | accept (part : AcceptPart)
  /-- LATCH (R88). -/
  | latch
  /-- REPORT (R89), one of its two steps. -/
  | report (part : ReportPart)
  /-- EXIT (R91), one of its three steps. -/
  | exit (part : ExitPart)
  /-- LOAD_ROW (R141): one channel word of the current row. -/
  | loadRow
  /-- ENCODE (R101): the four zero masks of the current cell. -/
  | encode
  /-- RISE (R122). -/
  | rise
  /-- SEL_FALL (R123). -/
  | selFall
  /-- FULL_FALL (R124). -/
  | fullFall
  /-- ADVANCE_ROW (R143). -/
  | advanceRow
  deriving DecidableEq, Repr

end Sys2Proof
end

