-- ==== Sys2Proof/Machine/State.lean ====
section
/-! DEFINITION. The state of the machine (spec/10_state.md), its outcomes (R161) and the reset state (R36).
State is plain data. Beside the block's own state it holds what the spec puts outside the block but within its reach (R20:
the control block, the system memory, OUT, the notification line), the configuration, which is a parameter (R38, log
entry 2), the trace (R15), and the model's own fields: the environment's moves (R50, R206) and the draw counter. -/

namespace Sys2Proof.Machine

/-- The control state (R21). -/
inductive Ctl where
  | boot | awaitEntry | awaitPoll | accAddr | accRows | accResp | accCmd | transmit | latchDelay | reportAck
  | reportCyc | exitResp | exitNotify | exitHalt | halted
  deriving DecidableEq, Repr

/-- The phase of the sequencer position (R22). -/
inductive Phase where
  | load | rise | mid | low
  deriving DecidableEq, Repr

/-- The four fields of the control block (R34). -/
inductive CbField where
  | addr | rows | cmd | resp
  deriving DecidableEq, Repr

/-- The control block space: 16 bytes at offsets 0 to 15 (R40, R61). -/
abbrev ControlBlock := Vector Byte 16

/-- The system address space as a list of address and byte pairs, addresses strictly rising, no entry equal to
`Memory.unlisted` (R40; the form is `Memory.wf` in Machine/Ops.lean). -/
abbrev Memory := List Host.Cell

/-- What a system address with no entry reads as. The spec gives no content (R163, U6: any value): log entry 3. -/
def Memory.unlisted : Byte := 0

/-- An event of the trace (R15). -/
inductive Event where
  /-- `CBR(off, v)`. -/
  | cbr (field : CbField) (value : Word)
  /-- `CBW(off, v)`. -/
  | cbw (field : CbField) (value : Word)
  /-- `PXR(addr, v)`. -/
  | pxr (address value : Word)
  /-- `GSET(k, m)`. -/
  | gset (bank : Fin 4) (mask : Word)
  /-- `GCLR(k, m)`. -/
  | gclr (bank : Fin 4) (mask : Word)
  /-- `NOTIFY`. -/
  | notify
  /-- `LATCH`. -/
  | latch
  /-- `HALT`. -/
  | halt
  deriving DecidableEq, Repr

/-- The control block fields the producer may write: never RESP (R35, R202, R206). -/
inductive ProducerField where
  | addr | rows | cmd
  deriving DecidableEq, Repr

/-- The comparison of a `WAIT` (R73). -/
inductive WaitTest where
  | eq | ne
  deriving DecidableEq, Repr

/-- One move of the run's interleaving (R50): the producer's operations (R73, R206), the platform's, and the block's own
turn. The list of moves in State is an input of the run: statements hold for every list, so for every interleaving. -/
inductive Move where
  /-- The block takes one step here. -/
  | block
  /-- `W32 off, v`: the producer writes a control block field (R73, R206). -/
  | w32 (field : ProducerField) (value : Word)
  /-- `WPIX a, x0 x1 …`: the producer writes bytes of the system address space (R73). -/
  | wpix (address : Word) (bytes : List Byte)
  /-- `WAIT off, ==, v` or `WAIT off, !=, v`: the producer reads the field; until the condition holds the block steps (R73). -/
  | wait (field : CbField) (test : WaitTest) (value : Word)
  /-- `WAITN`: the producer waits for one notification event; until there is one the block steps (R73). -/
  | waitn
  /-- The platform drops one undelivered notification (R31: it may latch, count or drop events). Log entry 6. -/
  | dropNotification
  /-- Another agent of the platform sets the pins of a bank that lie outside PINMASK (R30, U12). -/
  | otherPins (bank : Fin 4) (levels : Word)
  /-- The platform drives every controlled pin low before the block leaves reset (R193 (2)). -/
  | pinsLow
  /-- The platform resets the block: the external restart (R190). -/
  | restart
  deriving DecidableEq, Repr

/-- The state. Field by field: INVENTORY.md, '## State'. -/
structure State where
  /-- The configuration of R9: a parameter, never written (R38). -/
  config : Config
  /-- The control state (R21). -/
  ctl : Ctl
  /-- The command latched by the poll (R23). -/
  cmd : Word
  /-- The pixel buffer address latched at ACC_ADDR (R24). -/
  addr : Word
  /-- The row count latched at ACC_ROWS (R24). -/
  rows : Word
  /-- Rows still to send (R25). -/
  n : Word
  /-- Address of byte 0 of the current row (R26). -/
  ptr : Word
  /-- The sequencer's phase (R22). -/
  phase : Phase
  /-- The channel whose word is loaded next (R22, R28). -/
  c : Fin 24
  /-- The bit position of the current cell (R22, R28). -/
  b : Fin 24
  /-- The repetition index of the current sweep (R22, R28). -/
  i : Nat
  /-- The bank of the next GPIO write (R22, R28). -/
  k : Fin 4
  /-- The cycle count taken at REPORT_ACK (R28). -/
  cyc : Word
  /-- W[0..23]: the channel words of the current row (R27). -/
  w : Vector Word 24
  /-- ZM[0..3]: the zero masks of the current cell (R29). -/
  zm : Vector Word 4
  /-- CYC: the cycle counter (R33). Log entry 5. -/
  cycleCounter : Word
  /-- OUT[0..3]: the output data registers of the pin banks (R30). -/
  out : Vector Word 4
  /-- The control block (R34). -/
  cb : ControlBlock
  /-- The system address space (R40, R42). -/
  mem : Memory
  /-- Notification events delivered and not yet taken by the producer (R31, R173). Log entry 6. -/
  notifyPending : Nat
  /-- The trace, oldest event first (R15). -/
  trace : List Event
  /-- The moves of the interleaving still to come (R50, R206). Log entry 7. -/
  moves : List Move
  /-- How many cycle counts have been drawn: the model's own field (log entry 1). -/
  draws : Nat
  deriving DecidableEq, Repr

/-- Why the machine stops: the outcomes M1 and M3 of R161. -/
inductive Fault where
  /-- M1 STUCK_UNADMITTED_READ (R161, R162): LOAD_ROW, when R49 does not admit the read of the four bytes at `address`;
  the block has no step. Safe: a chip would read some bytes and go on, so the model admits fewer runs. -/
  | stuckUnadmittedRead (address : Word)
  /-- M3 HALTED (R161): the step function, when the block's turn comes in the control state HALTED, where the block has
  no step (R80, R91). Exact: only a reset leaves HALTED. -/
  | halted
  deriving DecidableEq, Repr

/-- What the model declines: outcome M2 of R161, and an instruction without a meaning. -/
inductive Refusal where
  /-- Raised by an arm of `exec` for an instruction that has no meaning yet; no arm does. Safe. -/
  | notModelled (mnemonic : String)
  /-- M2 REFUSED_CONFIG (R161): the step function, when the configuration fails the named check of R10. Safe: a real
  layout that breaks the check is refused (D11). -/
  | config (check : ConfigCheck)
  deriving DecidableEq, Repr

/-- The result of an instruction or a step. -/
abbrev Result := Host.Outcome State Fault Refusal

/-- The machine right after reset: `ctl` = BOOT and no notification pending (R36). The spec gives no value to the working
registers, the control block and OUT: 0 here (log entry 4). The configuration is REF (log entry 2), the memory lists
nothing (log entry 3), nothing has been appended to the trace, and no producer move is pending. -/
def State.reset : State where
  config := refConfig
  ctl := .boot
  cmd := 0
  addr := 0
  rows := 0
  n := 0
  ptr := 0
  phase := .load
  c := 0
  b := 0
  i := 0
  k := 0
  cyc := 0
  w := Vector.replicate 24 0
  zm := Vector.replicate 4 0
  cycleCounter := 0
  out := Vector.replicate 4 0
  cb := Vector.replicate 16 0
  mem := []
  notifyPending := 0
  trace := []
  moves := []
  draws := 0

/-- Who acts next, and from which state: the block, or the environment with the state its move leaves. -/
inductive Turn where
  | block (s : State)
  | environment (s : State)
  deriving DecidableEq, Repr

end Sys2Proof.Machine
end

