-- ==== Sys2Proof/Machine/Flags.lean ====
section
/-! DEFINITION. The decisions of R32. The block has no status flags and no condition codes: every decision it takes is an
equality test on a register inside the step that uses it, and its result is not stored. The rows-left test stands in
`State.nextRow` (Machine/Ops.lean). -/

namespace Sys2Proof.Machine

/-- The command == 0 test of the poll (R83). -/
def isIdleWord (v : Word) : Bool := v == 0x00000000

/-- The exit-vs-start test of ACC_CMD (R80, R85). -/
def isExitWord (v : Word) : Bool := v == 0x000000FF

/-- Whether the cycle count is written to RESP after the done value: REPORT_CYCLES, and the count reads neither as "not yet
responded" nor as "exited" (R89). -/
def reportsCount (cfg : Config) (cyc : Word) : Bool := cfg.reportCycles && cyc != 0x00000000 && cyc != 0x000000FF

/-- The last-channel test of LOAD_ROW (R141). -/
def isLastChannel (c : Fin 24) : Bool := !decide (c.val < 23)

/-- The last-bank test of a sweep (R122 to R124). -/
def isLastBank (k : Fin 4) : Bool := !decide (k.val < 3)

/-- The last-repetition test of a phase of `reps` sweeps (R122 to R124). -/
def isLastRepetition (i reps : Nat) : Bool := !decide (i < reps - 1)

/-- The last-bit test of a row's cells (R124). -/
def isLastBit (b : Fin 24) : Bool := !decide (b.val > 0)

end Sys2Proof.Machine
end

