-- ==== Sys2Proof/WellFormed.lean ====
section
/-! DEFINITION. Which instructions are well formed.
The only operand with an illegal value is CMD_START's word: the rows of R62 are tried in priority order, so the words of
CMD_IDLE and CMD_EXIT never stand for a start command. Internal operations have no operand field (R72). -/

namespace Sys2Proof

/-- The command codes, the only instructions with an encoding (R62); the others are INTERNAL (R72). -/
def Instr.isCommand : Instr → Bool
  | .cmdIdle => true
  | .cmdExit => true
  | .cmdStart _ => true
  | .boot => false
  | .notify => false
  | .poll => false
  | .accept _ => false
  | .latch => false
  | .report _ => false
  | .exit _ => false
  | .loadRow => false
  | .encode => false
  | .rise => false
  | .selFall => false
  | .fullFall => false
  | .advanceRow => false

/-- A start command's word is neither the idle word nor the exit word (R62, R86). -/
def Instr.wellFormed : Instr → Bool
  | .cmdStart v => v != 0 && v != 0xFF
  | .cmdIdle => true
  | .cmdExit => true
  | .boot => true
  | .notify => true
  | .poll => true
  | .accept _ => true
  | .latch => true
  | .report _ => true
  | .exit _ => true
  | .loadRow => true
  | .encode => true
  | .rise => true
  | .selFall => true
  | .fullFall => true
  | .advanceRow => true

end Sys2Proof
end

