-- ==== Sys2Proof/Decode.lean ====
section
/-! DEFINITION. The command word's decoder and encoder (spec/30_encoding.md R60 to R64), and the byte order of words (R44).
Only the command codes are encoded in bits; the internal operations are selected by the control state (R72) and have no
encoding, so `encode` gives none for them. -/

namespace Sys2Proof

/-- Byte `j` of a 32-bit value, byte 0 being bits 7:0 (R44). -/
def byteOfWord (v : Word) (j : Nat) : Byte := v.extractLsb' (8 * j) 8

/-- The 32-bit value of four bytes, lowest address first: little-endian (R44). -/
def wordOfBytes (b0 b1 b2 b3 : Byte) : Word := b3 ++ b2 ++ b1 ++ b0

/-- The four bytes of a 32-bit value as they lie in memory, lowest address first (R44, R61). -/
def bytesOfWord (v : Word) : List Byte := [byteOfWord v 0, byteOfWord v 1, byteOfWord v 2, byteOfWord v 3]

/-- The commands of R62's table. -/
inductive Command where
  | idle | exit | start
  deriving DecidableEq, Repr

/-- One row of R62's table. -/
structure CommandRow where
  command : Command
  pattern : Word
  mask : Word
  deriving DecidableEq, Repr

/-- R62's table, in priority order. -/
def commandTable : List CommandRow :=
  [ { command := .idle, pattern := 0x00000000, mask := 0xFFFFFFFF },
    { command := .exit, pattern := 0x000000FF, mask := 0xFFFFFFFF },
    { command := .start, pattern := 0x00000000, mask := 0x00000000 } ]

/-- A row selects the word `v` when `(v & mask) == match` (R62). -/
def CommandRow.selects (row : CommandRow) (v : Word) : Bool := v &&& row.mask == row.pattern

/-- The instruction a command stands for; a start command keeps its word, which carries no further meaning (R62). -/
def Command.toInstr (c : Command) (v : Word) : Instr :=
  match c with
  | .idle => .cmdIdle
  | .exit => .cmdExit
  | .start => .cmdStart v

/-- The command word's decoder: the first selecting row of R62's table. The last row selects every word, so the
default is never taken (R64: no word is reserved or illegal). -/
def decodeWord (v : Word) : Instr :=
  match commandTable.find? (·.selects v) with
  | some row => row.command.toInstr v
  | none => .cmdStart v

/-- Why a list of bytes is no instruction. -/
inductive DecodeError where
  /-- Fewer than the four bytes of a command word (R60: the format CMD32 has one length). -/
  | truncated (length : Nat)
  deriving DecidableEq, Repr

/-- The decoder over bytes, lowest address first: the instruction and the bytes after it. Every list of at least four
bytes decodes (R64); a shorter one is rejected by name. -/
def decode : List Byte → Except DecodeError (Instr × List Byte)
  | b0 :: b1 :: b2 :: b3 :: rest => .ok (decodeWord (wordOfBytes b0 b1 b2 b3), rest)
  | bytes => .error (.truncated bytes.length)

/-- The command word of an instruction; none for an internal operation (R72). -/
def encode : Instr → Option Word
  | .cmdIdle => some 0x00000000
  | .cmdExit => some 0x000000FF
  | .cmdStart v => some v
  | .boot => none
  | .notify => none
  | .poll => none
  | .accept _ => none
  | .latch => none
  | .report _ => none
  | .exit _ => none
  | .loadRow => none
  | .encode => none
  | .rise => none
  | .selFall => none
  | .fullFall => none
  | .advanceRow => none

/-- The bytes of an instruction at control block offsets 8 to 11 (R61). -/
def encodeBytes (i : Instr) : Option (List Byte) := (encode i).map bytesOfWord

/-- The instruction the decoder reads from the opcode table's bits: `w`'s low `nbits` bits, every bit above them 0, laid
out as four little-endian bytes (R61). -/
def decodeTableWord (nbits w : Nat) : Option Instr :=
  match decode (bytesOfWord (BitVec.ofNat 32 (w % 2 ^ nbits))) with
  | .ok (i, _) => some i
  | .error _ => none

end Sys2Proof
end

