-- ==== Sys2Proof/Machine/Ops.lean ====
section
/-! DEFINITION. The shared operations: the memories, the action primitives of R13, the moves of the sequencer position, and
reset. Every action appends one event to the trace (R14, R15).
There is no operation for taking an exception or returning from one: the block raises none (R160), saves nothing and has no
handler (R168, R169). -/

namespace Sys2Proof.Machine

/-! ### The system address space -/

/-- The entries lie at rising addresses from `lo` on, below 2^32, and none holds what an unlisted address reads as. -/
def Memory.wfFrom (lo : Nat) : Memory → Bool
  | [] => true
  | (a, v) :: m => decide (lo ≤ a) && decide (a < 2 ^ 32) && v != Memory.unlisted && Memory.wfFrom (a + 1) m

/-- The canonical form of a memory: equal contents are equal lists. -/
def Memory.wf (m : Memory) : Bool := Memory.wfFrom 0 m

/-- The byte at an address. -/
def Memory.readByte : Memory → Nat → Byte
  | [], _ => Memory.unlisted
  | (x, v) :: m, a => if a = x then v else Memory.readByte m a

/-- Writes one byte, keeping the canonical form: writing `Memory.unlisted` removes the entry. -/
def Memory.writeByte : Memory → Nat → Byte → Memory
  | [], a, v => if v = Memory.unlisted then [] else [(a, v)]
  | (x, w) :: m, a, v =>
    if a < x then (if v = Memory.unlisted then (x, w) :: m else (a, v) :: (x, w) :: m)
    else if a = x then (if v = Memory.unlisted then m else (a, v) :: m)
    else (x, w) :: Memory.writeByte m a v

/-- Writes bytes at `a`, `a +32 1`, … in turn; addresses wrap modulo 2^32 (R59). -/
def Memory.writeBytes (m : Memory) (a : Word) : List Byte → Memory
  | [] => m
  | v :: vs => Memory.writeBytes (m.writeByte a.toNat v) (a + 1) vs

/-- The value of `MemRead(a, 4)`: four bytes at `a` to `a +32 3`, little-endian (R13, R44, R59). -/
def Memory.readWord (m : Memory) (a : Word) : Word :=
  wordOfBytes (m.readByte a.toNat) (m.readByte (a + 1).toNat) (m.readByte (a + 2).toNat) (m.readByte (a + 3).toNat)

/-- Whether a system address is in ADMIT (R49). -/
def admits (cfg : Config) (a : Word) : Bool := cfg.admitted.any fun r => r.base ≤ a.toNat && a.toNat < r.base + r.size

/-- Whether `MemRead(a, 4)` is admitted: `a` is a multiple of 4 and its four addresses are in ADMIT (R46, R49). -/
def admitsRead (cfg : Config) (a : Word) : Bool :=
  a.toNat % 4 == 0 && admits cfg a && admits cfg (a + 1) && admits cfg (a + 2) && admits cfg (a + 3)

/-! ### The control block -/

/-- The offset of a control block field (R34). -/
def CbField.offset : CbField → Nat
  | .addr => 0
  | .rows => 4
  | .cmd => 8
  | .resp => 12

/-- A field's four bytes lie in the control block. -/
theorem CbField.offset_add_lt (f : CbField) (j : Fin 4) : f.offset + j.val < 16 := by
  cases f <;> simp only [CbField.offset] <;> omega

/-- The value of `CBRead(off)`: little-endian (R13, R44). -/
def cbGet (cb : ControlBlock) (f : CbField) : Word :=
  wordOfBytes (cb[f.offset + 0]'(f.offset_add_lt 0)) (cb[f.offset + 1]'(f.offset_add_lt 1))
    (cb[f.offset + 2]'(f.offset_add_lt 2)) (cb[f.offset + 3]'(f.offset_add_lt 3))

/-- The control block after `CBWrite(off, v)`: least significant byte at `off` (R13, R44). -/
def cbPut (cb : ControlBlock) (f : CbField) (v : Word) : ControlBlock :=
  (((cb.set (f.offset + 0) (byteOfWord v 0) (f.offset_add_lt 0)).set (f.offset + 1) (byteOfWord v 1) (f.offset_add_lt 1)).set
    (f.offset + 2) (byteOfWord v 2) (f.offset_add_lt 2)).set (f.offset + 3) (byteOfWord v 3) (f.offset_add_lt 3)

/-- The value a control block field holds. -/
def State.field (s : State) (f : CbField) : Word := cbGet s.cb f

/-! ### Actions (R13): each is one atomic step's action and appends one event (R14) -/

/-- Appends an event to the trace (R15). -/
def State.log (e : Event) (s : State) : State := { s with trace := s.trace ++ [e] }

/-- `ctl <- S` (R13). -/
def State.goto (ctl : Ctl) (s : State) : State := { s with ctl := ctl }

/-- The action `CBRead(off)`; its value is `s.field f`. Reads have no other effect (R48). -/
def State.cbRead (f : CbField) (s : State) : State := s.log (.cbr f (s.field f))

/-- The action `CBWrite(off, v)`. -/
def State.cbWrite (f : CbField) (v : Word) (s : State) : State :=
  State.log (.cbw f v) { s with cb := cbPut s.cb f v }

/-- The action `GpioSet(k, m)`: OUT[k] <- OUT[k] | m (R13, R43). -/
def State.gpioSet (k : Fin 4) (m : Word) (s : State) : State :=
  State.log (.gset k m) { s with out := s.out.set k (s.out[k] ||| m) }

/-- The action `GpioClear(k, m)`: OUT[k] <- OUT[k] & ~m (R13, R43). -/
def State.gpioClear (k : Fin 4) (m : Word) (s : State) : State :=
  State.log (.gclr k m) { s with out := s.out.set k (s.out[k] &&& ~~~m) }

/-- The action `Notify()`: one notification event to the producer (R13, R31). -/
def State.raiseNotify (s : State) : State := State.log .notify { s with notifyPending := s.notifyPending + 1 }

/-- The action `Latch()`: no effect but its event (R13, R88). -/
def State.latchDelay (s : State) : State := s.log .latch

/-- The action `Halt()` (R13, R91). -/
def State.haltEvent (s : State) : State := s.log .halt

/-- `DrawCycles()` (R13, R33): the value read from the cycle counter goes to `cyc`; the draw counter moves on. -/
def State.drawCycles (s : State) : State := { s with cyc := Config.drawCycles s.draws, draws := s.draws + 1 }

/-! ### The sequencer position -/

/-- NextRow() (R140): the end of the frame when no row is left, else the load of the next row. -/
def State.nextRow (s : State) : State :=
  if s.n = 0 then { s with ctl := .latchDelay } else { s with c := 0, phase := .load }

/-- TRANSMIT entry (R87). -/
def State.enterTransmit (s : State) : State :=
  State.nextRow { s with cycleCounter := 0, n := s.rows, ptr := s.addr, ctl := .transmit }

/-! ### Reset -/

/-- The external restart (R190): the block's own state as after reset (R36), its unspecified registers at `State.reset`'s
values (log entry 4), and no notification pending. Reset writes no control block field, no pin and no memory; the
configuration, the trace and the moves to come are not the block's. -/
def State.restart (s : State) : State :=
  { State.reset with
    config := s.config, out := s.out, cb := s.cb, mem := s.mem, trace := s.trace, moves := s.moves, draws := s.draws }

end Sys2Proof.Machine
end

