-- ==== Sys2Proof/Machine/Commands.lean ====
section
/-! DEFINITION. The three command codes (spec/40_handshake.md R84, R86, R90).
A command acts at two steps: at the poll that reads its word, which latches it (R83), and, unless it is idle, at ACC_CMD,
where ACCEPT has latched ADDR and ROWS and cleared RESP: there CMD is cleared and the exit-vs-start test is taken (R80). The
meaning of a command at ACC_CMD is its second step; at every other control state it is its first (log entry 8). -/

namespace Sys2Proof.Machine

/-- The poll's step for the command word `v` (R83): `CBR(8, v)`, `cmd <- v`, and the control state after it. -/
def State.latchCommand (v : Word) (after : Ctl) (s : State) : State :=
  State.goto after { State.log (.cbr .cmd v) s with cmd := v }

/-- CMD_IDLE (R84): the poll reads 0 and the block stays in AWAIT_POLL. -/
def execCmdIdle (s : State) : Result := .next (s.latchCommand 0x00000000 .awaitPoll)

/-- CMD_EXIT (R90): accepted by the poll; at ACC_CMD, CMD is cleared and the block goes to EXIT_RESP. -/
def execCmdExit (s : State) : Result :=
  .next (if s.ctl = .accCmd then (s.cbWrite .cmd 0x00000000).goto .exitResp else s.latchCommand 0x000000FF .accAddr)

/-- CMD_START (R86): accepted by the poll; at ACC_CMD, CMD is cleared and the block enters TRANSMIT (R87). -/
def execCmdStart (word : Word) (s : State) : Result :=
  .next (if s.ctl = .accCmd then (s.cbWrite .cmd 0x00000000).enterTransmit else s.latchCommand word .accAddr)

end Sys2Proof.Machine
end

