-- ==== Sys2Proof/Machine/Operands.lean ====
section
/-! DEFINITION. The operand forms (R71): record and row addresses, and the selection of a data bit. Every operand is a
whole unsigned 32-bit field or a configuration constant; the offsets 4·c and 96 are added modulo 2^32 (R59). -/

namespace Sys2Proof.Machine

/-- ROW_STRIDE (R7): the bytes of one row. -/
def rowStride : Word := 96

/-- The address of channel `c`'s record in the row at `ptr`: ptr +32 4·c (R66, R141). -/
def recordAddress (ptr : Word) (c : Fin 24) : Word := ptr + BitVec.ofNat 32 (4 * c.val)

/-- The bit of W[c] that holds data bit `b` (R67, R100): 8·(2 − (b div 8)) + (b mod 8). -/
def dataBitIndex (b : Fin 24) : Nat := 8 * (2 - b.val / 8) + b.val % 8

/-- DATABIT (R100): data bit `b` of a channel word. -/
def dataBit (word : Word) (b : Fin 24) : Bool := word.getLsbD (dataBitIndex b)

end Sys2Proof.Machine
end

