-- ==== Sys2Proof/Machine/Encoder.lean ====
section
/-! DEFINITION. The Bit Encoder (spec/41_bit_encoder.md R100, R101). -/

namespace Sys2Proof.Machine

/-- One pass of ENCODE's inner loop (R101): channel `c` adds its pin to the mask of bank `k` when its data bit is 0. -/
def addZeroBit (cfg : Config) (w : Vector Word 24) (b : Fin 24) (k : Fin 4) (z : Word) (c : Fin 24) : Word :=
  if cfg.chmap[c].bank = k.val ∧ dataBit w[c] b = false then z ||| (1 : Word) <<< cfg.chmap[c].pin else z

/-- The zero mask of bank `k` for bit position `b` (R101): the channels 0 to 23 in turn, then PINMASK[k]. -/
def zeroMask (cfg : Config) (w : Vector Word 24) (b : Fin 24) (k : Fin 4) : Word :=
  (List.finRange 24).foldl (addZeroBit cfg w b k) 0 &&& cfg.pinmask[k]

/-- ENCODE(b) (R101): ZM[k] for every bank. It reads W, b and the configuration and writes only ZM (R103). -/
def State.encodeMasks (s : State) : State := { s with zm := Vector.ofFn (zeroMask s.config s.w s.b) }

/-- ENCODE (R101): part of the step of a cell's first RISE, so it appends no event of its own. -/
def execEncode (s : State) : Result := .next s.encodeMasks

end Sys2Proof.Machine
end

