-- ==== Sys2Proof/Machine/Sequencer.lean ====
section
/-! DEFINITION. The Frame Sequencer (spec/43_frame_sequencer.md R140 to R143). -/

namespace Sys2Proof.Machine

/-- The address of the next channel read (R141). -/
def State.loadAddress (s : State) : Word := recordAddress s.ptr s.c

/-- The position after a channel read (R141): the next channel, or the first cell of the row. -/
def State.nextChannel (s : State) : State :=
  if isLastChannel s.c then { s with b := 23, i := 0, k := 0, phase := .rise } else { s with c := s.c + 1 }

/-- W[c] <- MemRead(ptr +32 4·c, 4), one PXR event (R141). -/
def State.loadChannel (s : State) : State :=
  State.log (.pxr s.loadAddress (s.mem.readWord s.loadAddress)) { s with w := s.w.set s.c (s.mem.readWord s.loadAddress) }

/-- LOAD_ROW (R141). A read that is not admitted has no step: the block is stuck (R49, R162; outcome M1 of R161). -/
def execLoadRow (s : State) : Result :=
  if admitsRead s.config s.loadAddress then .next s.loadChannel.nextChannel
  else .fault (.stuckUnadmittedRead s.loadAddress)

/-- ptr <- ptr +32 96; n <- n - 1; NextRow() (R143). -/
def State.stepRow (s : State) : State := State.nextRow { s with ptr := s.ptr + rowStride, n := s.n - 1 }

/-- ADVANCE_ROW (R143): part of the last FULL_FALL step of a row, so it appends no event of its own. -/
def execAdvanceRow (s : State) : Result := .next s.stepRow

end Sys2Proof.Machine
end

