-- ==== Sys2Proof/Machine/Emitter.lean ====
section
/-! DEFINITION. The Bank Waveform Emitter (spec/42_waveform_emitter.md R120 to R124). -/

namespace Sys2Proof.Machine

/-- The position after a RISE write (R122). -/
def State.afterRise (s : State) : State :=
  if isLastBank s.k then
    if isLastRepetition s.i s.config.nRise then { s with k := 0, i := 0, phase := .mid } else { s with k := 0, i := s.i + 1 }
  else { s with k := s.k + 1 }

/-- The position after a SEL_FALL write (R123). -/
def State.afterSelFall (s : State) : State :=
  if isLastBank s.k then
    if isLastRepetition s.i s.config.nMid then { s with k := 0, i := 0, phase := .low } else { s with k := 0, i := s.i + 1 }
  else { s with k := s.k + 1 }

/-- The position after the last write of a cell (R124): the next cell, or ADVANCE_ROW. -/
def State.afterCell (s : State) : State :=
  if isLastBit s.b then State.stepRow { s with k := 0, i := 0 } else { s with k := 0, i := 0, b := s.b - 1, phase := .rise }

/-- The position after a FULL_FALL write (R124): the next bank, the next sweep, or the end of the cell. -/
def State.afterFullFall (s : State) : State :=
  if isLastBank s.k then
    if isLastRepetition s.i s.config.nLow then s.afterCell else { s with k := 0, i := s.i + 1 }
  else { s with k := s.k + 1 }

/-- ENCODE in the first RISE step of a cell (R101, R122). -/
def State.encodeAtCellStart (s : State) : State := if s.i = 0 ∧ s.k = 0 then s.encodeMasks else s

/-- RISE (R122). -/
def execRise (s : State) : Result :=
  .next (s.encodeAtCellStart.gpioSet s.k s.config.pinmask[s.k]).afterRise

/-- SEL_FALL (R123). -/
def execSelFall (s : State) : Result := .next (s.gpioClear s.k s.zm[s.k]).afterSelFall

/-- FULL_FALL (R124). -/
def execFullFall (s : State) : Result := .next (s.gpioClear s.k s.config.pinmask[s.k]).afterFullFall

end Sys2Proof.Machine
end

