-- ==== Sys2Proof/Machine/Handshake.lean ====
section
/-! DEFINITION. The internal operations of the Handshake State Machine (spec/40_handshake.md R80 to R91). Each meaning is
the step of R80 whose control state selects it: its one action, then `ctl`. -/

namespace Sys2Proof.Machine

/-- BOOT (R81). -/
def execBoot (s : State) : Result := .next ((s.cbWrite .resp 0x00000000).goto .awaitEntry)

/-- NOTIFY (R82). -/
def execNotify (s : State) : Result := .next (s.raiseNotify.goto .awaitPoll)

/-- POLL (R83): `cmd <- CBRead(8)`, and idle or accept by the command == 0 test. -/
def execPoll (s : State) : Result :=
  .next ({ s.cbRead .cmd with cmd := s.field .cmd }.goto (if isIdleWord (s.field .cmd) then .awaitPoll else .accAddr))

/-- ACC_ADDR of ACCEPT (R85). -/
def State.acceptAddr (s : State) : State := { s.cbRead .addr with addr := s.field .addr }.goto .accRows

/-- ACC_ROWS of ACCEPT (R85). -/
def State.acceptRows (s : State) : State := { s.cbRead .rows with rows := s.field .rows }.goto .accResp

/-- ACC_RESP of ACCEPT (R85). -/
def State.acceptResp (s : State) : State := (s.cbWrite .resp 0x00000000).goto .accCmd

/-- ACC_CMD of ACCEPT (R80, R85): CMD is cleared before the exit-vs-start test. -/
def State.acceptCmd (s : State) : State :=
  if isExitWord s.cmd then (s.cbWrite .cmd 0x00000000).goto .exitResp else (s.cbWrite .cmd 0x00000000).enterTransmit

/-- ACCEPT (R85), one of its four steps. -/
def execAccept (part : AcceptPart) (s : State) : Result :=
  match part with
  | .addr => .next s.acceptAddr
  | .rows => .next s.acceptRows
  | .resp => .next s.acceptResp
  | .cmd => .next s.acceptCmd

/-- LATCH (R88). -/
def execLatch (s : State) : Result := .next (s.latchDelay.goto .reportAck)

/-- REPORT_ACK of REPORT (R89): draw the count, write 1 to RESP, and go on to the count or back to AWAIT_ENTRY. -/
def State.reportAck (s : State) : State :=
  (s.drawCycles.cbWrite .resp 0x00000001).goto
    (if reportsCount s.config s.drawCycles.cyc then .reportCyc else .awaitEntry)

/-- REPORT_CYC of REPORT (R89). -/
def State.reportCyc (s : State) : State := (s.cbWrite .resp s.cyc).goto .awaitEntry

/-- REPORT (R89), one of its two steps. -/
def execReport (part : ReportPart) (s : State) : Result :=
  match part with
  | .ack => .next s.reportAck
  | .cyc => .next s.reportCyc

/-- EXIT (R91), one of its three steps. -/
def execExit (part : ExitPart) (s : State) : Result :=
  match part with
  | .resp => .next ((s.cbWrite .resp 0x000000FF).goto .exitNotify)
  | .notify => .next (s.raiseNotify.goto .exitHalt)
  | .halt => .next (s.haltEvent.goto .halted)

end Sys2Proof.Machine
end

