-- ==== Sys2Proof/Machine/Dispatch.lean ====
section
/-! DEFINITION. The dispatch: one arm per constructor of Instr, each one call of the instruction's meaning. -/

namespace Sys2Proof.Machine

def exec (i : Instr) (s : State) : Host.Outcome State Fault Refusal :=
  match i with
  | .cmdIdle => Sys2Proof.Machine.execCmdIdle s
  | .cmdExit => Sys2Proof.Machine.execCmdExit s
  | .cmdStart word => Sys2Proof.Machine.execCmdStart word s
  | .boot => Sys2Proof.Machine.execBoot s
  | .notify => Sys2Proof.Machine.execNotify s
  | .poll => Sys2Proof.Machine.execPoll s
  | .accept part => Sys2Proof.Machine.execAccept part s
  | .latch => Sys2Proof.Machine.execLatch s
  | .report part => Sys2Proof.Machine.execReport part s
  | .exit part => Sys2Proof.Machine.execExit part s
  | .loadRow => Sys2Proof.Machine.execLoadRow s
  | .encode => Sys2Proof.Machine.execEncode s
  | .rise => Sys2Proof.Machine.execRise s
  | .selFall => Sys2Proof.Machine.execSelFall s
  | .fullFall => Sys2Proof.Machine.execFullFall s
  | .advanceRow => Sys2Proof.Machine.execAdvanceRow s

end Sys2Proof.Machine
end

