-- ==== Sys2Proof/Machine/Fetch.lean ====
section
/-! DEFINITION. Which instruction the block runs next: the control state and the sequencer position select it (R21, R72,
R140), and at AWAIT_POLL the command word does (R62, R83). -/

namespace Sys2Proof.Machine

/-- The four bytes of CMD, lowest offset first (R61): where the command word is fetched from. -/
def State.commandBytes (s : State) : List Byte := [s.cb[8], s.cb[9], s.cb[10], s.cb[11]]

/-- The command in the control block (R62). Four bytes always decode (R64), so the error arm is never taken. -/
def State.fetchCommand (s : State) : Option Instr :=
  match decode s.commandBytes with
  | .ok (i, _) => some i
  | .error _ => none

/-- The action of the Frame Sequencer that the phase selects (R140). -/
def State.fetchSequencer (s : State) : Instr :=
  match s.phase with
  | .load => .loadRow
  | .rise => .rise
  | .mid => .selFall
  | .low => .fullFall

/-- The instruction of the block's next step; none in HALTED (R21, R80). At AWAIT_POLL it is the command that the poll
reads: the poll of R83 is that command's first step (log entry 8; `Obligations.PollRunsTheFetchedCommand` states that POLL and the
fetched command agree). -/
def State.fetch (s : State) : Option Instr :=
  match s.ctl with
  | .boot => some .boot
  | .awaitEntry => some .notify
  | .awaitPoll => s.fetchCommand
  | .accAddr => some (.accept .addr)
  | .accRows => some (.accept .rows)
  | .accResp => some (.accept .resp)
  | .accCmd => some (.accept .cmd)
  | .transmit => some s.fetchSequencer
  | .latchDelay => some .latch
  | .reportAck => some (.report .ack)
  | .reportCyc => some (.report .cyc)
  | .exitResp => some (.exit .resp)
  | .exitNotify => some (.exit .notify)
  | .exitHalt => some (.exit .halt)
  | .halted => none

end Sys2Proof.Machine
end

