-- ==== Sys2Proof/Machine/Producer.lean ====
section
/-! DEFINITION. The environment's moves: the producer (R73, R206) and the platform (R30, R31, R190, R193), interleaved with
the block's steps in one total order (R50). The head of `State.moves` says who acts next; with no move left, the block does. -/

namespace Sys2Proof.Machine

/-- The control block field a producer write names (R206). -/
def ProducerField.toCbField : ProducerField → CbField
  | .addr => .addr
  | .rows => .rows
  | .cmd => .cmd

/-- `W32 off, v` (R73): one aligned 32-bit write. It is the producer's access, so it is no event of the block's trace. -/
def State.producerWrite (f : ProducerField) (v : Word) (s : State) : State := { s with cb := cbPut s.cb f.toCbField v }

/-- `WPIX a, x0 x1 …` (R73). -/
def State.producerPixels (a : Word) (xs : List Byte) (s : State) : State := { s with mem := s.mem.writeBytes a xs }

/-- The condition of a `WAIT` (R73). -/
def State.waitHolds (s : State) (f : CbField) (t : WaitTest) (v : Word) : Bool :=
  match t with
  | .eq => s.field f == v
  | .ne => s.field f != v

/-- The pins of bank `k` outside PINMASK[k] take the given levels; the controlled pins keep theirs (R30, U12). -/
def State.setOtherPins (k : Fin 4) (levels : Word) (s : State) : State :=
  { s with out := s.out.set k ((s.out[k] &&& s.config.pinmask[k]) ||| (levels &&& ~~~s.config.pinmask[k])) }

/-- Every controlled pin driven low (R193 (2)): only before the block leaves reset, that is in BOOT; later no agent but
the block moves a controlled pin, so the move does nothing. -/
def State.bringPinsLow (s : State) : State :=
  if s.ctl = .boot then { s with out := Vector.ofFn fun k => s.out[k] &&& ~~~s.config.pinmask[k] } else s

/-! ### Producer scripts (R73) -/

/-- `FRAME a, r, v`: ADDR and ROWS before the command (R73, R197). -/
def frameScript (a r v : Word) : List Move := [.w32 .addr a, .w32 .rows r, .w32 .cmd v]

/-- `SYNC`: the command has been accepted (R73). -/
def syncScript : List Move := [.wait .cmd .eq 0x00000000]

/-- `DONE`: the frame is done; valid only after `SYNC` (R73, R199). -/
def doneScript : List Move := [.wait .resp .ne 0x00000000]

/-- `EXIT` (R73). -/
def exitScript : List Move := [.w32 .cmd 0x000000FF, .wait .resp .eq 0x000000FF]

/-- Whether a move is one of the producer's script (R73), or the restart that R206 lists beside them. The others are the block's
turn and what the platform and other agents do. -/
def Move.isProducers : Move → Bool
  | .w32 _ _ => true
  | .wpix _ _ => true
  | .wait _ _ _ => true
  | .waitn => true
  | .restart => true
  | .block => false
  | .dropNotification => false
  | .otherPins _ _ => false
  | .pinsLow => false

/-- The address at which the producer sees a control block field (R41, R73): CB_BASE + off. -/
def producerAddress (cfg : Config) (f : CbField) : Word := cfg.cbBase + BitVec.ofNat 32 f.offset

/-- What a producer reads from a response value (R65). -/
inductive ResponseReading where
  | notDone | exited | done
  deriving DecidableEq, Repr

/-- 0 reads as not done, 0xFF as exited, every other value as done (R65). -/
def readResponse (v : Word) : ResponseReading :=
  if v = 0x00000000 then .notDone else if v = 0x000000FF then .exited else .done

/-! ### Turns -/

/-- Who acts next, and what the environment's move leaves. A `WAIT` whose condition does not hold, and a `WAITN` with no
notification, stay at the head and give the turn to the block. -/
def State.turn (s : State) : Turn :=
  match s.moves with
  | [] => .block s
  | .block :: rest => .block { s with moves := rest }
  | .w32 f v :: rest => .environment (State.producerWrite f v { s with moves := rest })
  | .wpix a xs :: rest => .environment (State.producerPixels a xs { s with moves := rest })
  | .wait f t v :: rest => if s.waitHolds f t v then .environment { s with moves := rest } else .block s
  | .waitn :: rest =>
    if s.notifyPending = 0 then .block s
    else .environment { s with moves := rest, notifyPending := s.notifyPending - 1 }
  | .dropNotification :: rest => .environment { s with moves := rest, notifyPending := s.notifyPending - 1 }
  | .otherPins k v :: rest => .environment (State.setOtherPins k v { s with moves := rest })
  | .pinsLow :: rest => .environment (State.bringPinsLow { s with moves := rest })
  | .restart :: rest => .environment (State.restart { s with moves := rest })

/-- The same state with the next turn given to the block. -/
def State.giveTurn (s : State) : State :=
  match s.moves with
  | [] => s
  | m :: rest => { s with moves := .block :: m :: rest }

end Sys2Proof.Machine
end

