-- ==== Sys2Proof/Machine/Step.lean ====
section
/-! DEFINITION. One step of the run: the configuration is checked (R10, outcome M2), then the block or the environment acts
(R14, R50). -/

namespace Sys2Proof.Machine

/-- One step of the block: the instruction its control state selects; in HALTED it has none (R80, outcome M3). -/
def State.blockStep (s : State) : Result :=
  match s.fetch with
  | some i => exec i s
  | none => .fault .halted

/-- One step. A configuration that fails R10 is refused before any step (R161). -/
def step (s : State) : Host.Outcome State Fault Refusal :=
  match failedCheck s.config with
  | some check => .refused (.config check)
  | none =>
    match s.turn with
    | .block s' => s'.blockStep
    | .environment s' => .next s'

/-- `s` with the command word `w` (its low `nbits` bits) in CMD, the block at AWAIT_POLL, where it fetches a command, and
the next turn the block's: the next step runs exactly that command (log entry 9). -/
def State.withFetchWord (s : State) (nbits w : Nat) : State :=
  State.giveTurn { s with cb := cbPut s.cb .cmd (BitVec.ofNat 32 (w % 2 ^ nbits)), ctl := .awaitPoll }

end Sys2Proof.Machine
end

