-- ==== Sys2Proof/Safety.lean ====
section
/-! DEFINITION. What claims about runs are stated in: how a run ends (R207), the states no run leaves, and the traces that
R120, R140 and R147 prescribe, written from those rules and not from the step function. -/

namespace Sys2Proof.Machine

/-! ### The end of a run (R207) -/

/-- A run is final when `ctl` = HALTED. -/
abbrev State.Final (s : State) : Prop := s.ctl = .halted

/-- A run is quiescent at AWAIT_POLL with CMD = 0 and no move of the producer and no restart left; turns of the block and
the other moves of the platform may be left (log entry 7). -/
abbrev State.Quiescent (s : State) : Prop :=
  s.ctl = .awaitPoll ∧ s.field .cmd = 0 ∧ s.moves.all (fun m => !m.isProducers) = true

/-- The block is stuck: its next action is a pixel read that is not admitted (R49, R162). -/
abbrev State.Stuck (s : State) : Prop := s.ctl = .transmit ∧ s.phase = .load ∧ admitsRead s.config s.loadAddress = false

/-- The observable behaviour (R15): the trace, the control block fields and OUT. -/
def State.observable (s : State) : List Event × ControlBlock × Vector Word 4 := (s.trace, s.cb, s.out)

/-! ### The checks of R10, as the rule words them -/

/-- What a check of R10 asks of a configuration. -/
def meetsCheck (cfg : Config) : ConfigCheck → Prop
  | .wf1 => ∀ c : Fin 24, cfg.chmap[c].bank < 4 ∧ cfg.chmap[c].pin < 32
  | .wf2 => ∀ c : Fin 24, (c.val ≤ 7 → cfg.chmap[c].bank = 0) ∧ (8 ≤ c.val → c.val ≤ 15 → cfg.chmap[c].bank = 1) ∧
      (16 ≤ c.val → cfg.chmap[c].bank = 2 ∨ cfg.chmap[c].bank = 3)
  | .wf3 => ∀ c c' : Fin 24, cfg.chmap[c] = cfg.chmap[c'] → c = c'
  | .wf4 => ∀ (k : Fin 4) (p : Fin 32), cfg.pinmask[k].getLsbD p.val = true →
      ∃ c : Fin 24, cfg.chmap[c] = ⟨k.val, p.val⟩ ∧ ∀ c' : Fin 24, cfg.chmap[c'] = ⟨k.val, p.val⟩ → c' = c
  | .wf5 => 1 ≤ cfg.nRise ∧ 1 ≤ cfg.nMid ∧ 1 ≤ cfg.nLow

/-! ### Pins -/

/-- Bank `k`'s controlled pins are all low. -/
abbrev State.BankLow (s : State) (k : Fin 4) : Prop := s.out[k] &&& s.config.pinmask[k] = 0

/-- Every controlled pin is low (R128). -/
abbrev State.PinsLow (s : State) : Prop := ∀ k, s.BankLow k

/-- The levels of bank `k`'s pins outside PINMASK[k] (R127). -/
abbrev State.otherPins (s : State) (k : Fin 4) : Word := s.out[k] &&& ~~~s.config.pinmask[k]

/-! ### Invariants -/

/-- The repetitions of the sweep that a phase makes (R121). -/
def phaseReps (cfg : Config) : Phase → Nat
  | .load => 1
  | .rise => cfg.nRise
  | .mid => cfg.nMid
  | .low => cfg.nLow

/-- The control states between the poll that accepts a command and ACC_CMD (R80). -/
def Ctl.accepting : Ctl → Bool
  | .accAddr | .accRows | .accResp | .accCmd => true
  | .boot | .awaitEntry | .awaitPoll | .transmit | .latchDelay | .reportAck | .reportCyc | .exitResp | .exitNotify
  | .exitHalt | .halted => false

/-- The control states of EXIT (R91). -/
def Ctl.exiting : Ctl → Bool
  | .exitResp | .exitNotify | .exitHalt | .halted => true
  | .boot | .awaitEntry | .awaitPoll | .accAddr | .accRows | .accResp | .accCmd | .transmit | .latchDelay | .reportAck
  | .reportCyc => false

/-- The control states from TRANSMIT to REPORT_DONE: a frame is being sent or reported (R80, R92). -/
def Ctl.inFrame : Ctl → Bool
  | .transmit | .latchDelay | .reportAck | .reportCyc => true
  | .boot | .awaitEntry | .awaitPoll | .accAddr | .accRows | .accResp | .accCmd | .exitResp | .exitNotify | .exitHalt
  | .halted => false

/-- The cell's zero masks are in ZM: after the first RISE step of the cell (R101, R122). -/
def State.masksDue (s : State) : Bool :=
  match s.phase with
  | .load => false
  | .rise => s.i != 0 || s.k != 0
  | .mid => true
  | .low => true

/-- What every state of a run satisfies, whatever the producer and the platform do. -/
structure State.Inv (s : State) : Prop where
  /-- The memory keeps its canonical form. -/
  memory : s.mem.wf = true
  /-- A command being accepted is not idle (R83). -/
  accepted : s.ctl.accepting = true → s.cmd ≠ 0
  /-- EXIT is entered for the exit command only (R80, R90). -/
  exitCommand : s.ctl.exiting = true → s.cmd = 0xFF
  /-- TRANSMIT has a row left to send (R143: `n` ≥ 1). -/
  rowsLeft : s.ctl = .transmit → s.n ≠ 0
  /-- The repetition index is below the phase's repeat count (R22). -/
  repetition : s.ctl = .transmit → s.phase ≠ .load → s.i < phaseReps s.config s.phase
  /-- Within a cell ZM holds the zero masks of the row's words and the cell's bit (R29, R103). -/
  masks : s.ctl = .transmit → s.masksDue = true → s.zm = Vector.ofFn (zeroMask s.config s.w s.b)
  /-- The zero masks name controlled pins only (R102). -/
  maskedZm : ∀ k : Fin 4, s.zm[k] &&& ~~~s.config.pinmask[k] = 0

/-- RESP through a run (R65, R96): 0 from ACC_RESP until REPORT_ACK, 1 at REPORT_CYC, the exit sentinel once EXIT_RESP is
done, and never the sentinel from AWAIT_ENTRY to the start of EXIT. -/
def State.ResponseLaw (s : State) : Prop :=
  match s.ctl with
  | .boot => True
  | .awaitEntry | .awaitPoll | .accAddr | .accRows | .accResp => s.field .resp ≠ 0xFF
  | .accCmd | .transmit | .latchDelay | .reportAck | .exitResp => s.field .resp = 0
  | .reportCyc => s.field .resp = 1 ∧ s.cyc ≠ 0 ∧ s.cyc ≠ 0xFF
  | .exitNotify | .exitHalt | .halted => s.field .resp = 0xFF

/-- The run resets the block no more: none of the moves to come is a restart. -/
def State.restartFree (s : State) : Bool := !s.moves.contains .restart

/-- Where the block's program has the controlled pins low (R128): all of them outside TRANSMIT, while a row is loaded and
between two cells; in the first RISE sweep of a cell the banks it has not yet raised; in the full fall the banks that this
sweep has cleared. -/
def State.PinLaw (s : State) : Prop :=
  match s.ctl, s.phase with
  | .transmit, .rise => s.i = 0 → ∀ j : Fin 4, s.k ≤ j → s.BankLow j
  | .transmit, .mid => True
  | .transmit, .low => ∀ j : Fin 4, j < s.k → s.BankLow j
  | _, _ => s.PinsLow

/-! ### Prescribed traces -/

/-- One sweep: the same port of the banks 0, 1, 2, 3 (R121). -/
def sweepEvents (write : Fin 4 → Event) : List Event := [write 0, write 1, write 2, write 3]

/-- `reps` sweeps. -/
def sweepsEvents (reps : Nat) (write : Fin 4 → Event) : List Event :=
  (List.replicate reps (sweepEvents write)).flatten

/-- The GPIO writes of the cell for bit `b` of the row held in `w` (R120). -/
def cellEvents (cfg : Config) (w : Vector Word 24) (b : Fin 24) : List Event :=
  sweepsEvents cfg.nRise (fun k => .gset k cfg.pinmask[k]) ++ sweepsEvents cfg.nMid (fun k => .gclr k (zeroMask cfg w b k)) ++
    sweepsEvents cfg.nLow (fun k => .gclr k cfg.pinmask[k])

/-- The words of the row at `ptr` (R66, R141). -/
def rowWords (mem : Memory) (ptr : Word) : Vector Word 24 := Vector.ofFn fun c => mem.readWord (recordAddress ptr c)

/-- The pixel reads of the row at `ptr`: channels 0 to 23 (R141). -/
def rowReads (mem : Memory) (ptr : Word) : List Event :=
  (List.finRange 24).map fun c => .pxr (recordAddress ptr c) (mem.readWord (recordAddress ptr c))

/-- The trace of one row (R147): 24 reads, then the cells of b = 23 down to 0 (R142). -/
def rowEvents (cfg : Config) (mem : Memory) (ptr : Word) : List Event :=
  rowReads mem ptr ++ ((List.finRange 24).reverse.map (cellEvents cfg (rowWords mem ptr))).flatten

/-- The trace of `rows` rows from `ptr` on (R140). -/
def frameEvents (cfg : Config) (mem : Memory) : Nat → Word → List Event
  | 0, _ => []
  | rows + 1, ptr => rowEvents cfg mem ptr ++ frameEvents cfg mem rows (ptr + rowStride)

/-- The steps of one cell (R120). -/
def cellSteps (cfg : Config) : Nat := 4 * (cfg.nRise + cfg.nMid + cfg.nLow)

/-- The steps of one row: 24 reads and 24 cells (R146). -/
def rowSteps (cfg : Config) : Nat := 24 + 24 * cellSteps cfg

/-- The step of a cell after which a controlled pin of bank `k` carrying data bit `v` is low again (R126). -/
def fallStep (cfg : Config) (k : Fin 4) (v : Bool) : Nat :=
  if v then 4 * (cfg.nRise + cfg.nMid) + k.val else 4 * cfg.nRise + k.val

/-- Whether an event is a pixel read. -/
def Event.isPixelRead : Event → Bool
  | .pxr _ _ => true
  | .cbr _ _ | .cbw _ _ | .gset _ _ | .gclr _ _ | .notify | .latch | .halt => false

/-- Whether an event is a GPIO write. -/
def Event.isGpio : Event → Bool
  | .gset _ _ | .gclr _ _ => true
  | .cbr _ _ | .cbw _ _ | .pxr _ _ | .notify | .latch | .halt => false

end Sys2Proof.Machine
end

