-- ==== Sys2Proof/Certificates/Slice0/Obligations.lean ====
section
/-! DEFINITION. The statements for the provers, each from a rule of spec/.
A frame is written `t = { s with f := t.f, … }`: every field of the state but those named is unchanged, the system memory
(so every byte of it), the configuration, the latched registers and OUT among them. Where an instruction stores to the
control block, the field it stores to is named and the other fields read as before. -/

open Sys2Proof Sys2Proof.Machine

/-! ### Encoding (spec/30_encoding.md) and configuration (spec/00_scope.md) -/

/-- R63: the comparisons are on all 32 bits, with the rule's own words and byte patterns. -/
def Obligations.CommandComparisonsUseAllBits : Prop :=
  (∀ v, decodeWord v = .cmdIdle ↔ v = 0x00000000) ∧
  (∀ v, decodeWord v = .cmdExit ↔ v = 0x000000FF) ∧
  decodeWord 0x000001FF = .cmdStart 0x000001FF ∧
  decodeWord 0x0000FFFF = .cmdStart 0x0000FFFF ∧
  decodeWord 0xFF000000 = .cmdStart 0xFF000000 ∧
  decode [0xFF, 0x00, 0x00, 0x00] = .ok (.cmdExit, []) ∧
  decode [0x00, 0x00, 0x00, 0xFF] = .ok (.cmdStart 0xFF000000, [])

/-- R62, R64: any four bytes are one command, chosen in priority order, and the bytes after them are left over. -/
def Obligations.EveryFourBytesAreOneCommand : Prop :=
  ∀ (b0 b1 b2 b3 : Byte) (rest : List Byte),
    decode (b0 :: b1 :: b2 :: b3 :: rest) =
      .ok (if wordOfBytes b0 b1 b2 b3 = 0x00000000 then .cmdIdle
           else if wordOfBytes b0 b1 b2 b3 = 0x000000FF then .cmdExit
           else .cmdStart (wordOfBytes b0 b1 b2 b3), rest)

/-- Decode and encode agree: every well-formed command, with every operand, reads back from its bytes; every word is the
encoding of what it decodes to, which is well formed; the internal operations have no encoding (R72). -/
def Obligations.DecodeAndEncodeAgree : Prop :=
  (∀ i : Instr, i.wellFormed = true → i.isCommand = true →
    ∃ bytes, encodeBytes i = some bytes ∧ bytes.length = 4 ∧ ∀ rest, decode (bytes ++ rest) = .ok (i, rest)) ∧
  (∀ v : Word, encode (decodeWord v) = some v ∧ (decodeWord v).wellFormed = true ∧ (decodeWord v).isCommand = true) ∧
  (∀ i : Instr, i.isCommand = false → encode i = none)

/-- R44, R66, R59: four bytes written at an address, wherever it lies, read back as the little-endian word. -/
def Obligations.PixelWordReadsBackLittleEndian : Prop :=
  ∀ (m : Memory) (a v : Word), m.wf = true →
    (m.writeBytes a (bytesOfWord v)).readWord a = v ∧
    (m.writeBytes a (bytesOfWord v)).wf = true ∧
    ∀ x : Nat, x ≠ a.toNat → x ≠ (a + 1).toNat → x ≠ (a + 2).toNat → x ≠ (a + 3).toNat →
      (m.writeBytes a (bytesOfWord v)).readByte x = m.readByte x

/-- R61, R44, R34: which byte of the control block holds which bits of a field, for reads and for writes, and that a write of a
field leaves the other twelve bytes alone. -/
def Obligations.ControlBlockByteLayout : Prop :=
  (∀ (cb : ControlBlock) (j b : Nat), (hj : j < 4) → b < 8 →
    (cbGet cb .addr).getLsbD (8 * j + b) = cb[0 + j].getLsbD b ∧ (cbGet cb .rows).getLsbD (8 * j + b) = cb[4 + j].getLsbD b ∧
    (cbGet cb .cmd).getLsbD (8 * j + b) = cb[8 + j].getLsbD b ∧ (cbGet cb .resp).getLsbD (8 * j + b) = cb[12 + j].getLsbD b) ∧
  (∀ (cb : ControlBlock) (f : CbField) (v : Word), cbGet (cbPut cb f v) f = v ∧
    ∀ x : Nat, (hx : x < 16) → x / 4 ≠ f.offset / 4 → (cbPut cb f v)[x] = cb[x])

/-- R11: REF is the configuration the rule gives, and it passes WF1 to WF5. -/
def Obligations.ReferenceConfiguration : Prop :=
  (∀ c : Fin 24, refConfig.chmap[c] =
    if c.val ≤ 7 then ⟨0, c.val⟩ else if c.val ≤ 15 then ⟨1, c.val - 8⟩
    else if c.val ≤ 19 then ⟨2, c.val - 16⟩ else ⟨3, c.val - 20⟩) ∧
  refConfig.pinmask = #v[0x000000FF, 0x000000FF, 0x0000000F, 0x0000000F] ∧
  refConfig.nRise = 1 ∧ refConfig.nMid = 1 ∧ refConfig.nLow = 1 ∧ refConfig.reportCycles = true ∧
  failedCheck refConfig = none

/-- R10: a configuration passes exactly when the five checks hold as the rule words them (`meetsCheck`, Safety.lean), and one
that fails is refused, by the name of a check that it fails (R161, M2). -/
def Obligations.ConfigurationChecks : Prop :=
  (∀ cfg : Config, failedCheck cfg = none ↔ ∀ check, meetsCheck cfg check) ∧
  (∀ (cfg : Config) (check : ConfigCheck), failedCheck cfg = some check → ¬ meetsCheck cfg check) ∧
  ∀ s : State, (¬ ∀ check, meetsCheck s.config check) → ∃ check, step s = .refused (.config check) ∧ ¬ meetsCheck s.config check

/-- R161 (M2): a configuration that fails a check of R10 is refused before any step, whoever's turn it is; the name recorded
is that of a check that R10's words say it fails; a configuration that meets them all is never refused. Which name is recorded
where several checks fail, the first in the rule's order, is the model's choice (log entry 10). -/
def Obligations.FailingConfigurationIsRefused : Prop :=
  (∀ (s : State) (check : ConfigCheck), step s = .refused (.config check) ↔ failedCheck s.config = some check) ∧
  (∀ (s : State) (check : ConfigCheck), step s = .refused (.config check) → ¬ meetsCheck s.config check) ∧
  (∀ s : State, (∀ check, meetsCheck s.config check) → ∀ r, step s ≠ .refused r)

/-! ### The step -/

/-- A step runs the decoded instruction. On the block's turn, step is exec of the selected instruction; in HALTED there is none
(R80), which the step answers with a fault (log entry 10). That at AWAIT_POLL it is exec of the command that the bytes at control block offsets 8 to 11 decode to, where R83 has
POLL read them, is the model's reading (log entry 8, DEDUCED). That the list of moves says whose turn it is, and that the turn
is the block's when no move is left, is the model's choice (log entry 7). -/
def Obligations.StepRunsTheDecodedInstruction : Prop :=
  ∀ s : State, failedCheck s.config = none →
    (∀ s' i, s.turn = .block s' → s'.fetch = some i → step s = exec i s') ∧
    (∀ s' i rest, s.turn = .block s' → s'.ctl = .awaitPoll →
      decode [s'.cb[8], s'.cb[9], s'.cb[10], s'.cb[11]] = .ok (i, rest) → step s = exec i s') ∧
    (∀ s', s.turn = .block s' → s'.ctl = .halted → step s = .fault .halted) ∧
    (∀ t, s.turn = .environment t → step s = .next t) ∧
    (s.moves = [] → s.turn = .block s) ∧
    (∀ rest, s.moves = .block :: rest → s.turn = .block { s with moves := rest })

/-- R21, R140: the control state, and in TRANSMIT the phase, select the instruction. At AWAIT_POLL R21 selects POLL; that the
model fetches there the command that CMD decodes to is log entry 8 (DEDUCED), and `PollRunsTheFetchedCommand` states that the two
agree. -/
def Obligations.ControlStateSelectsTheInstruction : Prop :=
  ∀ s : State,
    (s.ctl = .boot → s.fetch = some .boot) ∧ (s.ctl = .awaitEntry → s.fetch = some .notify) ∧
    (s.ctl = .awaitPoll → s.fetch = some (decodeWord (s.field .cmd))) ∧
    (s.ctl = .accAddr → s.fetch = some (.accept .addr)) ∧ (s.ctl = .accRows → s.fetch = some (.accept .rows)) ∧
    (s.ctl = .accResp → s.fetch = some (.accept .resp)) ∧ (s.ctl = .accCmd → s.fetch = some (.accept .cmd)) ∧
    (s.ctl = .transmit → s.phase = .load → s.fetch = some .loadRow) ∧
    (s.ctl = .transmit → s.phase = .rise → s.fetch = some .rise) ∧
    (s.ctl = .transmit → s.phase = .mid → s.fetch = some .selFall) ∧
    (s.ctl = .transmit → s.phase = .low → s.fetch = some .fullFall) ∧
    (s.ctl = .latchDelay → s.fetch = some .latch) ∧
    (s.ctl = .reportAck → s.fetch = some (.report .ack)) ∧ (s.ctl = .reportCyc → s.fetch = some (.report .cyc)) ∧
    (s.ctl = .exitResp → s.fetch = some (.exit .resp)) ∧ (s.ctl = .exitNotify → s.fetch = some (.exit .notify)) ∧
    (s.ctl = .exitHalt → s.fetch = some (.exit .halt)) ∧ (s.ctl = .halted → s.fetch = none)

/-- R83 with R62, and R80's ACC_CMD: POLL acts as the command whose word it reads, and the last step of ACCEPT as the second
step of the command latched. The model's two views of a command (log entry 8) agree. -/
def Obligations.PollRunsTheFetchedCommand : Prop :=
  ∀ s : State,
    (s.ctl = .awaitPoll → exec .poll s = exec (decodeWord (s.field .cmd)) s) ∧
    (s.ctl = .accCmd → s.cmd ≠ 0 → exec (.accept .cmd) s = exec (decodeWord s.cmd) s)

/-- The host's fetch word, `State.withFetchWord`, is the model's own device (log entry 9, DESIGN CHOICE), not a rule's: with a configuration that passes R10, the very next step runs the command placed. -/
def Obligations.PlacedCommandRunsNext : Prop :=
  ∀ (s : State) (w : Nat), failedCheck s.config = none → w < 2 ^ 32 →
    ∃ s', s' = { s with cb := cbPut s.cb .cmd (BitVec.ofNat 32 w), ctl := .awaitPoll } ∧
      decodeTableWord 32 w = some (decodeWord (BitVec.ofNat 32 w)) ∧
      step (s.withFetchWord 32 w) = exec (decodeWord (BitVec.ofNat 32 w)) s'

/-- R80, R207, R162: on the block's turn a step gives a next state but in HALTED and when stuck, and says which. That the
block's turn in HALTED is the fault `halted`, while the step of EXIT_HALT, where R161 places M3, answers a next state, and that
a stuck read is a fault, is the model's form of R161's outcomes (log entry 10, DESIGN CHOICE). -/
def Obligations.OnlyHaltedAndStuckHaveNoStep : Prop :=
  ∀ s s' : State, failedCheck s.config = none → s.turn = .block s' →
    (s'.Final → step s = .fault .halted) ∧
    (s'.Stuck → step s = .fault (.stuckUnadmittedRead s'.loadAddress)) ∧
    (¬ s'.Final → ¬ s'.Stuck → ∃ t, step s = .next t)

/-- R14, R15: a step of the block appends exactly one event; a move of the environment appends none. That this holds of a
restart too, over which the trace goes on, is the model's choice (log entry 12, DESIGN CHOICE). -/
def Obligations.OneEventPerBlockStep : Prop :=
  ∀ s t : State, step s = .next t →
    (∀ s', s.turn = .block s' → ∃ e, t.trace = s.trace ++ [e]) ∧ (∀ s', s.turn = .environment s' → t.trace = s.trace)

/-- R38: no step writes the configuration. -/
def Obligations.ConfigurationIsNeverWritten : Prop := ∀ s t : State, step s = .next t → t.config = s.config

/-! ### Reset and the Handshake State Machine (spec/70_reset_and_hazards.md, spec/40_handshake.md) -/

/-- R36: after reset `ctl` = BOOT and no notification is pending; the external restart (R190) gives the same from any state,
HALTED and stuck included, and writes neither OUT nor a control block field. -/
def Obligations.ResetEntersBoot : Prop :=
  State.reset.ctl = .boot ∧ State.reset.notifyPending = 0 ∧
  ∀ (s : State) (rest : List Move), failedCheck s.config = none → s.moves = .restart :: rest →
    ∃ t, step s = .next t ∧ t.ctl = .boot ∧ t.notifyPending = 0 ∧ t.out = s.out ∧ t.cb = s.cb ∧ t.mem = s.mem ∧
      t.config = s.config ∧ t.moves = rest

/-- R192: the first three steps after reset. -/
def Obligations.BootSequence : Prop :=
  ∀ s : State, failedCheck s.config = none → s.ctl = .boot → s.moves = [] →
    ∃ t, core.run 3 s = .next t ∧
      t.trace = s.trace ++ [.cbw .resp 0x00000000, .notify, .cbr .cmd (s.field .cmd)]

/-- R81: BOOT completes in every state. -/
def Obligations.BootClearsResponse : Prop :=
  ∀ s : State, ∃ t, exec .boot s = .next t ∧
    t.field .resp = 0x00000000 ∧ (∀ f, f ≠ .resp → t.field f = s.field f) ∧ t.ctl = .awaitEntry ∧
    t.trace = s.trace ++ [.cbw .resp 0x00000000] ∧
    t = { s with cb := t.cb, ctl := t.ctl, trace := t.trace }

/-- R82: NOTIFY completes in every state. How events are counted for the producer (`notifyPending`) is the model's own
choice, log entry 6; the statement leaves it open. -/
def Obligations.NotifyRaisesAnEvent : Prop :=
  ∀ s : State, ∃ t, exec .notify s = .next t ∧
    t.ctl = .awaitPoll ∧ t.trace = s.trace ++ [.notify] ∧
    t = { s with ctl := t.ctl, trace := t.trace, notifyPending := t.notifyPending }

/-- R83: POLL completes in every state. -/
def Obligations.PollLatchesTheCommand : Prop :=
  ∀ s : State, ∃ t, exec .poll s = .next t ∧
    t.cmd = s.field .cmd ∧ t.ctl = (if s.field .cmd = 0x00000000 then .awaitPoll else .accAddr) ∧
    t.trace = s.trace ++ [.cbr .cmd (s.field .cmd)] ∧
    t = { s with cmd := t.cmd, ctl := t.ctl, trace := t.trace }

/-- R84: CMD_IDLE at AWAIT_POLL completes: the block stays there, writes no field and raises no notification. -/
def Obligations.IdleStaysInAwaitPoll : Prop :=
  ∀ s : State, s.ctl = .awaitPoll → s.field .cmd = 0x00000000 →
    ∃ t, exec .cmdIdle s = .next t ∧ t.ctl = .awaitPoll ∧ t.cmd = 0x00000000 ∧
      t.trace = s.trace ++ [.cbr .cmd 0x00000000] ∧ t = { s with cmd := t.cmd, ctl := t.ctl, trace := t.trace }

/-- CMD_START completes at both its control states (that it acts at the poll and again at ACC_CMD is log entry 8, DEDUCED from
R83, R85, R86): the poll latches the word, the instruction's operand being the word fetched from CMD (R83); at ACC_CMD, CMD is
cleared (R85) and TRANSMIT is entered (R87), the same for every start word (R86). -/
def Obligations.StartCommandEntersTransmit : Prop :=
  ∀ (word : Word) (s : State),
    (s.ctl = .awaitPoll → ∃ t, exec (.cmdStart word) s = .next t ∧ t.cmd = word ∧ t.ctl = .accAddr ∧
      t.trace = s.trace ++ [.cbr .cmd word] ∧ t = { s with cmd := t.cmd, ctl := t.ctl, trace := t.trace }) ∧
    (s.ctl = .accCmd → ∃ t, exec (.cmdStart word) s = .next t ∧
      t.field .cmd = 0x00000000 ∧ (∀ f, f ≠ .cmd → t.field f = s.field f) ∧
      t.cycleCounter = 0 ∧ t.n = s.rows ∧ t.ptr = s.addr ∧
      (s.rows = 0 → t.ctl = .latchDelay ∧ t.phase = s.phase ∧ t.c = s.c) ∧
      (s.rows ≠ 0 → t.ctl = .transmit ∧ t.phase = .load ∧ t.c = 0) ∧
      t.trace = s.trace ++ [.cbw .cmd 0x00000000] ∧
      t = { s with cb := t.cb, cycleCounter := t.cycleCounter, n := t.n, ptr := t.ptr, ctl := t.ctl, phase := t.phase,
                   c := t.c, trace := t.trace })

/-- CMD_EXIT completes at both its control states (that it acts at the poll and again at ACC_CMD is log entry 8, DEDUCED from
R83, R85, R90): the poll latches the word (R83); at ACC_CMD, CMD is cleared (R85) and the block goes to EXIT_RESP (R90). -/
def Obligations.ExitCommandGoesToExit : Prop :=
  ∀ s : State,
    (s.ctl = .awaitPoll → ∃ t, exec .cmdExit s = .next t ∧ t.cmd = 0x000000FF ∧ t.ctl = .accAddr ∧
      t.trace = s.trace ++ [.cbr .cmd 0x000000FF] ∧ t = { s with cmd := t.cmd, ctl := t.ctl, trace := t.trace }) ∧
    (s.ctl = .accCmd → ∃ t, exec .cmdExit s = .next t ∧
      t.field .cmd = 0x00000000 ∧ (∀ f, f ≠ .cmd → t.field f = s.field f) ∧ t.ctl = .exitResp ∧
      t.trace = s.trace ++ [.cbw .cmd 0x00000000] ∧ t = { s with cb := t.cb, ctl := t.ctl, trace := t.trace })

/-- R85, R80: each of ACCEPT's four steps completes in every state. -/
def Obligations.AcceptStepsComplete : Prop :=
  ∀ s : State,
    (∃ t, exec (.accept .addr) s = .next t ∧ t.addr = s.field .addr ∧ t.ctl = .accRows ∧
      t.trace = s.trace ++ [.cbr .addr (s.field .addr)] ∧ t = { s with addr := t.addr, ctl := t.ctl, trace := t.trace }) ∧
    (∃ t, exec (.accept .rows) s = .next t ∧ t.rows = s.field .rows ∧ t.ctl = .accResp ∧
      t.trace = s.trace ++ [.cbr .rows (s.field .rows)] ∧ t = { s with rows := t.rows, ctl := t.ctl, trace := t.trace }) ∧
    (∃ t, exec (.accept .resp) s = .next t ∧ t.field .resp = 0x00000000 ∧ (∀ f, f ≠ .resp → t.field f = s.field f) ∧
      t.ctl = .accCmd ∧ t.trace = s.trace ++ [.cbw .resp 0x00000000] ∧
      t = { s with cb := t.cb, ctl := t.ctl, trace := t.trace }) ∧
    (∃ t, exec (.accept .cmd) s = .next t ∧ t.field .cmd = 0x00000000 ∧ (∀ f, f ≠ .cmd → t.field f = s.field f) ∧
      (s.cmd = 0x000000FF → t.ctl = .exitResp ∧ t = { s with cb := t.cb, ctl := t.ctl, trace := t.trace }) ∧
      (s.cmd ≠ 0x000000FF → t.cycleCounter = 0 ∧ t.n = s.rows ∧ t.ptr = s.addr ∧
        (s.rows = 0 → t.ctl = .latchDelay ∧ t.phase = s.phase ∧ t.c = s.c) ∧
        (s.rows ≠ 0 → t.ctl = .transmit ∧ t.phase = .load ∧ t.c = 0)) ∧
      t.trace = s.trace ++ [.cbw .cmd 0x00000000] ∧
      t = { s with cb := t.cb, cycleCounter := t.cycleCounter, n := t.n, ptr := t.ptr, ctl := t.ctl, phase := t.phase,
                   c := t.c, trace := t.trace })

/-- R85: the four steps of ACCEPT in a run with no other move: the latched values, the clears and the trace. -/
def Obligations.AcceptRunsInFourSteps : Prop :=
  ∀ s : State, failedCheck s.config = none → s.moves = [] → s.ctl = .accAddr →
    ∃ t, core.run 4 s = .next t ∧ t.addr = s.field .addr ∧ t.rows = s.field .rows ∧ t.cmd = s.cmd ∧
      t.field .addr = s.field .addr ∧ t.field .rows = s.field .rows ∧ t.field .cmd = 0 ∧ t.field .resp = 0 ∧
      t.trace = s.trace ++ [.cbr .addr (s.field .addr), .cbr .rows (s.field .rows), .cbw .resp 0, .cbw .cmd 0] ∧
      (s.cmd = 0xFF → t.ctl = .exitResp) ∧
      (s.cmd ≠ 0xFF → t.n = s.field .rows ∧ t.ptr = s.field .addr ∧
        (s.field .rows = 0 → t.ctl = .latchDelay) ∧ (s.field .rows ≠ 0 → t.ctl = .transmit ∧ t.phase = .load ∧ t.c = 0))

/-- R88: LATCH completes in every state and has no effect but the control state. -/
def Obligations.LatchOnlyMovesOn : Prop :=
  ∀ s : State, ∃ t, exec .latch s = .next t ∧ t.ctl = .reportAck ∧ t.trace = s.trace ++ [.latch] ∧
    t = { s with ctl := t.ctl, trace := t.trace }

/-- R89: both steps of REPORT complete in every state. The count `t.cyc` is a free value (log entry 1): the statement holds
whatever it is. `draws` is the model's own counter. -/
def Obligations.ReportWritesDoneThenTheCount : Prop :=
  ∀ s : State,
    (∃ t, exec (.report .ack) s = .next t ∧ t.field .resp = 0x00000001 ∧ (∀ f, f ≠ .resp → t.field f = s.field f) ∧
      (t.ctl = .reportCyc ↔ s.config.reportCycles = true ∧ t.cyc ≠ 0x00000000 ∧ t.cyc ≠ 0x000000FF) ∧
      (t.ctl ≠ .reportCyc → t.ctl = .awaitEntry) ∧ t.trace = s.trace ++ [.cbw .resp 0x00000001] ∧
      t = { s with cb := t.cb, cyc := t.cyc, draws := t.draws, ctl := t.ctl, trace := t.trace }) ∧
    (∃ t, exec (.report .cyc) s = .next t ∧ t.field .resp = s.cyc ∧ (∀ f, f ≠ .resp → t.field f = s.field f) ∧
      t.ctl = .awaitEntry ∧ t.trace = s.trace ++ [.cbw .resp s.cyc] ∧
      t = { s with cb := t.cb, ctl := t.ctl, trace := t.trace })

/-- R89, R65: a report that runs without other moves takes one or two steps, and then the producer reads it as done, whatever
count was drawn (log entry 1). -/
def Obligations.ReportReadsAsDone : Prop :=
  ∀ s : State, failedCheck s.config = none → s.moves = [] → s.ctl = .reportAck →
    ∃ k t, (k = 1 ∨ k = 2) ∧ core.run k s = .next t ∧ t.ctl = .awaitEntry ∧ readResponse (t.field .resp) = .done ∧
      (s.config.reportCycles = false → t.field .resp = 0x00000001) ∧
      t.field .cmd = s.field .cmd ∧ t.out = s.out ∧ t.mem = s.mem

/-- R91: the three steps of EXIT complete in every state. -/
def Obligations.ExitStepsComplete : Prop :=
  ∀ s : State,
    (∃ t, exec (.exit .resp) s = .next t ∧ t.field .resp = 0x000000FF ∧ (∀ f, f ≠ .resp → t.field f = s.field f) ∧
      t.ctl = .exitNotify ∧ t.trace = s.trace ++ [.cbw .resp 0x000000FF] ∧
      t = { s with cb := t.cb, ctl := t.ctl, trace := t.trace }) ∧
    (∃ t, exec (.exit .notify) s = .next t ∧ t.ctl = .exitHalt ∧ t.trace = s.trace ++ [.notify] ∧
      t = { s with ctl := t.ctl, trace := t.trace, notifyPending := t.notifyPending }) ∧
    (∃ t, exec (.exit .halt) s = .next t ∧ t.ctl = .halted ∧ t.trace = s.trace ++ [.halt] ∧
      t = { s with ctl := t.ctl, trace := t.trace })

/-- R91, R96 (d), R176: HALTED is left by a restart only; no other move starts the block again, appends an event, changes
RESP or moves a controlled pin. -/
def Obligations.HaltedIsTerminal : Prop :=
  ∀ s t : State, s.ctl = .halted → step s = .next t → s.moves.head? ≠ some .restart →
    t.ctl = .halted ∧ t.trace = s.trace ∧ t.field .resp = s.field .resp ∧
    ∀ k : Fin 4, t.out[k] &&& s.config.pinmask[k] = s.out[k] &&& s.config.pinmask[k]

/-- R54, R166: the clear at ACC_CMD is unconditional: a command the producer writes after the poll, before any of the four steps
of ACCEPT, is lost, and the command latched by the poll is the one executed. -/
def Obligations.OverlappingCommandIsLost : Prop :=
  ∀ (s : State) (v : Word) (j : Nat), failedCheck s.config = none → s.ctl = .accAddr → j ≤ 3 →
    s.moves = List.replicate j .block ++ [.w32 .cmd v] →
    ∃ t, core.run 5 s = .next t ∧ t.moves = [] ∧ t.field .cmd = 0x00000000 ∧ t.cmd = s.cmd ∧
      (s.cmd = 0x000000FF → t.ctl = .exitResp) ∧
      (s.cmd ≠ 0x000000FF → s.field .rows ≠ 0 → t.ctl = .transmit) ∧
      (s.cmd ≠ 0x000000FF → s.field .rows = 0 → t.ctl = .latchDelay)

/-- R92: from TRANSMIT to REPORT_DONE the block's path does not depend on CMD: with another word there, the same step gives
the same state but for that word. -/
def Obligations.FrameIgnoresTheCommandField : Prop :=
  ∀ (s t : State) (v : Word), s.ctl.inFrame = true → s.blockStep = .next t →
    State.blockStep { s with cb := cbPut s.cb .cmd v } = .next { t with cb := cbPut t.cb .cmd v } ∧
    (t.ctl.inFrame = true ∨ t.ctl = .awaitEntry)

/-- R93, R35: whatever the block runs, it changes no byte of the system memory and no ADDR or ROWS; it writes CMD only with
0 and only at ACC_CMD. -/
def Obligations.BlockWritesOnlyItsOwnFields : Prop :=
  ∀ (s t : State), s.blockStep = .next t →
    (∀ a, t.mem.readByte a = s.mem.readByte a) ∧ t.field .addr = s.field .addr ∧ t.field .rows = s.field .rows ∧
    (s.ctl = .accCmd → t.field .cmd = 0x00000000) ∧ (s.ctl ≠ .accCmd → t.field .cmd = s.field .cmd)

/-- R202, R35: no move of the environment but a restart, which R36 describes, writes RESP or a register of the block. What
the platform's moves do is the model's choice: a notification dropped (log entry 6); the pins of a bank outside PINMASK set by
another agent and the controlled ones kept, and the controlled pins driven low in BOOT only (log entry 11, for R30 and
R193 (2)). The producer's own moves: `ProducerWritesOneField`, `ProducerMovesFollowTheScript`. -/
def Obligations.EnvironmentLeavesTheBlockAlone : Prop :=
  (∀ s t : State, s.turn = .environment t → s.moves.head? ≠ some .restart →
    t.field .resp = s.field .resp ∧
    t = { s with cb := t.cb, mem := t.mem, out := t.out, notifyPending := t.notifyPending, moves := t.moves }) ∧
  (∀ (s : State) (rest : List Move), failedCheck s.config = none → s.moves = .dropNotification :: rest →
    step s = .next { s with moves := rest, notifyPending := s.notifyPending - 1 }) ∧
  (∀ (s : State) (k : Fin 4) (levels : Word) (rest : List Move), failedCheck s.config = none →
    s.moves = .otherPins k levels :: rest →
    ∃ t, step s = .next t ∧ t = { s with moves := rest, out := t.out } ∧
      (∀ j : Fin 4, j ≠ k → t.out[j] = s.out[j]) ∧
      ∀ p : Fin 32, t.out[k].getLsbD p.val =
        if s.config.pinmask[k].getLsbD p.val then s.out[k].getLsbD p.val else levels.getLsbD p.val) ∧
  (∀ (s : State) (rest : List Move), failedCheck s.config = none → s.moves = .pinsLow :: rest →
    ∃ t, step s = .next t ∧ t = { s with moves := rest, out := t.out } ∧
      (s.ctl ≠ .boot → t.out = s.out) ∧
      (s.ctl = .boot → t.PinsLow ∧ ∀ k : Fin 4, t.otherPins k = s.otherPins k))

/-- R206, R73: the producer's `W32 off, v` is one access: the four bytes of v stand little-endian at the field's offset (R61),
the field reads v, and nothing else changes. -/
def Obligations.ProducerWritesOneField : Prop :=
  ∀ (s : State) (f : ProducerField) (v : Word) (rest : List Move), failedCheck s.config = none →
    s.moves = .w32 f v :: rest →
    ∃ t, step s = .next t ∧ t.field f.toCbField = v ∧ (∀ g, g ≠ f.toCbField → t.field g = s.field g) ∧
      (f = .addr → ∀ j b : Nat, (hj : j < 4) → b < 8 → t.cb[0 + j].getLsbD b = v.getLsbD (8 * j + b)) ∧
      (f = .rows → ∀ j b : Nat, (hj : j < 4) → b < 8 → t.cb[4 + j].getLsbD b = v.getLsbD (8 * j + b)) ∧
      (f = .cmd → ∀ j b : Nat, (hj : j < 4) → b < 8 → t.cb[8 + j].getLsbD b = v.getLsbD (8 * j + b)) ∧
      t = { s with cb := t.cb, moves := rest }

/-- R73: when a `WAIT` passes and when it gives the turn to the block, and that `WPIX` stores its bytes: each byte that no later
byte of the same move overwrites (a move of 2^32 bytes or fewer has none such), and no other address. A `WAITN` passes when a
notification is pending and takes it, which is log entry 6's choice; that a waiting move stays at the head of the list while the
block steps, and that a `WPIX` stores all its bytes in one move, between two steps of the block, is log entry 7's: the rules do
not say it, and the entry marks it unsafe for a claim, such as this clause, about one `WPIX` move. -/
def Obligations.ProducerMovesFollowTheScript : Prop :=
  ∀ (s : State) (rest : List Move), failedCheck s.config = none →
    (∀ f v, s.moves = .wait f .eq v :: rest →
      (s.field f = v → step s = .next { s with moves := rest }) ∧ (s.field f ≠ v → s.turn = .block s ∧ step s = s.blockStep)) ∧
    (∀ f v, s.moves = .wait f .ne v :: rest →
      (s.field f ≠ v → step s = .next { s with moves := rest }) ∧ (s.field f = v → s.turn = .block s ∧ step s = s.blockStep)) ∧
    (s.moves = .waitn :: rest →
      (s.notifyPending ≠ 0 → step s = .next { s with moves := rest, notifyPending := s.notifyPending - 1 }) ∧
      (s.notifyPending = 0 → s.turn = .block s ∧ step s = s.blockStep)) ∧
    (∀ (a : Word) (xs : List Byte), s.moves = .wpix a xs :: rest → s.mem.wf = true →
      ∃ t, step s = .next t ∧ t = { s with mem := t.mem, moves := rest } ∧
        (∀ (j : Nat) (hj : j < xs.length),
          (∀ j', j < j' → j' < xs.length → a + BitVec.ofNat 32 j' ≠ a + BitVec.ofNat 32 j) →
          t.mem.readByte (a + BitVec.ofNat 32 j).toNat = xs[j]) ∧
        (∀ x : Nat, (∀ j < xs.length, x ≠ (a + BitVec.ofNat 32 j).toNat) → t.mem.readByte x = s.mem.readByte x))

/-- R207: from a quiescent state, the state stays quiescent and the block only appends `CBR(8, 0)`: one for each step but
those that another move takes. What may be left is log entry 7's choice: turns of the block, dropped notifications, and moves of
the pins; no move of the producer's script and no restart (R190), which the entry counts with them because R206 lists it. -/
def Obligations.QuiescentStatesOnlyPoll : Prop :=
  ∀ s : State, failedCheck s.config = none → s.Quiescent → ∀ k : Nat,
    ∃ t polls, core.run k s = .next t ∧ t.Quiescent ∧ t.trace = s.trace ++ List.replicate polls (.cbr .cmd 0x00000000) ∧
      polls ≤ k ∧ k ≤ polls + s.moves.countP (· != .block)

/-! ### The Bit Encoder (spec/41_bit_encoder.md) -/

/-- R100: the data bit of a channel word, by its index and by the record's bytes. -/
def Obligations.DataBitIsTheRecordBit : Prop :=
  (∀ (word : Word) (b : Fin 24), dataBit word b = word.getLsbD (8 * (2 - b.val / 8) + b.val % 8)) ∧
  (∀ (green red blue unused : Byte) (b : Fin 24),
    dataBit (wordOfBytes green red blue unused) b =
      if b.val ≥ 16 then green.getLsbD (b.val - 16) else if b.val ≥ 8 then red.getLsbD (b.val - 8)
      else blue.getLsbD b.val) ∧
  (dataBit 0x00A50180 23 = true ∧ dataBit 0x00A50180 22 = false ∧ dataBit 0x00A50180 8 = true ∧
    dataBit 0x00A50180 7 = true ∧ dataBit 0x00A50180 6 = false ∧ dataBit 0x00A50180 0 = true)

/-- R101, R68: ENCODE completes in every state; each bit of each zero mask is as R68 says; nothing but ZM changes (R103). -/
def Obligations.EncodeComputesTheZeroMasks : Prop :=
  ∀ s : State, ∃ t, exec .encode s = .next t ∧
    (∀ (k : Fin 4) (p : Fin 32), t.zm[k].getLsbD p.val = true ↔
      s.config.pinmask[k].getLsbD p.val = true ∧
        ∃ c : Fin 24, s.config.chmap[c].bank = k.val ∧ s.config.chmap[c].pin = p.val ∧ dataBit s.w[c] s.b = false) ∧
    t = { s with zm := t.zm }

/-- R105: under a configuration that passes R10, a controlled pin has one channel, and its mask bit is the NOT of that
channel's data bit. -/
def Obligations.LanesDoNotInteract : Prop :=
  ∀ (cfg : Config) (w : Vector Word 24) (b : Fin 24) (k : Fin 4) (p : Fin 32), failedCheck cfg = none →
    cfg.pinmask[k].getLsbD p.val = true →
    ∃ c : Fin 24, cfg.chmap[c] = ⟨k.val, p.val⟩ ∧ (∀ c' : Fin 24, cfg.chmap[c'] = ⟨k.val, p.val⟩ → c' = c) ∧
      (zeroMask cfg w b k).getLsbD p.val = !dataBit w[c] b

/-- R102: a zero mask names controlled pins only. -/
def Obligations.ZeroMaskWithinPinmask : Prop :=
  ∀ (cfg : Config) (w : Vector Word 24) (b : Fin 24) (k : Fin 4), zeroMask cfg w b k &&& ~~~cfg.pinmask[k] = 0

/-- R106: the unused byte of every record never changes a zero mask. -/
def Obligations.UnusedByteIsNeverSent : Prop :=
  ∀ (cfg : Config) (w w' : Vector Word 24) (b : Fin 24) (k : Fin 4),
    (∀ (c : Fin 24) (j : Nat), j < 24 → w[c].getLsbD j = w'[c].getLsbD j) → zeroMask cfg w b k = zeroMask cfg w' b k

/-- R104: a channel whose pin is outside PINMASK is inert: its word changes no zero mask. -/
def Obligations.InertChannelsContributeNothing : Prop :=
  ∀ (cfg : Config) (w : Vector Word 24) (c : Fin 24) (word : Word) (b : Fin 24) (k : Fin 4),
    (∀ j : Fin 4, cfg.chmap[c].bank = j.val → cfg.pinmask[j].getLsbD cfg.chmap[c].pin = false) →
    zeroMask cfg (w.set c word) b k = zeroMask cfg w b k

/-! ### The Bank Waveform Emitter (spec/42_waveform_emitter.md) -/

/-- R122: RISE completes in every state. -/
def Obligations.RiseSetsTheControlledPins : Prop :=
  ∀ s : State, ∃ t, exec .rise s = .next t ∧
    t.out = s.out.set s.k (s.out[s.k] ||| s.config.pinmask[s.k]) ∧
    (s.i = 0 ∧ s.k = 0 → t.zm = Vector.ofFn (zeroMask s.config s.w s.b)) ∧ (¬ (s.i = 0 ∧ s.k = 0) → t.zm = s.zm) ∧
    t.trace = s.trace ++ [.gset s.k s.config.pinmask[s.k]] ∧
    (s.k < 3 → t.k = s.k + 1 ∧ t.i = s.i ∧ t.phase = s.phase) ∧
    (s.k = 3 → s.i < s.config.nRise - 1 → t.k = 0 ∧ t.i = s.i + 1 ∧ t.phase = s.phase) ∧
    (s.k = 3 → ¬ s.i < s.config.nRise - 1 → t.k = 0 ∧ t.i = 0 ∧ t.phase = .mid) ∧
    t = { s with out := t.out, zm := t.zm, k := t.k, i := t.i, phase := t.phase, trace := t.trace }

/-- R123: SEL_FALL completes in every state. -/
def Obligations.SelFallClearsTheZeroBits : Prop :=
  ∀ s : State, ∃ t, exec .selFall s = .next t ∧
    t.out = s.out.set s.k (s.out[s.k] &&& ~~~s.zm[s.k]) ∧ t.trace = s.trace ++ [.gclr s.k s.zm[s.k]] ∧
    (s.k < 3 → t.k = s.k + 1 ∧ t.i = s.i ∧ t.phase = s.phase) ∧
    (s.k = 3 → s.i < s.config.nMid - 1 → t.k = 0 ∧ t.i = s.i + 1 ∧ t.phase = s.phase) ∧
    (s.k = 3 → ¬ s.i < s.config.nMid - 1 → t.k = 0 ∧ t.i = 0 ∧ t.phase = .low) ∧
    t = { s with out := t.out, k := t.k, i := t.i, phase := t.phase, trace := t.trace }

/-- R124: FULL_FALL completes in every state; after a cell's last write the next cell starts, or ADVANCE_ROW is done in the
same step (R143). -/
def Obligations.FullFallClearsTheControlledPins : Prop :=
  ∀ s : State, ∃ t, exec .fullFall s = .next t ∧
    t.out = s.out.set s.k (s.out[s.k] &&& ~~~s.config.pinmask[s.k]) ∧
    t.trace = s.trace ++ [.gclr s.k s.config.pinmask[s.k]] ∧
    (s.k < 3 → t = { s with out := t.out, trace := t.trace, k := s.k + 1 }) ∧
    (s.k = 3 → s.i < s.config.nLow - 1 → t = { s with out := t.out, trace := t.trace, k := 0, i := s.i + 1 }) ∧
    (s.k = 3 → ¬ s.i < s.config.nLow - 1 → s.b > 0 →
      t = { s with out := t.out, trace := t.trace, k := 0, i := 0, b := s.b - 1, phase := .rise }) ∧
    (s.k = 3 → ¬ s.i < s.config.nLow - 1 → s.b = 0 →
      exec .advanceRow { s with out := t.out, trace := t.trace, k := 0, i := 0 } = .next t)

/-- R127: under the masking invariant (R102, part of `State.Inv`), no instruction changes a pin outside PINMASK. -/
def Obligations.PinsOutsidePinmaskNeverMove : Prop :=
  ∀ (i : Instr) (s t : State), s.Inv → exec i s = .next t → ∀ k : Fin 4, t.otherPins k = s.otherPins k

/-- R120, R125, R128: one whole cell, from its first RISE: the GPIO writes in the rule's order, every controlled pin low at
the end, and the next cell or the next row after it. -/
def Obligations.BitCellRunsToItsEnd : Prop :=
  ∀ s : State, failedCheck s.config = none → s.moves = [] → s.ctl = .transmit → s.phase = .rise → s.i = 0 → s.k = 0 →
    ∃ t, core.run (cellSteps s.config) s = .next t ∧ t.trace = s.trace ++ cellEvents s.config s.w s.b ∧ t.PinsLow ∧
      (∀ k : Fin 4, t.otherPins k = s.otherPins k) ∧
      (s.b > 0 → t.ctl = .transmit ∧ t.phase = .rise ∧ t.b = s.b - 1 ∧ t.i = 0 ∧ t.k = 0 ∧ t.n = s.n ∧ t.ptr = s.ptr) ∧
      (s.b = 0 → t.n = s.n - 1 ∧ t.ptr = s.ptr + 96 ∧ (s.n = 1 → t.ctl = .latchDelay) ∧
        (s.n ≠ 1 → t.ctl = .transmit ∧ t.phase = .load ∧ t.c = 0)) ∧
      t.w = s.w ∧ t.mem = s.mem ∧ t.cb = s.cb

/-- R126: the level of a controlled pin of bank `k` after step `j` of a cell (steps counted from 0): before step `k` the level
it had at the start of the cell, high from step `k` on until its fall, which a 0-bit has at step 4·N_RISE + k and a 1-bit at step
4·(N_RISE + N_MID) + k, and low from then to the end of the cell. -/
def Obligations.PinWaveformOfACell : Prop :=
  ∀ (s : State) (k : Fin 4) (p : Fin 32) (c : Fin 24) (j : Nat),
    failedCheck s.config = none → s.moves = [] → s.ctl = .transmit → s.phase = .rise → s.i = 0 → s.k = 0 →
    s.config.pinmask[k].getLsbD p.val = true → s.config.chmap[c] = ⟨k.val, p.val⟩ → j < cellSteps s.config →
    ∃ t, core.run (j + 1) s = .next t ∧
      (j < k.val → t.out[k].getLsbD p.val = s.out[k].getLsbD p.val) ∧
      (k.val ≤ j → (t.out[k].getLsbD p.val = true ↔ j < fallStep s.config k (dataBit s.w[c] s.b)))

/-- R128: where the program has the controlled pins low (`State.PinLaw`: between cells and rows, outside TRANSMIT, and within a
cell the banks not yet raised or already cleared), every step keeps it so, whatever the producer does, as long as no restart is
to come (a restart may cut a cell short; R193 (2) then has the platform drive the pins low). That no other agent moves a
controlled pin is log entry 11. -/
def Obligations.StepKeepsPinsLowBetweenCells : Prop :=
  ∀ s t : State, s.restartFree = true → s.PinLaw → step s = .next t → t.PinLaw ∧ t.restartFree = true

/-- R128 at reset: OUT's reset value is the model's choice (log entry 4). -/
def Obligations.ResetHasPinsLow : Prop := State.reset.PinLaw ∧ State.reset.restartFree = true

/-! ### The Frame Sequencer (spec/43_frame_sequencer.md) -/

/-- R141, R49: LOAD_ROW completes when the read is admitted, in every state. -/
def Obligations.LoadRowReadsOneChannel : Prop :=
  ∀ s : State, admitsRead s.config (s.ptr + BitVec.ofNat 32 (4 * s.c.val)) = true →
    ∃ t, exec .loadRow s = .next t ∧
      t.w = s.w.set s.c (s.mem.readWord (s.ptr + BitVec.ofNat 32 (4 * s.c.val))) ∧
      t.trace = s.trace ++
        [.pxr (s.ptr + BitVec.ofNat 32 (4 * s.c.val)) (s.mem.readWord (s.ptr + BitVec.ofNat 32 (4 * s.c.val)))] ∧
      (s.c < 23 → t = { s with w := t.w, trace := t.trace, c := s.c + 1 }) ∧
      (s.c = 23 → t = { s with w := t.w, trace := t.trace, b := 23, i := 0, k := 0, phase := .rise })

/-- R49, R162: a read with an address not a multiple of 4, or with one of its four addresses outside ADMIT, has no step. -/
def Obligations.UnadmittedReadIsStuck : Prop :=
  ∀ s : State, exec .loadRow s = .fault (.stuckUnadmittedRead s.loadAddress) ↔
    ¬ (s.loadAddress.toNat % 4 = 0 ∧ ∀ j : Fin 4, ∃ r ∈ s.config.admitted,
        r.base ≤ (s.loadAddress + BitVec.ofNat 32 j.val).toNat ∧
        (s.loadAddress + BitVec.ofNat 32 j.val).toNat < r.base + r.size)

/-- R143: ADVANCE_ROW completes in every state. -/
def Obligations.AdvanceRowMovesToTheNextRow : Prop :=
  ∀ s : State, ∃ t, exec .advanceRow s = .next t ∧ t.ptr = s.ptr + 96 ∧ t.n = s.n - 1 ∧
    (s.n - 1 = 0 → t = { s with ptr := t.ptr, n := t.n, ctl := .latchDelay }) ∧
    (s.n - 1 ≠ 0 → t = { s with ptr := t.ptr, n := t.n, c := 0, phase := .load })

/-- R46: the addresses of an aligned row, and the next row's, are aligned. -/
def Obligations.AlignedRowsHaveAlignedReads : Prop :=
  ∀ (ptr : Word) (c : Fin 24), ptr.toNat % 4 = 0 →
    (recordAddress ptr c).toNat % 4 = 0 ∧ (ptr + rowStride).toNat % 4 = 0

/-- R144, R140, R146, R147: a frame of n rows whose reads are all admitted is sent in n·(24 + 96·(N_RISE + N_MID + N_LOW))
steps, with exactly the prescribed trace, and ends in LATCH_DELAY with every controlled pin low. -/
def Obligations.FrameIsSentToItsEnd : Prop :=
  ∀ s : State, failedCheck s.config = none → s.moves = [] → s.ctl = .transmit → s.phase = .load → s.c = 0 → s.n ≠ 0 →
    (∀ r < s.n.toNat, ∀ c : Fin 24, admitsRead s.config (recordAddress (s.ptr + BitVec.ofNat 32 (96 * r)) c) = true) →
    ∃ t, core.run (s.n.toNat * rowSteps s.config) s = .next t ∧ t.ctl = .latchDelay ∧ t.n = 0 ∧
      t.ptr = s.ptr + BitVec.ofNat 32 (96 * s.n.toNat) ∧
      t.trace = s.trace ++ frameEvents s.config s.mem s.n.toNat s.ptr ∧ t.PinsLow ∧
      (∀ k : Fin 4, t.otherPins k = s.otherPins k) ∧ t.mem = s.mem ∧ t.cb = s.cb

/-- R146: the prescribed trace of R rows has 24·R pixel reads and 4·(N_RISE + N_MID + N_LOW)·24·R GPIO writes. -/
def Obligations.FrameEventCounts : Prop :=
  ∀ (cfg : Config) (mem : Memory) (rows : Nat) (ptr : Word),
    (frameEvents cfg mem rows ptr).countP (·.isPixelRead) = 24 * rows ∧
    (frameEvents cfg mem rows ptr).countP (·.isGpio) = 4 * (cfg.nRise + cfg.nMid + cfg.nLow) * 24 * rows

/-! ### Invariants -/

/-- `State.Inv` holds after reset. The rules (R36, R37) leave ZM unspecified and the memory's content open: that ZM is within
PINMASK rests on its reset value 0 (log entry 4), and that the memory is in canonical form on its listing nothing (log
entry 3). -/
def Obligations.ResetSatisfiesTheRunConditions : Prop := State.reset.Inv

/-- Every step keeps `State.Inv`: canonical memory, n ≥ 1 in TRANSMIT (R143), the repetition index in range (R22), ZM equal to
the cell's zero masks (R103) and within PINMASK (R102), and the command latched (R83, R80), whatever the environment does. After a restart, which leaves ZM
unspecified (R36), that ZM is within PINMASK rests on the model's value 0 there (log entry 4). -/
def Obligations.StepKeepsTheRunConditions : Prop := ∀ s t : State, s.Inv → step s = .next t → t.Inv

/-- R96 (b), (d), R65: every step keeps the law of RESP. -/
def Obligations.StepKeepsTheResponseLaw : Prop :=
  (∀ s t : State, s.ResponseLaw → step s = .next t → t.ResponseLaw) ∧ State.reset.ResponseLaw
end

