-- ==== Sys2Proof/Laws/Decode.lean ====
section
/-! SUPPORT. The laws of the decoder and of the byte order. -/

namespace Sys2Proof

/-- The command table in closed form: the idle word, the exit word, and every other word. -/
theorem decodeWord_eq (v : Word) :
    decodeWord v = if v = 0 then .cmdIdle else if v = 0xFF then .cmdExit else .cmdStart v := by
  have hm : v &&& 0xFFFFFFFF = v := BitVec.and_allOnes
  by_cases h0 : v = 0
  · subst h0; rfl
  · by_cases h1 : v = 0xFF
    · subst h1; rfl
    · have e0 : (v == 0) = false := by simpa using h0
      have e1 : (v == 0xFF) = false := by simpa using h1
      simp only [decodeWord, commandTable, List.find?, CommandRow.selects, hm, if_neg h0, if_neg h1, e0, e1]
      rw [show v &&& 0 = 0 from BitVec.and_zero, BEq.rfl]
      rfl

/-- Four bytes always decode (R64). -/
@[simp] theorem decode_four (b0 b1 b2 b3 : Byte) (rest : List Byte) :
    decode (b0 :: b1 :: b2 :: b3 :: rest) = .ok (decodeWord (wordOfBytes b0 b1 b2 b3), rest) := rfl

/-- The bytes of a word assemble to the word (R44). -/
@[simp] theorem wordOfBytes_byteOfWord (v : Word) :
    wordOfBytes (byteOfWord v 0) (byteOfWord v 1) (byteOfWord v 2) (byteOfWord v 3) = v := by
  apply BitVec.eq_of_getLsbD_eq
  intro i hi
  simp only [wordOfBytes, byteOfWord, BitVec.getLsbD_append, BitVec.getLsbD_extractLsb']
  repeat' split
  all_goals
    rw [decide_eq_true (by omega), Bool.true_and]
    congr 1
    omega

/-- A word's four bytes decode as the word (R61, R62). -/
@[simp] theorem decode_bytesOfWord (v : Word) : decode (bytesOfWord v) = .ok (decodeWord v, []) := by
  simp [bytesOfWord]

/-- Bit `b` of byte `j` of a word is bit `8·j + b` of the word (R44). -/
theorem byteOfWord_getLsbD (v : Word) (j b : Nat) :
    (byteOfWord v j).getLsbD b = (decide (b < 8) && v.getLsbD (8 * j + b)) := by
  simp [byteOfWord, BitVec.getLsbD_extractLsb']

/-- Byte `j` of four bytes put together is the `j`-th (R44). -/
theorem byteOfWord_wordOfBytes (b0 b1 b2 b3 : Byte) :
    byteOfWord (wordOfBytes b0 b1 b2 b3) 0 = b0 ∧ byteOfWord (wordOfBytes b0 b1 b2 b3) 1 = b1 ∧
    byteOfWord (wordOfBytes b0 b1 b2 b3) 2 = b2 ∧ byteOfWord (wordOfBytes b0 b1 b2 b3) 3 = b3 := by
  refine ⟨?_, ?_, ?_, ?_⟩ <;>
  · apply BitVec.eq_of_getLsbD_eq
    intro i hi
    simp only [wordOfBytes, byteOfWord, BitVec.getLsbD_extractLsb', BitVec.getLsbD_append, hi, decide_true, Bool.true_and]
    repeat' split
    all_goals first | omega | (congr 1; omega)

end Sys2Proof
end

