-- ==== Sys2Proof/Laws/State.lean ====
section
/-! SUPPORT. One lemma per field per shared operation of State, so that no proof unfolds a record update. The operations
whose effect has one case are equal field by field by `rfl`; the position operations split on their decisions once. -/

namespace Sys2Proof.Machine

/-! ### Actions and encoder: every field -/

/-! #### `State.log` -/
@[simp] theorem State.log_config (e : Event) (s : State) : (s.log e).config = s.config := rfl
@[simp] theorem State.log_ctl (e : Event) (s : State) : (s.log e).ctl = s.ctl := rfl
@[simp] theorem State.log_cmd (e : Event) (s : State) : (s.log e).cmd = s.cmd := rfl
@[simp] theorem State.log_addr (e : Event) (s : State) : (s.log e).addr = s.addr := rfl
@[simp] theorem State.log_rows (e : Event) (s : State) : (s.log e).rows = s.rows := rfl
@[simp] theorem State.log_n (e : Event) (s : State) : (s.log e).n = s.n := rfl
@[simp] theorem State.log_ptr (e : Event) (s : State) : (s.log e).ptr = s.ptr := rfl
@[simp] theorem State.log_phase (e : Event) (s : State) : (s.log e).phase = s.phase := rfl
@[simp] theorem State.log_c (e : Event) (s : State) : (s.log e).c = s.c := rfl
@[simp] theorem State.log_b (e : Event) (s : State) : (s.log e).b = s.b := rfl
@[simp] theorem State.log_i (e : Event) (s : State) : (s.log e).i = s.i := rfl
@[simp] theorem State.log_k (e : Event) (s : State) : (s.log e).k = s.k := rfl
@[simp] theorem State.log_cyc (e : Event) (s : State) : (s.log e).cyc = s.cyc := rfl
@[simp] theorem State.log_w (e : Event) (s : State) : (s.log e).w = s.w := rfl
@[simp] theorem State.log_zm (e : Event) (s : State) : (s.log e).zm = s.zm := rfl
@[simp] theorem State.log_cycleCounter (e : Event) (s : State) : (s.log e).cycleCounter = s.cycleCounter := rfl
@[simp] theorem State.log_out (e : Event) (s : State) : (s.log e).out = s.out := rfl
@[simp] theorem State.log_cb (e : Event) (s : State) : (s.log e).cb = s.cb := rfl
@[simp] theorem State.log_mem (e : Event) (s : State) : (s.log e).mem = s.mem := rfl
@[simp] theorem State.log_notifyPending (e : Event) (s : State) : (s.log e).notifyPending = s.notifyPending := rfl
@[simp] theorem State.log_trace (e : Event) (s : State) : (s.log e).trace = s.trace ++ [e] := rfl
@[simp] theorem State.log_moves (e : Event) (s : State) : (s.log e).moves = s.moves := rfl
@[simp] theorem State.log_draws (e : Event) (s : State) : (s.log e).draws = s.draws := rfl

/-! #### `State.goto` -/
@[simp] theorem State.goto_config (x : Ctl) (s : State) : (s.goto x).config = s.config := rfl
@[simp] theorem State.goto_ctl (x : Ctl) (s : State) : (s.goto x).ctl = x := rfl
@[simp] theorem State.goto_cmd (x : Ctl) (s : State) : (s.goto x).cmd = s.cmd := rfl
@[simp] theorem State.goto_addr (x : Ctl) (s : State) : (s.goto x).addr = s.addr := rfl
@[simp] theorem State.goto_rows (x : Ctl) (s : State) : (s.goto x).rows = s.rows := rfl
@[simp] theorem State.goto_n (x : Ctl) (s : State) : (s.goto x).n = s.n := rfl
@[simp] theorem State.goto_ptr (x : Ctl) (s : State) : (s.goto x).ptr = s.ptr := rfl
@[simp] theorem State.goto_phase (x : Ctl) (s : State) : (s.goto x).phase = s.phase := rfl
@[simp] theorem State.goto_c (x : Ctl) (s : State) : (s.goto x).c = s.c := rfl
@[simp] theorem State.goto_b (x : Ctl) (s : State) : (s.goto x).b = s.b := rfl
@[simp] theorem State.goto_i (x : Ctl) (s : State) : (s.goto x).i = s.i := rfl
@[simp] theorem State.goto_k (x : Ctl) (s : State) : (s.goto x).k = s.k := rfl
@[simp] theorem State.goto_cyc (x : Ctl) (s : State) : (s.goto x).cyc = s.cyc := rfl
@[simp] theorem State.goto_w (x : Ctl) (s : State) : (s.goto x).w = s.w := rfl
@[simp] theorem State.goto_zm (x : Ctl) (s : State) : (s.goto x).zm = s.zm := rfl
@[simp] theorem State.goto_cycleCounter (x : Ctl) (s : State) : (s.goto x).cycleCounter = s.cycleCounter := rfl
@[simp] theorem State.goto_out (x : Ctl) (s : State) : (s.goto x).out = s.out := rfl
@[simp] theorem State.goto_cb (x : Ctl) (s : State) : (s.goto x).cb = s.cb := rfl
@[simp] theorem State.goto_mem (x : Ctl) (s : State) : (s.goto x).mem = s.mem := rfl
@[simp] theorem State.goto_notifyPending (x : Ctl) (s : State) : (s.goto x).notifyPending = s.notifyPending := rfl
@[simp] theorem State.goto_trace (x : Ctl) (s : State) : (s.goto x).trace = s.trace := rfl
@[simp] theorem State.goto_moves (x : Ctl) (s : State) : (s.goto x).moves = s.moves := rfl
@[simp] theorem State.goto_draws (x : Ctl) (s : State) : (s.goto x).draws = s.draws := rfl

/-! #### `State.cbRead` -/
@[simp] theorem State.cbRead_config (f : CbField) (s : State) : (s.cbRead f).config = s.config := rfl
@[simp] theorem State.cbRead_ctl (f : CbField) (s : State) : (s.cbRead f).ctl = s.ctl := rfl
@[simp] theorem State.cbRead_cmd (f : CbField) (s : State) : (s.cbRead f).cmd = s.cmd := rfl
@[simp] theorem State.cbRead_addr (f : CbField) (s : State) : (s.cbRead f).addr = s.addr := rfl
@[simp] theorem State.cbRead_rows (f : CbField) (s : State) : (s.cbRead f).rows = s.rows := rfl
@[simp] theorem State.cbRead_n (f : CbField) (s : State) : (s.cbRead f).n = s.n := rfl
@[simp] theorem State.cbRead_ptr (f : CbField) (s : State) : (s.cbRead f).ptr = s.ptr := rfl
@[simp] theorem State.cbRead_phase (f : CbField) (s : State) : (s.cbRead f).phase = s.phase := rfl
@[simp] theorem State.cbRead_c (f : CbField) (s : State) : (s.cbRead f).c = s.c := rfl
@[simp] theorem State.cbRead_b (f : CbField) (s : State) : (s.cbRead f).b = s.b := rfl
@[simp] theorem State.cbRead_i (f : CbField) (s : State) : (s.cbRead f).i = s.i := rfl
@[simp] theorem State.cbRead_k (f : CbField) (s : State) : (s.cbRead f).k = s.k := rfl
@[simp] theorem State.cbRead_cyc (f : CbField) (s : State) : (s.cbRead f).cyc = s.cyc := rfl
@[simp] theorem State.cbRead_w (f : CbField) (s : State) : (s.cbRead f).w = s.w := rfl
@[simp] theorem State.cbRead_zm (f : CbField) (s : State) : (s.cbRead f).zm = s.zm := rfl
@[simp] theorem State.cbRead_cycleCounter (f : CbField) (s : State) : (s.cbRead f).cycleCounter = s.cycleCounter := rfl
@[simp] theorem State.cbRead_out (f : CbField) (s : State) : (s.cbRead f).out = s.out := rfl
@[simp] theorem State.cbRead_cb (f : CbField) (s : State) : (s.cbRead f).cb = s.cb := rfl
@[simp] theorem State.cbRead_mem (f : CbField) (s : State) : (s.cbRead f).mem = s.mem := rfl
@[simp] theorem State.cbRead_notifyPending (f : CbField) (s : State) : (s.cbRead f).notifyPending = s.notifyPending := rfl
@[simp] theorem State.cbRead_trace (f : CbField) (s : State) : (s.cbRead f).trace = s.trace ++ [.cbr f (s.field f)] := rfl
@[simp] theorem State.cbRead_moves (f : CbField) (s : State) : (s.cbRead f).moves = s.moves := rfl
@[simp] theorem State.cbRead_draws (f : CbField) (s : State) : (s.cbRead f).draws = s.draws := rfl

/-! #### `State.cbWrite` -/
@[simp] theorem State.cbWrite_config (f : CbField) (v : Word) (s : State) : (s.cbWrite f v).config = s.config := rfl
@[simp] theorem State.cbWrite_ctl (f : CbField) (v : Word) (s : State) : (s.cbWrite f v).ctl = s.ctl := rfl
@[simp] theorem State.cbWrite_cmd (f : CbField) (v : Word) (s : State) : (s.cbWrite f v).cmd = s.cmd := rfl
@[simp] theorem State.cbWrite_addr (f : CbField) (v : Word) (s : State) : (s.cbWrite f v).addr = s.addr := rfl
@[simp] theorem State.cbWrite_rows (f : CbField) (v : Word) (s : State) : (s.cbWrite f v).rows = s.rows := rfl
@[simp] theorem State.cbWrite_n (f : CbField) (v : Word) (s : State) : (s.cbWrite f v).n = s.n := rfl
@[simp] theorem State.cbWrite_ptr (f : CbField) (v : Word) (s : State) : (s.cbWrite f v).ptr = s.ptr := rfl
@[simp] theorem State.cbWrite_phase (f : CbField) (v : Word) (s : State) : (s.cbWrite f v).phase = s.phase := rfl
@[simp] theorem State.cbWrite_c (f : CbField) (v : Word) (s : State) : (s.cbWrite f v).c = s.c := rfl
@[simp] theorem State.cbWrite_b (f : CbField) (v : Word) (s : State) : (s.cbWrite f v).b = s.b := rfl
@[simp] theorem State.cbWrite_i (f : CbField) (v : Word) (s : State) : (s.cbWrite f v).i = s.i := rfl
@[simp] theorem State.cbWrite_k (f : CbField) (v : Word) (s : State) : (s.cbWrite f v).k = s.k := rfl
@[simp] theorem State.cbWrite_cyc (f : CbField) (v : Word) (s : State) : (s.cbWrite f v).cyc = s.cyc := rfl
@[simp] theorem State.cbWrite_w (f : CbField) (v : Word) (s : State) : (s.cbWrite f v).w = s.w := rfl
@[simp] theorem State.cbWrite_zm (f : CbField) (v : Word) (s : State) : (s.cbWrite f v).zm = s.zm := rfl
@[simp] theorem State.cbWrite_cycleCounter (f : CbField) (v : Word) (s : State) : (s.cbWrite f v).cycleCounter = s.cycleCounter := rfl
@[simp] theorem State.cbWrite_out (f : CbField) (v : Word) (s : State) : (s.cbWrite f v).out = s.out := rfl
@[simp] theorem State.cbWrite_cb (f : CbField) (v : Word) (s : State) : (s.cbWrite f v).cb = cbPut s.cb f v := rfl
@[simp] theorem State.cbWrite_mem (f : CbField) (v : Word) (s : State) : (s.cbWrite f v).mem = s.mem := rfl
@[simp] theorem State.cbWrite_notifyPending (f : CbField) (v : Word) (s : State) : (s.cbWrite f v).notifyPending = s.notifyPending := rfl
@[simp] theorem State.cbWrite_trace (f : CbField) (v : Word) (s : State) : (s.cbWrite f v).trace = s.trace ++ [.cbw f v] := rfl
@[simp] theorem State.cbWrite_moves (f : CbField) (v : Word) (s : State) : (s.cbWrite f v).moves = s.moves := rfl
@[simp] theorem State.cbWrite_draws (f : CbField) (v : Word) (s : State) : (s.cbWrite f v).draws = s.draws := rfl

/-! #### `State.gpioSet` -/
@[simp] theorem State.gpioSet_config (k : Fin 4) (m : Word) (s : State) : (s.gpioSet k m).config = s.config := rfl
@[simp] theorem State.gpioSet_ctl (k : Fin 4) (m : Word) (s : State) : (s.gpioSet k m).ctl = s.ctl := rfl
@[simp] theorem State.gpioSet_cmd (k : Fin 4) (m : Word) (s : State) : (s.gpioSet k m).cmd = s.cmd := rfl
@[simp] theorem State.gpioSet_addr (k : Fin 4) (m : Word) (s : State) : (s.gpioSet k m).addr = s.addr := rfl
@[simp] theorem State.gpioSet_rows (k : Fin 4) (m : Word) (s : State) : (s.gpioSet k m).rows = s.rows := rfl
@[simp] theorem State.gpioSet_n (k : Fin 4) (m : Word) (s : State) : (s.gpioSet k m).n = s.n := rfl
@[simp] theorem State.gpioSet_ptr (k : Fin 4) (m : Word) (s : State) : (s.gpioSet k m).ptr = s.ptr := rfl
@[simp] theorem State.gpioSet_phase (k : Fin 4) (m : Word) (s : State) : (s.gpioSet k m).phase = s.phase := rfl
@[simp] theorem State.gpioSet_c (k : Fin 4) (m : Word) (s : State) : (s.gpioSet k m).c = s.c := rfl
@[simp] theorem State.gpioSet_b (k : Fin 4) (m : Word) (s : State) : (s.gpioSet k m).b = s.b := rfl
@[simp] theorem State.gpioSet_i (k : Fin 4) (m : Word) (s : State) : (s.gpioSet k m).i = s.i := rfl
@[simp] theorem State.gpioSet_k (k : Fin 4) (m : Word) (s : State) : (s.gpioSet k m).k = s.k := rfl
@[simp] theorem State.gpioSet_cyc (k : Fin 4) (m : Word) (s : State) : (s.gpioSet k m).cyc = s.cyc := rfl
@[simp] theorem State.gpioSet_w (k : Fin 4) (m : Word) (s : State) : (s.gpioSet k m).w = s.w := rfl
@[simp] theorem State.gpioSet_zm (k : Fin 4) (m : Word) (s : State) : (s.gpioSet k m).zm = s.zm := rfl
@[simp] theorem State.gpioSet_cycleCounter (k : Fin 4) (m : Word) (s : State) : (s.gpioSet k m).cycleCounter = s.cycleCounter := rfl
@[simp] theorem State.gpioSet_out (k : Fin 4) (m : Word) (s : State) : (s.gpioSet k m).out = s.out.set k (s.out[k] ||| m) := rfl
@[simp] theorem State.gpioSet_cb (k : Fin 4) (m : Word) (s : State) : (s.gpioSet k m).cb = s.cb := rfl
@[simp] theorem State.gpioSet_mem (k : Fin 4) (m : Word) (s : State) : (s.gpioSet k m).mem = s.mem := rfl
@[simp] theorem State.gpioSet_notifyPending (k : Fin 4) (m : Word) (s : State) : (s.gpioSet k m).notifyPending = s.notifyPending := rfl
@[simp] theorem State.gpioSet_trace (k : Fin 4) (m : Word) (s : State) : (s.gpioSet k m).trace = s.trace ++ [.gset k m] := rfl
@[simp] theorem State.gpioSet_moves (k : Fin 4) (m : Word) (s : State) : (s.gpioSet k m).moves = s.moves := rfl
@[simp] theorem State.gpioSet_draws (k : Fin 4) (m : Word) (s : State) : (s.gpioSet k m).draws = s.draws := rfl

/-! #### `State.gpioClear` -/
@[simp] theorem State.gpioClear_config (k : Fin 4) (m : Word) (s : State) : (s.gpioClear k m).config = s.config := rfl
@[simp] theorem State.gpioClear_ctl (k : Fin 4) (m : Word) (s : State) : (s.gpioClear k m).ctl = s.ctl := rfl
@[simp] theorem State.gpioClear_cmd (k : Fin 4) (m : Word) (s : State) : (s.gpioClear k m).cmd = s.cmd := rfl
@[simp] theorem State.gpioClear_addr (k : Fin 4) (m : Word) (s : State) : (s.gpioClear k m).addr = s.addr := rfl
@[simp] theorem State.gpioClear_rows (k : Fin 4) (m : Word) (s : State) : (s.gpioClear k m).rows = s.rows := rfl
@[simp] theorem State.gpioClear_n (k : Fin 4) (m : Word) (s : State) : (s.gpioClear k m).n = s.n := rfl
@[simp] theorem State.gpioClear_ptr (k : Fin 4) (m : Word) (s : State) : (s.gpioClear k m).ptr = s.ptr := rfl
@[simp] theorem State.gpioClear_phase (k : Fin 4) (m : Word) (s : State) : (s.gpioClear k m).phase = s.phase := rfl
@[simp] theorem State.gpioClear_c (k : Fin 4) (m : Word) (s : State) : (s.gpioClear k m).c = s.c := rfl
@[simp] theorem State.gpioClear_b (k : Fin 4) (m : Word) (s : State) : (s.gpioClear k m).b = s.b := rfl
@[simp] theorem State.gpioClear_i (k : Fin 4) (m : Word) (s : State) : (s.gpioClear k m).i = s.i := rfl
@[simp] theorem State.gpioClear_k (k : Fin 4) (m : Word) (s : State) : (s.gpioClear k m).k = s.k := rfl
@[simp] theorem State.gpioClear_cyc (k : Fin 4) (m : Word) (s : State) : (s.gpioClear k m).cyc = s.cyc := rfl
@[simp] theorem State.gpioClear_w (k : Fin 4) (m : Word) (s : State) : (s.gpioClear k m).w = s.w := rfl
@[simp] theorem State.gpioClear_zm (k : Fin 4) (m : Word) (s : State) : (s.gpioClear k m).zm = s.zm := rfl
@[simp] theorem State.gpioClear_cycleCounter (k : Fin 4) (m : Word) (s : State) : (s.gpioClear k m).cycleCounter = s.cycleCounter := rfl
@[simp] theorem State.gpioClear_out (k : Fin 4) (m : Word) (s : State) : (s.gpioClear k m).out = s.out.set k (s.out[k] &&& ~~~m) := rfl
@[simp] theorem State.gpioClear_cb (k : Fin 4) (m : Word) (s : State) : (s.gpioClear k m).cb = s.cb := rfl
@[simp] theorem State.gpioClear_mem (k : Fin 4) (m : Word) (s : State) : (s.gpioClear k m).mem = s.mem := rfl
@[simp] theorem State.gpioClear_notifyPending (k : Fin 4) (m : Word) (s : State) : (s.gpioClear k m).notifyPending = s.notifyPending := rfl
@[simp] theorem State.gpioClear_trace (k : Fin 4) (m : Word) (s : State) : (s.gpioClear k m).trace = s.trace ++ [.gclr k m] := rfl
@[simp] theorem State.gpioClear_moves (k : Fin 4) (m : Word) (s : State) : (s.gpioClear k m).moves = s.moves := rfl
@[simp] theorem State.gpioClear_draws (k : Fin 4) (m : Word) (s : State) : (s.gpioClear k m).draws = s.draws := rfl

/-! #### `State.raiseNotify` -/
@[simp] theorem State.raiseNotify_config (s : State) : (s.raiseNotify).config = s.config := rfl
@[simp] theorem State.raiseNotify_ctl (s : State) : (s.raiseNotify).ctl = s.ctl := rfl
@[simp] theorem State.raiseNotify_cmd (s : State) : (s.raiseNotify).cmd = s.cmd := rfl
@[simp] theorem State.raiseNotify_addr (s : State) : (s.raiseNotify).addr = s.addr := rfl
@[simp] theorem State.raiseNotify_rows (s : State) : (s.raiseNotify).rows = s.rows := rfl
@[simp] theorem State.raiseNotify_n (s : State) : (s.raiseNotify).n = s.n := rfl
@[simp] theorem State.raiseNotify_ptr (s : State) : (s.raiseNotify).ptr = s.ptr := rfl
@[simp] theorem State.raiseNotify_phase (s : State) : (s.raiseNotify).phase = s.phase := rfl
@[simp] theorem State.raiseNotify_c (s : State) : (s.raiseNotify).c = s.c := rfl
@[simp] theorem State.raiseNotify_b (s : State) : (s.raiseNotify).b = s.b := rfl
@[simp] theorem State.raiseNotify_i (s : State) : (s.raiseNotify).i = s.i := rfl
@[simp] theorem State.raiseNotify_k (s : State) : (s.raiseNotify).k = s.k := rfl
@[simp] theorem State.raiseNotify_cyc (s : State) : (s.raiseNotify).cyc = s.cyc := rfl
@[simp] theorem State.raiseNotify_w (s : State) : (s.raiseNotify).w = s.w := rfl
@[simp] theorem State.raiseNotify_zm (s : State) : (s.raiseNotify).zm = s.zm := rfl
@[simp] theorem State.raiseNotify_cycleCounter (s : State) : (s.raiseNotify).cycleCounter = s.cycleCounter := rfl
@[simp] theorem State.raiseNotify_out (s : State) : (s.raiseNotify).out = s.out := rfl
@[simp] theorem State.raiseNotify_cb (s : State) : (s.raiseNotify).cb = s.cb := rfl
@[simp] theorem State.raiseNotify_mem (s : State) : (s.raiseNotify).mem = s.mem := rfl
@[simp] theorem State.raiseNotify_notifyPending (s : State) : (s.raiseNotify).notifyPending = s.notifyPending + 1 := rfl
@[simp] theorem State.raiseNotify_trace (s : State) : (s.raiseNotify).trace = s.trace ++ [.notify] := rfl
@[simp] theorem State.raiseNotify_moves (s : State) : (s.raiseNotify).moves = s.moves := rfl
@[simp] theorem State.raiseNotify_draws (s : State) : (s.raiseNotify).draws = s.draws := rfl

/-! #### `State.latchDelay` -/
@[simp] theorem State.latchDelay_config (s : State) : (s.latchDelay).config = s.config := rfl
@[simp] theorem State.latchDelay_ctl (s : State) : (s.latchDelay).ctl = s.ctl := rfl
@[simp] theorem State.latchDelay_cmd (s : State) : (s.latchDelay).cmd = s.cmd := rfl
@[simp] theorem State.latchDelay_addr (s : State) : (s.latchDelay).addr = s.addr := rfl
@[simp] theorem State.latchDelay_rows (s : State) : (s.latchDelay).rows = s.rows := rfl
@[simp] theorem State.latchDelay_n (s : State) : (s.latchDelay).n = s.n := rfl
@[simp] theorem State.latchDelay_ptr (s : State) : (s.latchDelay).ptr = s.ptr := rfl
@[simp] theorem State.latchDelay_phase (s : State) : (s.latchDelay).phase = s.phase := rfl
@[simp] theorem State.latchDelay_c (s : State) : (s.latchDelay).c = s.c := rfl
@[simp] theorem State.latchDelay_b (s : State) : (s.latchDelay).b = s.b := rfl
@[simp] theorem State.latchDelay_i (s : State) : (s.latchDelay).i = s.i := rfl
@[simp] theorem State.latchDelay_k (s : State) : (s.latchDelay).k = s.k := rfl
@[simp] theorem State.latchDelay_cyc (s : State) : (s.latchDelay).cyc = s.cyc := rfl
@[simp] theorem State.latchDelay_w (s : State) : (s.latchDelay).w = s.w := rfl
@[simp] theorem State.latchDelay_zm (s : State) : (s.latchDelay).zm = s.zm := rfl
@[simp] theorem State.latchDelay_cycleCounter (s : State) : (s.latchDelay).cycleCounter = s.cycleCounter := rfl
@[simp] theorem State.latchDelay_out (s : State) : (s.latchDelay).out = s.out := rfl
@[simp] theorem State.latchDelay_cb (s : State) : (s.latchDelay).cb = s.cb := rfl
@[simp] theorem State.latchDelay_mem (s : State) : (s.latchDelay).mem = s.mem := rfl
@[simp] theorem State.latchDelay_notifyPending (s : State) : (s.latchDelay).notifyPending = s.notifyPending := rfl
@[simp] theorem State.latchDelay_trace (s : State) : (s.latchDelay).trace = s.trace ++ [.latch] := rfl
@[simp] theorem State.latchDelay_moves (s : State) : (s.latchDelay).moves = s.moves := rfl
@[simp] theorem State.latchDelay_draws (s : State) : (s.latchDelay).draws = s.draws := rfl

/-! #### `State.haltEvent` -/
@[simp] theorem State.haltEvent_config (s : State) : (s.haltEvent).config = s.config := rfl
@[simp] theorem State.haltEvent_ctl (s : State) : (s.haltEvent).ctl = s.ctl := rfl
@[simp] theorem State.haltEvent_cmd (s : State) : (s.haltEvent).cmd = s.cmd := rfl
@[simp] theorem State.haltEvent_addr (s : State) : (s.haltEvent).addr = s.addr := rfl
@[simp] theorem State.haltEvent_rows (s : State) : (s.haltEvent).rows = s.rows := rfl
@[simp] theorem State.haltEvent_n (s : State) : (s.haltEvent).n = s.n := rfl
@[simp] theorem State.haltEvent_ptr (s : State) : (s.haltEvent).ptr = s.ptr := rfl
@[simp] theorem State.haltEvent_phase (s : State) : (s.haltEvent).phase = s.phase := rfl
@[simp] theorem State.haltEvent_c (s : State) : (s.haltEvent).c = s.c := rfl
@[simp] theorem State.haltEvent_b (s : State) : (s.haltEvent).b = s.b := rfl
@[simp] theorem State.haltEvent_i (s : State) : (s.haltEvent).i = s.i := rfl
@[simp] theorem State.haltEvent_k (s : State) : (s.haltEvent).k = s.k := rfl
@[simp] theorem State.haltEvent_cyc (s : State) : (s.haltEvent).cyc = s.cyc := rfl
@[simp] theorem State.haltEvent_w (s : State) : (s.haltEvent).w = s.w := rfl
@[simp] theorem State.haltEvent_zm (s : State) : (s.haltEvent).zm = s.zm := rfl
@[simp] theorem State.haltEvent_cycleCounter (s : State) : (s.haltEvent).cycleCounter = s.cycleCounter := rfl
@[simp] theorem State.haltEvent_out (s : State) : (s.haltEvent).out = s.out := rfl
@[simp] theorem State.haltEvent_cb (s : State) : (s.haltEvent).cb = s.cb := rfl
@[simp] theorem State.haltEvent_mem (s : State) : (s.haltEvent).mem = s.mem := rfl
@[simp] theorem State.haltEvent_notifyPending (s : State) : (s.haltEvent).notifyPending = s.notifyPending := rfl
@[simp] theorem State.haltEvent_trace (s : State) : (s.haltEvent).trace = s.trace ++ [.halt] := rfl
@[simp] theorem State.haltEvent_moves (s : State) : (s.haltEvent).moves = s.moves := rfl
@[simp] theorem State.haltEvent_draws (s : State) : (s.haltEvent).draws = s.draws := rfl

/-! #### `State.drawCycles` -/
@[simp] theorem State.drawCycles_config (s : State) : (s.drawCycles).config = s.config := rfl
@[simp] theorem State.drawCycles_ctl (s : State) : (s.drawCycles).ctl = s.ctl := rfl
@[simp] theorem State.drawCycles_cmd (s : State) : (s.drawCycles).cmd = s.cmd := rfl
@[simp] theorem State.drawCycles_addr (s : State) : (s.drawCycles).addr = s.addr := rfl
@[simp] theorem State.drawCycles_rows (s : State) : (s.drawCycles).rows = s.rows := rfl
@[simp] theorem State.drawCycles_n (s : State) : (s.drawCycles).n = s.n := rfl
@[simp] theorem State.drawCycles_ptr (s : State) : (s.drawCycles).ptr = s.ptr := rfl
@[simp] theorem State.drawCycles_phase (s : State) : (s.drawCycles).phase = s.phase := rfl
@[simp] theorem State.drawCycles_c (s : State) : (s.drawCycles).c = s.c := rfl
@[simp] theorem State.drawCycles_b (s : State) : (s.drawCycles).b = s.b := rfl
@[simp] theorem State.drawCycles_i (s : State) : (s.drawCycles).i = s.i := rfl
@[simp] theorem State.drawCycles_k (s : State) : (s.drawCycles).k = s.k := rfl
@[simp] theorem State.drawCycles_cyc (s : State) : (s.drawCycles).cyc = Config.drawCycles s.draws := rfl
@[simp] theorem State.drawCycles_w (s : State) : (s.drawCycles).w = s.w := rfl
@[simp] theorem State.drawCycles_zm (s : State) : (s.drawCycles).zm = s.zm := rfl
@[simp] theorem State.drawCycles_cycleCounter (s : State) : (s.drawCycles).cycleCounter = s.cycleCounter := rfl
@[simp] theorem State.drawCycles_out (s : State) : (s.drawCycles).out = s.out := rfl
@[simp] theorem State.drawCycles_cb (s : State) : (s.drawCycles).cb = s.cb := rfl
@[simp] theorem State.drawCycles_mem (s : State) : (s.drawCycles).mem = s.mem := rfl
@[simp] theorem State.drawCycles_notifyPending (s : State) : (s.drawCycles).notifyPending = s.notifyPending := rfl
@[simp] theorem State.drawCycles_trace (s : State) : (s.drawCycles).trace = s.trace := rfl
@[simp] theorem State.drawCycles_moves (s : State) : (s.drawCycles).moves = s.moves := rfl
@[simp] theorem State.drawCycles_draws (s : State) : (s.drawCycles).draws = s.draws + 1 := rfl

/-! #### `State.latchCommand` -/
@[simp] theorem State.latchCommand_config (v : Word) (x : Ctl) (s : State) : (s.latchCommand v x).config = s.config := rfl
@[simp] theorem State.latchCommand_ctl (v : Word) (x : Ctl) (s : State) : (s.latchCommand v x).ctl = x := rfl
@[simp] theorem State.latchCommand_cmd (v : Word) (x : Ctl) (s : State) : (s.latchCommand v x).cmd = v := rfl
@[simp] theorem State.latchCommand_addr (v : Word) (x : Ctl) (s : State) : (s.latchCommand v x).addr = s.addr := rfl
@[simp] theorem State.latchCommand_rows (v : Word) (x : Ctl) (s : State) : (s.latchCommand v x).rows = s.rows := rfl
@[simp] theorem State.latchCommand_n (v : Word) (x : Ctl) (s : State) : (s.latchCommand v x).n = s.n := rfl
@[simp] theorem State.latchCommand_ptr (v : Word) (x : Ctl) (s : State) : (s.latchCommand v x).ptr = s.ptr := rfl
@[simp] theorem State.latchCommand_phase (v : Word) (x : Ctl) (s : State) : (s.latchCommand v x).phase = s.phase := rfl
@[simp] theorem State.latchCommand_c (v : Word) (x : Ctl) (s : State) : (s.latchCommand v x).c = s.c := rfl
@[simp] theorem State.latchCommand_b (v : Word) (x : Ctl) (s : State) : (s.latchCommand v x).b = s.b := rfl
@[simp] theorem State.latchCommand_i (v : Word) (x : Ctl) (s : State) : (s.latchCommand v x).i = s.i := rfl
@[simp] theorem State.latchCommand_k (v : Word) (x : Ctl) (s : State) : (s.latchCommand v x).k = s.k := rfl
@[simp] theorem State.latchCommand_cyc (v : Word) (x : Ctl) (s : State) : (s.latchCommand v x).cyc = s.cyc := rfl
@[simp] theorem State.latchCommand_w (v : Word) (x : Ctl) (s : State) : (s.latchCommand v x).w = s.w := rfl
@[simp] theorem State.latchCommand_zm (v : Word) (x : Ctl) (s : State) : (s.latchCommand v x).zm = s.zm := rfl
@[simp] theorem State.latchCommand_cycleCounter (v : Word) (x : Ctl) (s : State) : (s.latchCommand v x).cycleCounter = s.cycleCounter := rfl
@[simp] theorem State.latchCommand_out (v : Word) (x : Ctl) (s : State) : (s.latchCommand v x).out = s.out := rfl
@[simp] theorem State.latchCommand_cb (v : Word) (x : Ctl) (s : State) : (s.latchCommand v x).cb = s.cb := rfl
@[simp] theorem State.latchCommand_mem (v : Word) (x : Ctl) (s : State) : (s.latchCommand v x).mem = s.mem := rfl
@[simp] theorem State.latchCommand_notifyPending (v : Word) (x : Ctl) (s : State) : (s.latchCommand v x).notifyPending = s.notifyPending := rfl
@[simp] theorem State.latchCommand_trace (v : Word) (x : Ctl) (s : State) : (s.latchCommand v x).trace = s.trace ++ [.cbr .cmd v] := rfl
@[simp] theorem State.latchCommand_moves (v : Word) (x : Ctl) (s : State) : (s.latchCommand v x).moves = s.moves := rfl
@[simp] theorem State.latchCommand_draws (v : Word) (x : Ctl) (s : State) : (s.latchCommand v x).draws = s.draws := rfl

/-! #### `State.encodeMasks` -/
@[simp] theorem State.encodeMasks_config (s : State) : (s.encodeMasks).config = s.config := rfl
@[simp] theorem State.encodeMasks_ctl (s : State) : (s.encodeMasks).ctl = s.ctl := rfl
@[simp] theorem State.encodeMasks_cmd (s : State) : (s.encodeMasks).cmd = s.cmd := rfl
@[simp] theorem State.encodeMasks_addr (s : State) : (s.encodeMasks).addr = s.addr := rfl
@[simp] theorem State.encodeMasks_rows (s : State) : (s.encodeMasks).rows = s.rows := rfl
@[simp] theorem State.encodeMasks_n (s : State) : (s.encodeMasks).n = s.n := rfl
@[simp] theorem State.encodeMasks_ptr (s : State) : (s.encodeMasks).ptr = s.ptr := rfl
@[simp] theorem State.encodeMasks_phase (s : State) : (s.encodeMasks).phase = s.phase := rfl
@[simp] theorem State.encodeMasks_c (s : State) : (s.encodeMasks).c = s.c := rfl
@[simp] theorem State.encodeMasks_b (s : State) : (s.encodeMasks).b = s.b := rfl
@[simp] theorem State.encodeMasks_i (s : State) : (s.encodeMasks).i = s.i := rfl
@[simp] theorem State.encodeMasks_k (s : State) : (s.encodeMasks).k = s.k := rfl
@[simp] theorem State.encodeMasks_cyc (s : State) : (s.encodeMasks).cyc = s.cyc := rfl
@[simp] theorem State.encodeMasks_w (s : State) : (s.encodeMasks).w = s.w := rfl
@[simp] theorem State.encodeMasks_zm (s : State) : (s.encodeMasks).zm = Vector.ofFn (zeroMask s.config s.w s.b) := rfl
@[simp] theorem State.encodeMasks_cycleCounter (s : State) : (s.encodeMasks).cycleCounter = s.cycleCounter := rfl
@[simp] theorem State.encodeMasks_out (s : State) : (s.encodeMasks).out = s.out := rfl
@[simp] theorem State.encodeMasks_cb (s : State) : (s.encodeMasks).cb = s.cb := rfl
@[simp] theorem State.encodeMasks_mem (s : State) : (s.encodeMasks).mem = s.mem := rfl
@[simp] theorem State.encodeMasks_notifyPending (s : State) : (s.encodeMasks).notifyPending = s.notifyPending := rfl
@[simp] theorem State.encodeMasks_trace (s : State) : (s.encodeMasks).trace = s.trace := rfl
@[simp] theorem State.encodeMasks_moves (s : State) : (s.encodeMasks).moves = s.moves := rfl
@[simp] theorem State.encodeMasks_draws (s : State) : (s.encodeMasks).draws = s.draws := rfl

/-! #### `State.loadChannel` -/
@[simp] theorem State.loadChannel_config (s : State) : (s.loadChannel).config = s.config := rfl
@[simp] theorem State.loadChannel_ctl (s : State) : (s.loadChannel).ctl = s.ctl := rfl
@[simp] theorem State.loadChannel_cmd (s : State) : (s.loadChannel).cmd = s.cmd := rfl
@[simp] theorem State.loadChannel_addr (s : State) : (s.loadChannel).addr = s.addr := rfl
@[simp] theorem State.loadChannel_rows (s : State) : (s.loadChannel).rows = s.rows := rfl
@[simp] theorem State.loadChannel_n (s : State) : (s.loadChannel).n = s.n := rfl
@[simp] theorem State.loadChannel_ptr (s : State) : (s.loadChannel).ptr = s.ptr := rfl
@[simp] theorem State.loadChannel_phase (s : State) : (s.loadChannel).phase = s.phase := rfl
@[simp] theorem State.loadChannel_c (s : State) : (s.loadChannel).c = s.c := rfl
@[simp] theorem State.loadChannel_b (s : State) : (s.loadChannel).b = s.b := rfl
@[simp] theorem State.loadChannel_i (s : State) : (s.loadChannel).i = s.i := rfl
@[simp] theorem State.loadChannel_k (s : State) : (s.loadChannel).k = s.k := rfl
@[simp] theorem State.loadChannel_cyc (s : State) : (s.loadChannel).cyc = s.cyc := rfl
@[simp] theorem State.loadChannel_w (s : State) : (s.loadChannel).w = s.w.set s.c (s.mem.readWord s.loadAddress) := rfl
@[simp] theorem State.loadChannel_zm (s : State) : (s.loadChannel).zm = s.zm := rfl
@[simp] theorem State.loadChannel_cycleCounter (s : State) : (s.loadChannel).cycleCounter = s.cycleCounter := rfl
@[simp] theorem State.loadChannel_out (s : State) : (s.loadChannel).out = s.out := rfl
@[simp] theorem State.loadChannel_cb (s : State) : (s.loadChannel).cb = s.cb := rfl
@[simp] theorem State.loadChannel_mem (s : State) : (s.loadChannel).mem = s.mem := rfl
@[simp] theorem State.loadChannel_notifyPending (s : State) : (s.loadChannel).notifyPending = s.notifyPending := rfl
@[simp] theorem State.loadChannel_trace (s : State) : (s.loadChannel).trace = s.trace ++ [.pxr s.loadAddress (s.mem.readWord s.loadAddress)] := rfl
@[simp] theorem State.loadChannel_moves (s : State) : (s.loadChannel).moves = s.moves := rfl
@[simp] theorem State.loadChannel_draws (s : State) : (s.loadChannel).draws = s.draws := rfl

/-! #### `State.acceptAddr` -/
@[simp] theorem State.acceptAddr_config (s : State) : (s.acceptAddr).config = s.config := rfl
@[simp] theorem State.acceptAddr_ctl (s : State) : (s.acceptAddr).ctl = .accRows := rfl
@[simp] theorem State.acceptAddr_cmd (s : State) : (s.acceptAddr).cmd = s.cmd := rfl
@[simp] theorem State.acceptAddr_addr (s : State) : (s.acceptAddr).addr = s.field .addr := rfl
@[simp] theorem State.acceptAddr_rows (s : State) : (s.acceptAddr).rows = s.rows := rfl
@[simp] theorem State.acceptAddr_n (s : State) : (s.acceptAddr).n = s.n := rfl
@[simp] theorem State.acceptAddr_ptr (s : State) : (s.acceptAddr).ptr = s.ptr := rfl
@[simp] theorem State.acceptAddr_phase (s : State) : (s.acceptAddr).phase = s.phase := rfl
@[simp] theorem State.acceptAddr_c (s : State) : (s.acceptAddr).c = s.c := rfl
@[simp] theorem State.acceptAddr_b (s : State) : (s.acceptAddr).b = s.b := rfl
@[simp] theorem State.acceptAddr_i (s : State) : (s.acceptAddr).i = s.i := rfl
@[simp] theorem State.acceptAddr_k (s : State) : (s.acceptAddr).k = s.k := rfl
@[simp] theorem State.acceptAddr_cyc (s : State) : (s.acceptAddr).cyc = s.cyc := rfl
@[simp] theorem State.acceptAddr_w (s : State) : (s.acceptAddr).w = s.w := rfl
@[simp] theorem State.acceptAddr_zm (s : State) : (s.acceptAddr).zm = s.zm := rfl
@[simp] theorem State.acceptAddr_cycleCounter (s : State) : (s.acceptAddr).cycleCounter = s.cycleCounter := rfl
@[simp] theorem State.acceptAddr_out (s : State) : (s.acceptAddr).out = s.out := rfl
@[simp] theorem State.acceptAddr_cb (s : State) : (s.acceptAddr).cb = s.cb := rfl
@[simp] theorem State.acceptAddr_mem (s : State) : (s.acceptAddr).mem = s.mem := rfl
@[simp] theorem State.acceptAddr_notifyPending (s : State) : (s.acceptAddr).notifyPending = s.notifyPending := rfl
@[simp] theorem State.acceptAddr_trace (s : State) : (s.acceptAddr).trace = s.trace ++ [.cbr .addr (s.field .addr)] := rfl
@[simp] theorem State.acceptAddr_moves (s : State) : (s.acceptAddr).moves = s.moves := rfl
@[simp] theorem State.acceptAddr_draws (s : State) : (s.acceptAddr).draws = s.draws := rfl

/-! #### `State.acceptRows` -/
@[simp] theorem State.acceptRows_config (s : State) : (s.acceptRows).config = s.config := rfl
@[simp] theorem State.acceptRows_ctl (s : State) : (s.acceptRows).ctl = .accResp := rfl
@[simp] theorem State.acceptRows_cmd (s : State) : (s.acceptRows).cmd = s.cmd := rfl
@[simp] theorem State.acceptRows_addr (s : State) : (s.acceptRows).addr = s.addr := rfl
@[simp] theorem State.acceptRows_rows (s : State) : (s.acceptRows).rows = s.field .rows := rfl
@[simp] theorem State.acceptRows_n (s : State) : (s.acceptRows).n = s.n := rfl
@[simp] theorem State.acceptRows_ptr (s : State) : (s.acceptRows).ptr = s.ptr := rfl
@[simp] theorem State.acceptRows_phase (s : State) : (s.acceptRows).phase = s.phase := rfl
@[simp] theorem State.acceptRows_c (s : State) : (s.acceptRows).c = s.c := rfl
@[simp] theorem State.acceptRows_b (s : State) : (s.acceptRows).b = s.b := rfl
@[simp] theorem State.acceptRows_i (s : State) : (s.acceptRows).i = s.i := rfl
@[simp] theorem State.acceptRows_k (s : State) : (s.acceptRows).k = s.k := rfl
@[simp] theorem State.acceptRows_cyc (s : State) : (s.acceptRows).cyc = s.cyc := rfl
@[simp] theorem State.acceptRows_w (s : State) : (s.acceptRows).w = s.w := rfl
@[simp] theorem State.acceptRows_zm (s : State) : (s.acceptRows).zm = s.zm := rfl
@[simp] theorem State.acceptRows_cycleCounter (s : State) : (s.acceptRows).cycleCounter = s.cycleCounter := rfl
@[simp] theorem State.acceptRows_out (s : State) : (s.acceptRows).out = s.out := rfl
@[simp] theorem State.acceptRows_cb (s : State) : (s.acceptRows).cb = s.cb := rfl
@[simp] theorem State.acceptRows_mem (s : State) : (s.acceptRows).mem = s.mem := rfl
@[simp] theorem State.acceptRows_notifyPending (s : State) : (s.acceptRows).notifyPending = s.notifyPending := rfl
@[simp] theorem State.acceptRows_trace (s : State) : (s.acceptRows).trace = s.trace ++ [.cbr .rows (s.field .rows)] := rfl
@[simp] theorem State.acceptRows_moves (s : State) : (s.acceptRows).moves = s.moves := rfl
@[simp] theorem State.acceptRows_draws (s : State) : (s.acceptRows).draws = s.draws := rfl

/-! #### `State.reportAck` -/
@[simp] theorem State.reportAck_config (s : State) : (s.reportAck).config = s.config := rfl
@[simp] theorem State.reportAck_ctl (s : State) : (s.reportAck).ctl = if reportsCount s.config (Config.drawCycles s.draws) then .reportCyc else .awaitEntry := rfl
@[simp] theorem State.reportAck_cmd (s : State) : (s.reportAck).cmd = s.cmd := rfl
@[simp] theorem State.reportAck_addr (s : State) : (s.reportAck).addr = s.addr := rfl
@[simp] theorem State.reportAck_rows (s : State) : (s.reportAck).rows = s.rows := rfl
@[simp] theorem State.reportAck_n (s : State) : (s.reportAck).n = s.n := rfl
@[simp] theorem State.reportAck_ptr (s : State) : (s.reportAck).ptr = s.ptr := rfl
@[simp] theorem State.reportAck_phase (s : State) : (s.reportAck).phase = s.phase := rfl
@[simp] theorem State.reportAck_c (s : State) : (s.reportAck).c = s.c := rfl
@[simp] theorem State.reportAck_b (s : State) : (s.reportAck).b = s.b := rfl
@[simp] theorem State.reportAck_i (s : State) : (s.reportAck).i = s.i := rfl
@[simp] theorem State.reportAck_k (s : State) : (s.reportAck).k = s.k := rfl
@[simp] theorem State.reportAck_cyc (s : State) : (s.reportAck).cyc = Config.drawCycles s.draws := rfl
@[simp] theorem State.reportAck_w (s : State) : (s.reportAck).w = s.w := rfl
@[simp] theorem State.reportAck_zm (s : State) : (s.reportAck).zm = s.zm := rfl
@[simp] theorem State.reportAck_cycleCounter (s : State) : (s.reportAck).cycleCounter = s.cycleCounter := rfl
@[simp] theorem State.reportAck_out (s : State) : (s.reportAck).out = s.out := rfl
@[simp] theorem State.reportAck_cb (s : State) : (s.reportAck).cb = cbPut s.cb .resp 0x00000001 := rfl
@[simp] theorem State.reportAck_mem (s : State) : (s.reportAck).mem = s.mem := rfl
@[simp] theorem State.reportAck_notifyPending (s : State) : (s.reportAck).notifyPending = s.notifyPending := rfl
@[simp] theorem State.reportAck_trace (s : State) : (s.reportAck).trace = s.trace ++ [.cbw .resp 0x00000001] := rfl
@[simp] theorem State.reportAck_moves (s : State) : (s.reportAck).moves = s.moves := rfl
@[simp] theorem State.reportAck_draws (s : State) : (s.reportAck).draws = s.draws + 1 := rfl

/-! ### Position operations: the fields they leave alone, and what they do to the others -/

/-! #### `State.nextRow` -/
@[simp] theorem State.nextRow_config (s : State) : (s.nextRow).config = s.config := by unfold State.nextRow; split <;> rfl
@[simp] theorem State.nextRow_ctl (s : State) : (s.nextRow).ctl = if s.n = 0 then .latchDelay else s.ctl := by unfold State.nextRow; split <;> rfl
@[simp] theorem State.nextRow_cmd (s : State) : (s.nextRow).cmd = s.cmd := by unfold State.nextRow; split <;> rfl
@[simp] theorem State.nextRow_addr (s : State) : (s.nextRow).addr = s.addr := by unfold State.nextRow; split <;> rfl
@[simp] theorem State.nextRow_rows (s : State) : (s.nextRow).rows = s.rows := by unfold State.nextRow; split <;> rfl
@[simp] theorem State.nextRow_n (s : State) : (s.nextRow).n = s.n := by unfold State.nextRow; split <;> rfl
@[simp] theorem State.nextRow_ptr (s : State) : (s.nextRow).ptr = s.ptr := by unfold State.nextRow; split <;> rfl
@[simp] theorem State.nextRow_phase (s : State) : (s.nextRow).phase = if s.n = 0 then s.phase else .load := by unfold State.nextRow; split <;> rfl
@[simp] theorem State.nextRow_c (s : State) : (s.nextRow).c = if s.n = 0 then s.c else 0 := by unfold State.nextRow; split <;> rfl
@[simp] theorem State.nextRow_b (s : State) : (s.nextRow).b = s.b := by unfold State.nextRow; split <;> rfl
@[simp] theorem State.nextRow_i (s : State) : (s.nextRow).i = s.i := by unfold State.nextRow; split <;> rfl
@[simp] theorem State.nextRow_k (s : State) : (s.nextRow).k = s.k := by unfold State.nextRow; split <;> rfl
@[simp] theorem State.nextRow_cyc (s : State) : (s.nextRow).cyc = s.cyc := by unfold State.nextRow; split <;> rfl
@[simp] theorem State.nextRow_w (s : State) : (s.nextRow).w = s.w := by unfold State.nextRow; split <;> rfl
@[simp] theorem State.nextRow_zm (s : State) : (s.nextRow).zm = s.zm := by unfold State.nextRow; split <;> rfl
@[simp] theorem State.nextRow_cycleCounter (s : State) : (s.nextRow).cycleCounter = s.cycleCounter := by unfold State.nextRow; split <;> rfl
@[simp] theorem State.nextRow_out (s : State) : (s.nextRow).out = s.out := by unfold State.nextRow; split <;> rfl
@[simp] theorem State.nextRow_cb (s : State) : (s.nextRow).cb = s.cb := by unfold State.nextRow; split <;> rfl
@[simp] theorem State.nextRow_mem (s : State) : (s.nextRow).mem = s.mem := by unfold State.nextRow; split <;> rfl
@[simp] theorem State.nextRow_notifyPending (s : State) : (s.nextRow).notifyPending = s.notifyPending := by unfold State.nextRow; split <;> rfl
@[simp] theorem State.nextRow_trace (s : State) : (s.nextRow).trace = s.trace := by unfold State.nextRow; split <;> rfl
@[simp] theorem State.nextRow_moves (s : State) : (s.nextRow).moves = s.moves := by unfold State.nextRow; split <;> rfl
@[simp] theorem State.nextRow_draws (s : State) : (s.nextRow).draws = s.draws := by unfold State.nextRow; split <;> rfl

/-! #### `State.enterTransmit` -/
@[simp] theorem State.enterTransmit_config (s : State) : (s.enterTransmit).config = s.config := by simp [State.enterTransmit]
@[simp] theorem State.enterTransmit_ctl (s : State) : (s.enterTransmit).ctl = if s.rows = 0 then .latchDelay else .transmit := by simp [State.enterTransmit]
@[simp] theorem State.enterTransmit_cmd (s : State) : (s.enterTransmit).cmd = s.cmd := by simp [State.enterTransmit]
@[simp] theorem State.enterTransmit_addr (s : State) : (s.enterTransmit).addr = s.addr := by simp [State.enterTransmit]
@[simp] theorem State.enterTransmit_rows (s : State) : (s.enterTransmit).rows = s.rows := by simp [State.enterTransmit]
@[simp] theorem State.enterTransmit_n (s : State) : (s.enterTransmit).n = s.rows := by simp [State.enterTransmit]
@[simp] theorem State.enterTransmit_ptr (s : State) : (s.enterTransmit).ptr = s.addr := by simp [State.enterTransmit]
@[simp] theorem State.enterTransmit_phase (s : State) : (s.enterTransmit).phase = if s.rows = 0 then s.phase else .load := by simp [State.enterTransmit]
@[simp] theorem State.enterTransmit_c (s : State) : (s.enterTransmit).c = if s.rows = 0 then s.c else 0 := by simp [State.enterTransmit]
@[simp] theorem State.enterTransmit_b (s : State) : (s.enterTransmit).b = s.b := by simp [State.enterTransmit]
@[simp] theorem State.enterTransmit_i (s : State) : (s.enterTransmit).i = s.i := by simp [State.enterTransmit]
@[simp] theorem State.enterTransmit_k (s : State) : (s.enterTransmit).k = s.k := by simp [State.enterTransmit]
@[simp] theorem State.enterTransmit_cyc (s : State) : (s.enterTransmit).cyc = s.cyc := by simp [State.enterTransmit]
@[simp] theorem State.enterTransmit_w (s : State) : (s.enterTransmit).w = s.w := by simp [State.enterTransmit]
@[simp] theorem State.enterTransmit_zm (s : State) : (s.enterTransmit).zm = s.zm := by simp [State.enterTransmit]
@[simp] theorem State.enterTransmit_cycleCounter (s : State) : (s.enterTransmit).cycleCounter = 0 := by simp [State.enterTransmit]
@[simp] theorem State.enterTransmit_out (s : State) : (s.enterTransmit).out = s.out := by simp [State.enterTransmit]
@[simp] theorem State.enterTransmit_cb (s : State) : (s.enterTransmit).cb = s.cb := by simp [State.enterTransmit]
@[simp] theorem State.enterTransmit_mem (s : State) : (s.enterTransmit).mem = s.mem := by simp [State.enterTransmit]
@[simp] theorem State.enterTransmit_notifyPending (s : State) : (s.enterTransmit).notifyPending = s.notifyPending := by simp [State.enterTransmit]
@[simp] theorem State.enterTransmit_trace (s : State) : (s.enterTransmit).trace = s.trace := by simp [State.enterTransmit]
@[simp] theorem State.enterTransmit_moves (s : State) : (s.enterTransmit).moves = s.moves := by simp [State.enterTransmit]
@[simp] theorem State.enterTransmit_draws (s : State) : (s.enterTransmit).draws = s.draws := by simp [State.enterTransmit]

/-! #### `State.stepRow` -/
@[simp] theorem State.stepRow_config (s : State) : (s.stepRow).config = s.config := by simp only [State.stepRow, State.nextRow_config]
@[simp] theorem State.stepRow_ctl (s : State) : (s.stepRow).ctl = if s.n - 1 = 0 then .latchDelay else s.ctl := by simp only [State.stepRow, State.nextRow_ctl]
@[simp] theorem State.stepRow_cmd (s : State) : (s.stepRow).cmd = s.cmd := by simp only [State.stepRow, State.nextRow_cmd]
@[simp] theorem State.stepRow_addr (s : State) : (s.stepRow).addr = s.addr := by simp only [State.stepRow, State.nextRow_addr]
@[simp] theorem State.stepRow_rows (s : State) : (s.stepRow).rows = s.rows := by simp only [State.stepRow, State.nextRow_rows]
@[simp] theorem State.stepRow_n (s : State) : (s.stepRow).n = s.n - 1 := by simp only [State.stepRow, State.nextRow_n]
@[simp] theorem State.stepRow_ptr (s : State) : (s.stepRow).ptr = s.ptr + rowStride := by simp only [State.stepRow, State.nextRow_ptr]
@[simp] theorem State.stepRow_phase (s : State) : (s.stepRow).phase = if s.n - 1 = 0 then s.phase else .load := by simp only [State.stepRow, State.nextRow_phase]
@[simp] theorem State.stepRow_c (s : State) : (s.stepRow).c = if s.n - 1 = 0 then s.c else 0 := by simp only [State.stepRow, State.nextRow_c]
@[simp] theorem State.stepRow_b (s : State) : (s.stepRow).b = s.b := by simp only [State.stepRow, State.nextRow_b]
@[simp] theorem State.stepRow_i (s : State) : (s.stepRow).i = s.i := by simp only [State.stepRow, State.nextRow_i]
@[simp] theorem State.stepRow_k (s : State) : (s.stepRow).k = s.k := by simp only [State.stepRow, State.nextRow_k]
@[simp] theorem State.stepRow_cyc (s : State) : (s.stepRow).cyc = s.cyc := by simp only [State.stepRow, State.nextRow_cyc]
@[simp] theorem State.stepRow_w (s : State) : (s.stepRow).w = s.w := by simp only [State.stepRow, State.nextRow_w]
@[simp] theorem State.stepRow_zm (s : State) : (s.stepRow).zm = s.zm := by simp only [State.stepRow, State.nextRow_zm]
@[simp] theorem State.stepRow_cycleCounter (s : State) : (s.stepRow).cycleCounter = s.cycleCounter := by simp only [State.stepRow, State.nextRow_cycleCounter]
@[simp] theorem State.stepRow_out (s : State) : (s.stepRow).out = s.out := by simp only [State.stepRow, State.nextRow_out]
@[simp] theorem State.stepRow_cb (s : State) : (s.stepRow).cb = s.cb := by simp only [State.stepRow, State.nextRow_cb]
@[simp] theorem State.stepRow_mem (s : State) : (s.stepRow).mem = s.mem := by simp only [State.stepRow, State.nextRow_mem]
@[simp] theorem State.stepRow_notifyPending (s : State) : (s.stepRow).notifyPending = s.notifyPending := by simp only [State.stepRow, State.nextRow_notifyPending]
@[simp] theorem State.stepRow_trace (s : State) : (s.stepRow).trace = s.trace := by simp only [State.stepRow, State.nextRow_trace]
@[simp] theorem State.stepRow_moves (s : State) : (s.stepRow).moves = s.moves := by simp only [State.stepRow, State.nextRow_moves]
@[simp] theorem State.stepRow_draws (s : State) : (s.stepRow).draws = s.draws := by simp only [State.stepRow, State.nextRow_draws]

/-! #### `State.nextChannel` -/
@[simp] theorem State.nextChannel_config (s : State) : (s.nextChannel).config = s.config := by unfold State.nextChannel; (repeat' split) <;> rfl
@[simp] theorem State.nextChannel_ctl (s : State) : (s.nextChannel).ctl = s.ctl := by unfold State.nextChannel; (repeat' split) <;> rfl
@[simp] theorem State.nextChannel_cmd (s : State) : (s.nextChannel).cmd = s.cmd := by unfold State.nextChannel; (repeat' split) <;> rfl
@[simp] theorem State.nextChannel_addr (s : State) : (s.nextChannel).addr = s.addr := by unfold State.nextChannel; (repeat' split) <;> rfl
@[simp] theorem State.nextChannel_rows (s : State) : (s.nextChannel).rows = s.rows := by unfold State.nextChannel; (repeat' split) <;> rfl
@[simp] theorem State.nextChannel_n (s : State) : (s.nextChannel).n = s.n := by unfold State.nextChannel; (repeat' split) <;> rfl
@[simp] theorem State.nextChannel_ptr (s : State) : (s.nextChannel).ptr = s.ptr := by unfold State.nextChannel; (repeat' split) <;> rfl
@[simp] theorem State.nextChannel_cyc (s : State) : (s.nextChannel).cyc = s.cyc := by unfold State.nextChannel; (repeat' split) <;> rfl
@[simp] theorem State.nextChannel_w (s : State) : (s.nextChannel).w = s.w := by unfold State.nextChannel; (repeat' split) <;> rfl
@[simp] theorem State.nextChannel_zm (s : State) : (s.nextChannel).zm = s.zm := by unfold State.nextChannel; (repeat' split) <;> rfl
@[simp] theorem State.nextChannel_cycleCounter (s : State) : (s.nextChannel).cycleCounter = s.cycleCounter := by unfold State.nextChannel; (repeat' split) <;> rfl
@[simp] theorem State.nextChannel_out (s : State) : (s.nextChannel).out = s.out := by unfold State.nextChannel; (repeat' split) <;> rfl
@[simp] theorem State.nextChannel_cb (s : State) : (s.nextChannel).cb = s.cb := by unfold State.nextChannel; (repeat' split) <;> rfl
@[simp] theorem State.nextChannel_mem (s : State) : (s.nextChannel).mem = s.mem := by unfold State.nextChannel; (repeat' split) <;> rfl
@[simp] theorem State.nextChannel_notifyPending (s : State) : (s.nextChannel).notifyPending = s.notifyPending := by unfold State.nextChannel; (repeat' split) <;> rfl
@[simp] theorem State.nextChannel_trace (s : State) : (s.nextChannel).trace = s.trace := by unfold State.nextChannel; (repeat' split) <;> rfl
@[simp] theorem State.nextChannel_moves (s : State) : (s.nextChannel).moves = s.moves := by unfold State.nextChannel; (repeat' split) <;> rfl
@[simp] theorem State.nextChannel_draws (s : State) : (s.nextChannel).draws = s.draws := by unfold State.nextChannel; (repeat' split) <;> rfl

/-! #### `State.encodeAtCellStart` -/
@[simp] theorem State.encodeAtCellStart_config (s : State) : (s.encodeAtCellStart).config = s.config := by unfold State.encodeAtCellStart; (repeat' split) <;> rfl
@[simp] theorem State.encodeAtCellStart_ctl (s : State) : (s.encodeAtCellStart).ctl = s.ctl := by unfold State.encodeAtCellStart; (repeat' split) <;> rfl
@[simp] theorem State.encodeAtCellStart_cmd (s : State) : (s.encodeAtCellStart).cmd = s.cmd := by unfold State.encodeAtCellStart; (repeat' split) <;> rfl
@[simp] theorem State.encodeAtCellStart_addr (s : State) : (s.encodeAtCellStart).addr = s.addr := by unfold State.encodeAtCellStart; (repeat' split) <;> rfl
@[simp] theorem State.encodeAtCellStart_rows (s : State) : (s.encodeAtCellStart).rows = s.rows := by unfold State.encodeAtCellStart; (repeat' split) <;> rfl
@[simp] theorem State.encodeAtCellStart_n (s : State) : (s.encodeAtCellStart).n = s.n := by unfold State.encodeAtCellStart; (repeat' split) <;> rfl
@[simp] theorem State.encodeAtCellStart_ptr (s : State) : (s.encodeAtCellStart).ptr = s.ptr := by unfold State.encodeAtCellStart; (repeat' split) <;> rfl
@[simp] theorem State.encodeAtCellStart_phase (s : State) : (s.encodeAtCellStart).phase = s.phase := by unfold State.encodeAtCellStart; (repeat' split) <;> rfl
@[simp] theorem State.encodeAtCellStart_c (s : State) : (s.encodeAtCellStart).c = s.c := by unfold State.encodeAtCellStart; (repeat' split) <;> rfl
@[simp] theorem State.encodeAtCellStart_b (s : State) : (s.encodeAtCellStart).b = s.b := by unfold State.encodeAtCellStart; (repeat' split) <;> rfl
@[simp] theorem State.encodeAtCellStart_i (s : State) : (s.encodeAtCellStart).i = s.i := by unfold State.encodeAtCellStart; (repeat' split) <;> rfl
@[simp] theorem State.encodeAtCellStart_k (s : State) : (s.encodeAtCellStart).k = s.k := by unfold State.encodeAtCellStart; (repeat' split) <;> rfl
@[simp] theorem State.encodeAtCellStart_cyc (s : State) : (s.encodeAtCellStart).cyc = s.cyc := by unfold State.encodeAtCellStart; (repeat' split) <;> rfl
@[simp] theorem State.encodeAtCellStart_w (s : State) : (s.encodeAtCellStart).w = s.w := by unfold State.encodeAtCellStart; (repeat' split) <;> rfl
@[simp] theorem State.encodeAtCellStart_cycleCounter (s : State) : (s.encodeAtCellStart).cycleCounter = s.cycleCounter := by unfold State.encodeAtCellStart; (repeat' split) <;> rfl
@[simp] theorem State.encodeAtCellStart_out (s : State) : (s.encodeAtCellStart).out = s.out := by unfold State.encodeAtCellStart; (repeat' split) <;> rfl
@[simp] theorem State.encodeAtCellStart_cb (s : State) : (s.encodeAtCellStart).cb = s.cb := by unfold State.encodeAtCellStart; (repeat' split) <;> rfl
@[simp] theorem State.encodeAtCellStart_mem (s : State) : (s.encodeAtCellStart).mem = s.mem := by unfold State.encodeAtCellStart; (repeat' split) <;> rfl
@[simp] theorem State.encodeAtCellStart_notifyPending (s : State) : (s.encodeAtCellStart).notifyPending = s.notifyPending := by unfold State.encodeAtCellStart; (repeat' split) <;> rfl
@[simp] theorem State.encodeAtCellStart_trace (s : State) : (s.encodeAtCellStart).trace = s.trace := by unfold State.encodeAtCellStart; (repeat' split) <;> rfl
@[simp] theorem State.encodeAtCellStart_moves (s : State) : (s.encodeAtCellStart).moves = s.moves := by unfold State.encodeAtCellStart; (repeat' split) <;> rfl
@[simp] theorem State.encodeAtCellStart_draws (s : State) : (s.encodeAtCellStart).draws = s.draws := by unfold State.encodeAtCellStart; (repeat' split) <;> rfl

/-! #### `State.afterRise` -/
@[simp] theorem State.afterRise_config (s : State) : (s.afterRise).config = s.config := by unfold State.afterRise; (repeat' split) <;> rfl
@[simp] theorem State.afterRise_ctl (s : State) : (s.afterRise).ctl = s.ctl := by unfold State.afterRise; (repeat' split) <;> rfl
@[simp] theorem State.afterRise_cmd (s : State) : (s.afterRise).cmd = s.cmd := by unfold State.afterRise; (repeat' split) <;> rfl
@[simp] theorem State.afterRise_addr (s : State) : (s.afterRise).addr = s.addr := by unfold State.afterRise; (repeat' split) <;> rfl
@[simp] theorem State.afterRise_rows (s : State) : (s.afterRise).rows = s.rows := by unfold State.afterRise; (repeat' split) <;> rfl
@[simp] theorem State.afterRise_n (s : State) : (s.afterRise).n = s.n := by unfold State.afterRise; (repeat' split) <;> rfl
@[simp] theorem State.afterRise_ptr (s : State) : (s.afterRise).ptr = s.ptr := by unfold State.afterRise; (repeat' split) <;> rfl
@[simp] theorem State.afterRise_c (s : State) : (s.afterRise).c = s.c := by unfold State.afterRise; (repeat' split) <;> rfl
@[simp] theorem State.afterRise_b (s : State) : (s.afterRise).b = s.b := by unfold State.afterRise; (repeat' split) <;> rfl
@[simp] theorem State.afterRise_cyc (s : State) : (s.afterRise).cyc = s.cyc := by unfold State.afterRise; (repeat' split) <;> rfl
@[simp] theorem State.afterRise_w (s : State) : (s.afterRise).w = s.w := by unfold State.afterRise; (repeat' split) <;> rfl
@[simp] theorem State.afterRise_zm (s : State) : (s.afterRise).zm = s.zm := by unfold State.afterRise; (repeat' split) <;> rfl
@[simp] theorem State.afterRise_cycleCounter (s : State) : (s.afterRise).cycleCounter = s.cycleCounter := by unfold State.afterRise; (repeat' split) <;> rfl
@[simp] theorem State.afterRise_out (s : State) : (s.afterRise).out = s.out := by unfold State.afterRise; (repeat' split) <;> rfl
@[simp] theorem State.afterRise_cb (s : State) : (s.afterRise).cb = s.cb := by unfold State.afterRise; (repeat' split) <;> rfl
@[simp] theorem State.afterRise_mem (s : State) : (s.afterRise).mem = s.mem := by unfold State.afterRise; (repeat' split) <;> rfl
@[simp] theorem State.afterRise_notifyPending (s : State) : (s.afterRise).notifyPending = s.notifyPending := by unfold State.afterRise; (repeat' split) <;> rfl
@[simp] theorem State.afterRise_trace (s : State) : (s.afterRise).trace = s.trace := by unfold State.afterRise; (repeat' split) <;> rfl
@[simp] theorem State.afterRise_moves (s : State) : (s.afterRise).moves = s.moves := by unfold State.afterRise; (repeat' split) <;> rfl
@[simp] theorem State.afterRise_draws (s : State) : (s.afterRise).draws = s.draws := by unfold State.afterRise; (repeat' split) <;> rfl

/-! #### `State.afterSelFall` -/
@[simp] theorem State.afterSelFall_config (s : State) : (s.afterSelFall).config = s.config := by unfold State.afterSelFall; (repeat' split) <;> rfl
@[simp] theorem State.afterSelFall_ctl (s : State) : (s.afterSelFall).ctl = s.ctl := by unfold State.afterSelFall; (repeat' split) <;> rfl
@[simp] theorem State.afterSelFall_cmd (s : State) : (s.afterSelFall).cmd = s.cmd := by unfold State.afterSelFall; (repeat' split) <;> rfl
@[simp] theorem State.afterSelFall_addr (s : State) : (s.afterSelFall).addr = s.addr := by unfold State.afterSelFall; (repeat' split) <;> rfl
@[simp] theorem State.afterSelFall_rows (s : State) : (s.afterSelFall).rows = s.rows := by unfold State.afterSelFall; (repeat' split) <;> rfl
@[simp] theorem State.afterSelFall_n (s : State) : (s.afterSelFall).n = s.n := by unfold State.afterSelFall; (repeat' split) <;> rfl
@[simp] theorem State.afterSelFall_ptr (s : State) : (s.afterSelFall).ptr = s.ptr := by unfold State.afterSelFall; (repeat' split) <;> rfl
@[simp] theorem State.afterSelFall_c (s : State) : (s.afterSelFall).c = s.c := by unfold State.afterSelFall; (repeat' split) <;> rfl
@[simp] theorem State.afterSelFall_b (s : State) : (s.afterSelFall).b = s.b := by unfold State.afterSelFall; (repeat' split) <;> rfl
@[simp] theorem State.afterSelFall_cyc (s : State) : (s.afterSelFall).cyc = s.cyc := by unfold State.afterSelFall; (repeat' split) <;> rfl
@[simp] theorem State.afterSelFall_w (s : State) : (s.afterSelFall).w = s.w := by unfold State.afterSelFall; (repeat' split) <;> rfl
@[simp] theorem State.afterSelFall_zm (s : State) : (s.afterSelFall).zm = s.zm := by unfold State.afterSelFall; (repeat' split) <;> rfl
@[simp] theorem State.afterSelFall_cycleCounter (s : State) : (s.afterSelFall).cycleCounter = s.cycleCounter := by unfold State.afterSelFall; (repeat' split) <;> rfl
@[simp] theorem State.afterSelFall_out (s : State) : (s.afterSelFall).out = s.out := by unfold State.afterSelFall; (repeat' split) <;> rfl
@[simp] theorem State.afterSelFall_cb (s : State) : (s.afterSelFall).cb = s.cb := by unfold State.afterSelFall; (repeat' split) <;> rfl
@[simp] theorem State.afterSelFall_mem (s : State) : (s.afterSelFall).mem = s.mem := by unfold State.afterSelFall; (repeat' split) <;> rfl
@[simp] theorem State.afterSelFall_notifyPending (s : State) : (s.afterSelFall).notifyPending = s.notifyPending := by unfold State.afterSelFall; (repeat' split) <;> rfl
@[simp] theorem State.afterSelFall_trace (s : State) : (s.afterSelFall).trace = s.trace := by unfold State.afterSelFall; (repeat' split) <;> rfl
@[simp] theorem State.afterSelFall_moves (s : State) : (s.afterSelFall).moves = s.moves := by unfold State.afterSelFall; (repeat' split) <;> rfl
@[simp] theorem State.afterSelFall_draws (s : State) : (s.afterSelFall).draws = s.draws := by unfold State.afterSelFall; (repeat' split) <;> rfl

/-! #### `State.afterCell` -/
@[simp] theorem State.afterCell_config (s : State) : (s.afterCell).config = s.config := by unfold State.afterCell; split <;> simp
@[simp] theorem State.afterCell_cmd (s : State) : (s.afterCell).cmd = s.cmd := by unfold State.afterCell; split <;> simp
@[simp] theorem State.afterCell_addr (s : State) : (s.afterCell).addr = s.addr := by unfold State.afterCell; split <;> simp
@[simp] theorem State.afterCell_rows (s : State) : (s.afterCell).rows = s.rows := by unfold State.afterCell; split <;> simp
@[simp] theorem State.afterCell_cyc (s : State) : (s.afterCell).cyc = s.cyc := by unfold State.afterCell; split <;> simp
@[simp] theorem State.afterCell_w (s : State) : (s.afterCell).w = s.w := by unfold State.afterCell; split <;> simp
@[simp] theorem State.afterCell_zm (s : State) : (s.afterCell).zm = s.zm := by unfold State.afterCell; split <;> simp
@[simp] theorem State.afterCell_cycleCounter (s : State) : (s.afterCell).cycleCounter = s.cycleCounter := by unfold State.afterCell; split <;> simp
@[simp] theorem State.afterCell_out (s : State) : (s.afterCell).out = s.out := by unfold State.afterCell; split <;> simp
@[simp] theorem State.afterCell_cb (s : State) : (s.afterCell).cb = s.cb := by unfold State.afterCell; split <;> simp
@[simp] theorem State.afterCell_mem (s : State) : (s.afterCell).mem = s.mem := by unfold State.afterCell; split <;> simp
@[simp] theorem State.afterCell_notifyPending (s : State) : (s.afterCell).notifyPending = s.notifyPending := by unfold State.afterCell; split <;> simp
@[simp] theorem State.afterCell_trace (s : State) : (s.afterCell).trace = s.trace := by unfold State.afterCell; split <;> simp
@[simp] theorem State.afterCell_moves (s : State) : (s.afterCell).moves = s.moves := by unfold State.afterCell; split <;> simp
@[simp] theorem State.afterCell_draws (s : State) : (s.afterCell).draws = s.draws := by unfold State.afterCell; split <;> simp

/-! #### `State.afterFullFall` -/
@[simp] theorem State.afterFullFall_config (s : State) : (s.afterFullFall).config = s.config := by unfold State.afterFullFall; (repeat' split) <;> simp
@[simp] theorem State.afterFullFall_cmd (s : State) : (s.afterFullFall).cmd = s.cmd := by unfold State.afterFullFall; (repeat' split) <;> simp
@[simp] theorem State.afterFullFall_addr (s : State) : (s.afterFullFall).addr = s.addr := by unfold State.afterFullFall; (repeat' split) <;> simp
@[simp] theorem State.afterFullFall_rows (s : State) : (s.afterFullFall).rows = s.rows := by unfold State.afterFullFall; (repeat' split) <;> simp
@[simp] theorem State.afterFullFall_cyc (s : State) : (s.afterFullFall).cyc = s.cyc := by unfold State.afterFullFall; (repeat' split) <;> simp
@[simp] theorem State.afterFullFall_w (s : State) : (s.afterFullFall).w = s.w := by unfold State.afterFullFall; (repeat' split) <;> simp
@[simp] theorem State.afterFullFall_zm (s : State) : (s.afterFullFall).zm = s.zm := by unfold State.afterFullFall; (repeat' split) <;> simp
@[simp] theorem State.afterFullFall_cycleCounter (s : State) : (s.afterFullFall).cycleCounter = s.cycleCounter := by unfold State.afterFullFall; (repeat' split) <;> simp
@[simp] theorem State.afterFullFall_out (s : State) : (s.afterFullFall).out = s.out := by unfold State.afterFullFall; (repeat' split) <;> simp
@[simp] theorem State.afterFullFall_cb (s : State) : (s.afterFullFall).cb = s.cb := by unfold State.afterFullFall; (repeat' split) <;> simp
@[simp] theorem State.afterFullFall_mem (s : State) : (s.afterFullFall).mem = s.mem := by unfold State.afterFullFall; (repeat' split) <;> simp
@[simp] theorem State.afterFullFall_notifyPending (s : State) : (s.afterFullFall).notifyPending = s.notifyPending := by unfold State.afterFullFall; (repeat' split) <;> simp
@[simp] theorem State.afterFullFall_trace (s : State) : (s.afterFullFall).trace = s.trace := by unfold State.afterFullFall; (repeat' split) <;> simp
@[simp] theorem State.afterFullFall_moves (s : State) : (s.afterFullFall).moves = s.moves := by unfold State.afterFullFall; (repeat' split) <;> simp
@[simp] theorem State.afterFullFall_draws (s : State) : (s.afterFullFall).draws = s.draws := by unfold State.afterFullFall; (repeat' split) <;> simp

/-! ### Reading a control block field through an operation that leaves the control block alone -/

@[simp] theorem State.field_log (e : Event) (s : State) (f : CbField) : (s.log e).field f = s.field f := rfl
@[simp] theorem State.field_goto (x : Ctl) (s : State) (f : CbField) : (s.goto x).field f = s.field f := rfl
@[simp] theorem State.field_cbRead (g : CbField) (s : State) (f : CbField) : (s.cbRead g).field f = s.field f := rfl
@[simp] theorem State.field_drawCycles (s : State) (f : CbField) : s.drawCycles.field f = s.field f := rfl

/-- NextRow with no row left (R140). -/
theorem State.nextRow_of_eq_zero {s : State} (h : s.n = 0) : s.nextRow = { s with ctl := .latchDelay } := if_pos h

/-- NextRow with a row left (R140). -/
theorem State.nextRow_of_ne_zero {s : State} (h : s.n ≠ 0) : s.nextRow = { s with c := 0, phase := .load } := if_neg h

/-- TRANSMIT entry with no rows (R87). -/
theorem State.enterTransmit_of_eq_zero {s : State} (h : s.rows = 0) :
    s.enterTransmit = { s with cycleCounter := 0, n := s.rows, ptr := s.addr, ctl := .latchDelay } := if_pos h

/-- TRANSMIT entry with a row to send (R87). -/
theorem State.enterTransmit_of_ne_zero {s : State} (h : s.rows ≠ 0) :
    s.enterTransmit =
      { s with cycleCounter := 0, n := s.rows, ptr := s.addr, ctl := .transmit, c := 0, phase := .load } := if_neg h

/-- ADVANCE_ROW after the last row (R143). -/
theorem State.stepRow_of_eq_zero {s : State} (h : s.n - 1 = 0) :
    s.stepRow = { s with ptr := s.ptr + rowStride, n := s.n - 1, ctl := .latchDelay } := if_pos h

/-- ADVANCE_ROW with a row left (R143). -/
theorem State.stepRow_of_ne_zero {s : State} (h : s.n - 1 ≠ 0) :
    s.stepRow = { s with ptr := s.ptr + rowStride, n := s.n - 1, c := 0, phase := .load } := if_neg h

/-- The position after a cell's last write and within its sweeps (R124), in closed form. -/
theorem State.afterFullFall_cases (s : State) :
    (s.k.val < 3 ∧ s.afterFullFall = { s with k := s.k + 1 }) ∨
    (s.k = 3 ∧ s.i + 1 < s.config.nLow ∧ s.afterFullFall = { s with k := 0, i := s.i + 1 }) ∨
    (s.k = 3 ∧ s.config.nLow ≤ s.i + 1 ∧ 0 < s.b.val ∧ s.afterFullFall = { s with k := 0, i := 0, b := s.b - 1, phase := .rise }) ∨
    (s.k = 3 ∧ s.config.nLow ≤ s.i + 1 ∧ s.b = 0 ∧ s.afterFullFall = State.stepRow { s with k := 0, i := 0 }) := by
  have hk : s.k.val < 3 ∨ s.k = 3 := by rcases s.k with ⟨k, hk⟩; simp [Fin.ext_iff]; omega
  have hb : 0 < s.b.val ∨ s.b = 0 := by rcases s.b with ⟨b, hb⟩; simp [Fin.ext_iff]; omega
  rcases hk with hk | hk
  · exact .inl ⟨hk, by simp [State.afterFullFall, isLastBank, hk]⟩
  · by_cases hi : s.i + 1 < s.config.nLow
    · have h' : s.i < s.config.nLow - 1 := by omega
      exact .inr (.inl ⟨hk, hi, by simp [State.afterFullFall, isLastBank, isLastRepetition, hk, h']⟩)
    · have h' : ¬ s.i < s.config.nLow - 1 := by omega
      rcases hb with hb | hb
      · exact .inr (.inr (.inl ⟨hk, by omega, hb, by
          simp [State.afterFullFall, State.afterCell, isLastBank, isLastRepetition, isLastBit, hk, h', hb]⟩))
      · exact .inr (.inr (.inr ⟨hk, by omega, hb, by
          simp [State.afterFullFall, State.afterCell, isLastBank, isLastRepetition, isLastBit, hk, h', hb]⟩))

/-- The position after a RISE write (R122), in closed form. -/
theorem State.afterRise_cases (s : State) :
    (s.k.val < 3 ∧ s.afterRise = { s with k := s.k + 1 }) ∨
    (s.k = 3 ∧ s.i + 1 < s.config.nRise ∧ s.afterRise = { s with k := 0, i := s.i + 1 }) ∨
    (s.k = 3 ∧ s.config.nRise ≤ s.i + 1 ∧ s.afterRise = { s with k := 0, i := 0, phase := .mid }) := by
  have hk : s.k.val < 3 ∨ s.k = 3 := by rcases s.k with ⟨k, hk⟩; simp [Fin.ext_iff]; omega
  rcases hk with hk | hk
  · exact .inl ⟨hk, by simp [State.afterRise, isLastBank, hk]⟩
  · by_cases hi : s.i + 1 < s.config.nRise
    · have h' : s.i < s.config.nRise - 1 := by omega
      exact .inr (.inl ⟨hk, hi, by simp [State.afterRise, isLastBank, isLastRepetition, hk, h']⟩)
    · have h' : ¬ s.i < s.config.nRise - 1 := by omega
      exact .inr (.inr ⟨hk, by omega, by simp [State.afterRise, isLastBank, isLastRepetition, hk, h']⟩)

/-- The position after a SEL_FALL write (R123), in closed form. -/
theorem State.afterSelFall_cases (s : State) :
    (s.k.val < 3 ∧ s.afterSelFall = { s with k := s.k + 1 }) ∨
    (s.k = 3 ∧ s.i + 1 < s.config.nMid ∧ s.afterSelFall = { s with k := 0, i := s.i + 1 }) ∨
    (s.k = 3 ∧ s.config.nMid ≤ s.i + 1 ∧ s.afterSelFall = { s with k := 0, i := 0, phase := .low }) := by
  have hk : s.k.val < 3 ∨ s.k = 3 := by rcases s.k with ⟨k, hk⟩; simp [Fin.ext_iff]; omega
  rcases hk with hk | hk
  · exact .inl ⟨hk, by simp [State.afterSelFall, isLastBank, hk]⟩
  · by_cases hi : s.i + 1 < s.config.nMid
    · have h' : s.i < s.config.nMid - 1 := by omega
      exact .inr (.inl ⟨hk, hi, by simp [State.afterSelFall, isLastBank, isLastRepetition, hk, h']⟩)
    · have h' : ¬ s.i < s.config.nMid - 1 := by omega
      exact .inr (.inr ⟨hk, by omega, by simp [State.afterSelFall, isLastBank, isLastRepetition, hk, h']⟩)

/-- The position after a channel read (R141), in closed form. -/
theorem State.nextChannel_cases (s : State) :
    (s.c.val < 23 ∧ s.nextChannel = { s with c := s.c + 1 }) ∨
    (s.c = 23 ∧ s.nextChannel = { s with b := 23, i := 0, k := 0, phase := .rise }) := by
  have hc : s.c.val < 23 ∨ s.c = 23 := by rcases s.c with ⟨c, hc⟩; simp [Fin.ext_iff]; omega
  rcases hc with hc | hc
  · exact .inl ⟨hc, by simp [State.nextChannel, isLastChannel, hc]⟩
  · exact .inr ⟨hc, by simp [State.nextChannel, isLastChannel, hc]⟩

end Sys2Proof.Machine
end

