-- ==== Sys2Proof/Laws/ControlBlock.lean ====
section
/-! SUPPORT. The laws of the control block: a field read after a field write (R34, R44), and a whole block from its fields. -/

namespace Sys2Proof.Machine

/-- Two different fields share no byte. -/
theorem CbField.offset_add_ne {f g : CbField} (h : f ≠ g) (i j : Fin 4) : f.offset + i.val ≠ g.offset + j.val := by
  rcases i with ⟨i, hi⟩
  rcases j with ⟨j, hj⟩
  cases f <;> cases g <;> simp only [CbField.offset] <;> first | exact absurd rfl h | omega

/-- A read of the field written gives the value written. -/
@[simp] theorem cbGet_cbPut_self (cb : ControlBlock) (f : CbField) (v : Word) : cbGet (cbPut cb f v) f = v := by
  simp [cbGet, cbPut]

/-- A write of a field leaves the other fields alone. -/
theorem cbGet_cbPut_of_ne (cb : ControlBlock) {f g : CbField} (v : Word) (h : f ≠ g) :
    cbGet (cbPut cb f v) g = cbGet cb g := by
  cases f <;> cases g <;> first | exact absurd rfl h | simp [cbGet, cbPut, CbField.offset]

/-- What each field reads after a write: the value at the field written, else as before. -/
theorem cbGet_cbPut (cb : ControlBlock) (f g : CbField) (v : Word) :
    cbGet (cbPut cb f v) g = if f = g then v else cbGet cb g := by
  split
  · next h => subst h; exact cbGet_cbPut_self cb f v
  · next h => exact cbGet_cbPut_of_ne cb v h

/-- Byte `j` of a field is the control block's byte at the field's offset plus `j` (R34, R44). -/
theorem byteOfWord_cbGet (cb : ControlBlock) (f : CbField) (j : Fin 4) :
    byteOfWord (cbGet cb f) j.val = cb[f.offset + j.val]'(f.offset_add_lt j) := by
  obtain ⟨h0, h1, h2, h3⟩ := byteOfWord_wordOfBytes (cb[f.offset + 0]'(f.offset_add_lt 0))
    (cb[f.offset + 1]'(f.offset_add_lt 1)) (cb[f.offset + 2]'(f.offset_add_lt 2)) (cb[f.offset + 3]'(f.offset_add_lt 3))
  match j with
  | 0 => exact h0
  | 1 => exact h1
  | 2 => exact h2
  | 3 => exact h3

/-- Every byte after a field write: the value's byte in the field's four, else as before (R34, R44). -/
theorem cbPut_getElem (cb : ControlBlock) (f : CbField) (v : Word) (x : Nat) (hx : x < 16) :
    (cbPut cb f v)[x] = if x / 4 = f.offset / 4 then byteOfWord v (x % 4) else cb[x] := by
  simp only [cbPut, Vector.getElem_set]
  cases f <;> simp only [CbField.offset] <;> interval_cases x <;> simp

@[simp] theorem State.field_cbWrite_self (s : State) (f : CbField) (v : Word) : (s.cbWrite f v).field f = v := by
  simp [State.field]

theorem State.field_cbWrite (s : State) (f g : CbField) (v : Word) :
    (s.cbWrite f v).field g = if f = g then v else s.field g := by
  simp [State.field, cbGet_cbPut]

end Sys2Proof.Machine
end

