-- ==== Sys2Proof/Laws/Encoder.lean ====
section
/-! SUPPORT. The laws of ENCODE's loop (R101), bit by bit. -/

namespace Sys2Proof.Machine

/-- Whether channel `c` puts its pin into the mask of bank `k` as pin `p`, at bit position `b`. -/
def marksPin (cfg : Config) (w : Vector Word 24) (b : Fin 24) (k : Fin 4) (p : Nat) (c : Fin 24) : Bool :=
  decide (cfg.chmap[c].bank = k.val) && decide (cfg.chmap[c].pin = p) && !dataBit w[c] b

/-- One pass of the loop sets the channel's pin, if the channel marks it, and leaves the other bits alone. -/
theorem addZeroBit_getLsbD (cfg : Config) (w : Vector Word 24) (b : Fin 24) (k : Fin 4) (z : Word) (c : Fin 24) (p : Nat)
    (hp : p < 32) : (addZeroBit cfg w b k z c).getLsbD p = (z.getLsbD p || marksPin cfg w b k p c) := by
  unfold addZeroBit marksPin
  generalize cfg.chmap[c] = e
  generalize dataBit w[c] b = d
  by_cases hb : e.bank = k.val
  · cases d
    · by_cases hq : e.pin = p
      · simp [hb, hq, hp]
      · have hne : p - e.pin ≠ 0 ∨ p < e.pin := by omega
        rcases hne with hne | hne <;> simp [hb, hq, hp, hne]
    · simp [hb]
  · simp [hb]

/-- The loop over a list of channels: a bit is set when it was, or when some channel of the list marks it. -/
theorem foldl_addZeroBit_getLsbD (cfg : Config) (w : Vector Word 24) (b : Fin 24) (k : Fin 4) (cs : List (Fin 24)) (z : Word)
    (p : Nat) (hp : p < 32) :
    (cs.foldl (addZeroBit cfg w b k) z).getLsbD p = (z.getLsbD p || cs.any (marksPin cfg w b k p)) := by
  induction cs generalizing z with
  | nil => simp
  | cons c cs ih => rw [List.foldl_cons, ih, addZeroBit_getLsbD cfg w b k z c p hp, List.any_cons, Bool.or_assoc]

end Sys2Proof.Machine
end

