-- ==== Sys2Proof/Laws/Exec.lean ====
section
/-! SUPPORT. One equation per instruction: what exec answers, over the shared operations. Proofs about an instruction cite
its equation and the field lemmas of Laws/State.lean, and unfold no meaning. -/

namespace Sys2Proof.Machine

variable (s : State)

theorem exec_cmdIdle : exec .cmdIdle s = .next (s.latchCommand 0 .awaitPoll) := rfl

theorem exec_cmdExit_of_accCmd (h : s.ctl = .accCmd) : exec .cmdExit s = .next ((s.cbWrite .cmd 0).goto .exitResp) := by
  simp [exec, execCmdExit, h]

theorem exec_cmdExit_of_ne (h : s.ctl ≠ .accCmd) : exec .cmdExit s = .next (s.latchCommand 0xFF .accAddr) := by
  simp [exec, execCmdExit, h]

theorem exec_cmdStart_of_accCmd (v : Word) (h : s.ctl = .accCmd) :
    exec (.cmdStart v) s = .next (s.cbWrite .cmd 0).enterTransmit := by
  simp [exec, execCmdStart, h]

theorem exec_cmdStart_of_ne (v : Word) (h : s.ctl ≠ .accCmd) :
    exec (.cmdStart v) s = .next (s.latchCommand v .accAddr) := by
  simp [exec, execCmdStart, h]

theorem exec_boot : exec .boot s = .next ((s.cbWrite .resp 0).goto .awaitEntry) := rfl

theorem exec_notify : exec .notify s = .next (s.raiseNotify.goto .awaitPoll) := rfl

/-- POLL is the latching of the word it reads, with idle or accept after it. -/
theorem exec_poll : exec .poll s =
    .next (s.latchCommand (s.field .cmd) (if s.field .cmd = 0 then .awaitPoll else .accAddr)) := by
  by_cases h : s.field .cmd = 0 <;>
    simp [exec, execPoll, isIdleWord, State.latchCommand, State.cbRead, State.log, State.goto, h]

theorem exec_accept_addr : exec (.accept .addr) s = .next s.acceptAddr := rfl
theorem exec_accept_rows : exec (.accept .rows) s = .next s.acceptRows := rfl
theorem exec_accept_resp : exec (.accept .resp) s = .next ((s.cbWrite .resp 0).goto .accCmd) := rfl

theorem exec_accept_cmd_exit (h : s.cmd = 0xFF) :
    exec (.accept .cmd) s = .next ((s.cbWrite .cmd 0).goto .exitResp) := by
  simp [exec, execAccept, State.acceptCmd, isExitWord, h]

theorem exec_accept_cmd_start (h : s.cmd ≠ 0xFF) : exec (.accept .cmd) s = .next (s.cbWrite .cmd 0).enterTransmit := by
  have h' : (s.cmd == 255#32) = false := by simpa using h
  simp [exec, execAccept, State.acceptCmd, isExitWord, h']

theorem exec_latch : exec .latch s = .next (s.latchDelay.goto .reportAck) := rfl
theorem exec_report_ack : exec (.report .ack) s = .next s.reportAck := rfl
theorem exec_report_cyc : exec (.report .cyc) s = .next ((s.cbWrite .resp s.cyc).goto .awaitEntry) := rfl
theorem exec_exit_resp : exec (.exit .resp) s = .next ((s.cbWrite .resp 0xFF).goto .exitNotify) := rfl
theorem exec_exit_notify : exec (.exit .notify) s = .next (s.raiseNotify.goto .exitHalt) := rfl
theorem exec_exit_halt : exec (.exit .halt) s = .next (s.haltEvent.goto .halted) := rfl

theorem exec_loadRow_of_admitted (h : admitsRead s.config s.loadAddress = true) :
    exec .loadRow s = .next s.loadChannel.nextChannel := by
  simp [exec, execLoadRow, h]

theorem exec_loadRow_of_not_admitted (h : admitsRead s.config s.loadAddress = false) :
    exec .loadRow s = .fault (.stuckUnadmittedRead s.loadAddress) := by
  simp [exec, execLoadRow, h]

theorem exec_encode : exec .encode s = .next s.encodeMasks := rfl

theorem exec_rise : exec .rise s = .next (s.encodeAtCellStart.gpioSet s.k s.config.pinmask[s.k]).afterRise := rfl

theorem exec_selFall : exec .selFall s = .next (s.gpioClear s.k s.zm[s.k]).afterSelFall := rfl

theorem exec_fullFall : exec .fullFall s = .next (s.gpioClear s.k s.config.pinmask[s.k]).afterFullFall := rfl

theorem exec_advanceRow : exec .advanceRow s = .next s.stepRow := rfl

end Sys2Proof.Machine
end

