-- ==== Sys2Proof/Laws/Memory.lean ====
section
/-! SUPPORT. The laws of the system memory: a read after a write, the canonical form, and that equal contents are equal
lists. -/

namespace Sys2Proof.Machine

theorem Memory.wfFrom_cons {lo a : Nat} {v : Byte} {m : Memory} :
    Memory.wfFrom lo ((a, v) :: m) = true ↔
      lo ≤ a ∧ a < 2 ^ 32 ∧ v ≠ Memory.unlisted ∧ Memory.wfFrom (a + 1) m = true := by
  simp [Memory.wfFrom, and_assoc]

/-- A canonical form from a higher address is one from a lower address. -/
theorem Memory.wfFrom_mono {lo lo' : Nat} {m : Memory} (h : Memory.wfFrom lo m = true) (hle : lo' ≤ lo) :
    Memory.wfFrom lo' m = true := by
  cases m with
  | nil => rfl
  | cons p m =>
    obtain ⟨a, v⟩ := p
    rw [Memory.wfFrom_cons] at h ⊢
    exact ⟨by omega, h.2⟩

/-- An address below every entry reads as unlisted. -/
theorem Memory.readByte_of_lt {lo a : Nat} {m : Memory} (h : Memory.wfFrom lo m = true) (ha : a < lo) :
    m.readByte a = Memory.unlisted := by
  induction m generalizing lo with
  | nil => rfl
  | cons p m ih =>
    obtain ⟨x, v⟩ := p
    rw [Memory.wfFrom_cons] at h
    have hne : a ≠ x := by omega
    simpa [Memory.readByte, hne] using ih h.2.2.2 (by omega)

/-- A write of one byte leaves every other address alone. -/
theorem Memory.readByte_writeByte_of_ne (m : Memory) {a b : Nat} (v : Byte) (h : b ≠ a) :
    (m.writeByte a v).readByte b = m.readByte b := by
  induction m with
  | nil => by_cases hv : v = Memory.unlisted <;> simp [Memory.writeByte, Memory.readByte, hv, h]
  | cons p m ih =>
    obtain ⟨x, w⟩ := p
    by_cases h1 : a < x
    · by_cases hv : v = Memory.unlisted <;> simp [Memory.writeByte, Memory.readByte, h1, hv, h]
    · by_cases h2 : a = x
      · subst h2
        by_cases hv : v = Memory.unlisted <;> simp [Memory.writeByte, Memory.readByte, hv, h]
      · simp [Memory.writeByte, Memory.readByte, h1, h2, ih]

/-- A read at the address written gives the value written. -/
theorem Memory.readByte_writeByte_self {lo : Nat} {m : Memory} (a : Nat) (v : Byte) (h : Memory.wfFrom lo m = true) :
    (m.writeByte a v).readByte a = v := by
  induction m generalizing lo with
  | nil => by_cases hv : v = Memory.unlisted <;> simp [Memory.writeByte, Memory.readByte, hv]
  | cons p m ih =>
    obtain ⟨x, w⟩ := p
    rw [Memory.wfFrom_cons] at h
    by_cases h1 : a < x
    · have hr := Memory.readByte_of_lt h.2.2.2 (show a < x + 1 by omega)
      have hne : a ≠ x := by omega
      by_cases hv : v = Memory.unlisted <;> simp [Memory.writeByte, Memory.readByte, h1, hv, hne, hr]
    · by_cases h2 : a = x
      · subst h2
        have hr := Memory.readByte_of_lt h.2.2.2 (show a < a + 1 by omega)
        by_cases hv : v = Memory.unlisted <;> simp [Memory.writeByte, Memory.readByte, hv, hr]
      · simpa [Memory.writeByte, Memory.readByte, h1, h2] using ih h.2.2.2

theorem Memory.wfFrom_writeByte {lo : Nat} {m : Memory} {a : Nat} {v : Byte} (h : Memory.wfFrom lo m = true)
    (hlo : lo ≤ a) (ha : a < 2 ^ 32) : Memory.wfFrom lo (m.writeByte a v) = true := by
  induction m generalizing lo with
  | nil =>
    by_cases hv : v = Memory.unlisted
    · simp [Memory.writeByte, hv, Memory.wfFrom]
    · simp only [Memory.writeByte, if_neg hv]
      exact Memory.wfFrom_cons.2 ⟨hlo, ha, hv, rfl⟩
  | cons p m ih =>
    obtain ⟨x, w⟩ := p
    have h' := Memory.wfFrom_cons.1 h
    by_cases h1 : a < x
    · by_cases hv : v = Memory.unlisted
      · simpa [Memory.writeByte, h1, hv] using h
      · simp only [Memory.writeByte, if_pos h1, if_neg hv]
        exact Memory.wfFrom_cons.2 ⟨hlo, ha, hv, Memory.wfFrom_cons.2 ⟨by omega, h'.2⟩⟩
    · by_cases h2 : a = x
      · subst h2
        by_cases hv : v = Memory.unlisted
        · simpa [Memory.writeByte, hv] using Memory.wfFrom_mono h'.2.2.2 (by omega)
        · simp only [Memory.writeByte, if_neg h1, if_pos trivial, if_neg hv]
          exact Memory.wfFrom_cons.2 ⟨hlo, ha, hv, h'.2.2.2⟩
      · simp only [Memory.writeByte, if_neg h1, if_neg h2]
        exact Memory.wfFrom_cons.2 ⟨h'.1, h'.2.1, h'.2.2.1, ih h'.2.2.2 (by omega)⟩

/-- A write of one byte keeps the canonical form. -/
theorem Memory.wf_writeByte {m : Memory} {a : Nat} {v : Byte} (h : m.wf = true) (ha : a < 2 ^ 32) :
    (m.writeByte a v).wf = true := Memory.wfFrom_writeByte h (Nat.zero_le a) ha

/-- A write of bytes keeps the canonical form. -/
theorem Memory.wf_writeBytes {m : Memory} (a : Word) (vs : List Byte) (h : m.wf = true) : (m.writeBytes a vs).wf = true := by
  induction vs generalizing m a with
  | nil => exact h
  | cons v vs ih => exact ih (a + 1) (Memory.wf_writeByte h a.isLt)

/-- A write of bytes leaves every address it does not store to alone. -/
theorem Memory.readByte_writeBytes_of_ne (m : Memory) (a : Word) (vs : List Byte) (x : Nat)
    (h : ∀ j < vs.length, x ≠ (a + BitVec.ofNat 32 j).toNat) : (m.writeBytes a vs).readByte x = m.readByte x := by
  induction vs generalizing m a with
  | nil => rfl
  | cons v vs ih =>
    rw [Memory.writeBytes, ih (m.writeByte a.toNat v) (a + 1) fun j hj => ?_]
    · exact Memory.readByte_writeByte_of_ne m v (by simpa using h 0 (by simp))
    · have hj' := h (j + 1) (by simpa using hj)
      rwa [show a + 1 + BitVec.ofNat 32 j = a + BitVec.ofNat 32 (j + 1) by
        rw [BitVec.ofNat_add, BitVec.add_assoc, BitVec.add_comm (BitVec.ofNat 32 j)]; rfl]

/-- After a write of bytes, the address of byte `j` reads as that byte, unless a later byte was written to it too. -/
theorem Memory.readByte_writeBytes {m : Memory} (a : Word) (vs : List Byte) (h : m.wf = true) (j : Nat) (hj : j < vs.length)
    (hl : ∀ j', j < j' → j' < vs.length → a + BitVec.ofNat 32 j' ≠ a + BitVec.ofNat 32 j) :
    (m.writeBytes a vs).readByte (a + BitVec.ofNat 32 j).toNat = vs[j] := by
  induction vs generalizing m a j with
  | nil => exact absurd hj (Nat.not_lt_zero j)
  | cons v vs ih =>
    have shift (i : Nat) : a + BitVec.ofNat 32 (i + 1) = a + 1 + BitVec.ofNat 32 i := by
      rw [BitVec.ofNat_add, BitVec.add_assoc, BitVec.add_comm (BitVec.ofNat 32 i)]; rfl
    cases j with
    | zero =>
      rw [Memory.writeBytes, Memory.readByte_writeBytes_of_ne _ _ _ _ fun i hi => ?_]
      · simpa using Memory.readByte_writeByte_self a.toNat v h
      · have := hl (i + 1) (by omega) (by simpa using hi)
        rw [shift] at this
        exact fun e => this (BitVec.eq_of_toNat_eq e.symm)
    | succ j =>
      rw [shift]
      refine ih (a + 1) (Memory.wf_writeByte h a.isLt) j (by simpa using hj) fun j' h1 h2 => ?_
      have := hl (j' + 1) (by omega) (by simpa using h2)
      rwa [shift, shift] at this

/-- Two memories in canonical form that read alike are the same list. -/
theorem Memory.eq_of_readByte_eq {lo : Nat} {m m' : Memory} (h : Memory.wfFrom lo m = true) (h' : Memory.wfFrom lo m' = true)
    (hr : ∀ a, m.readByte a = m'.readByte a) : m = m' := by
  induction m generalizing lo m' with
  | nil =>
    cases m' with
    | nil => rfl
    | cons p m' =>
      obtain ⟨x, v⟩ := p
      have := hr x
      rw [Memory.wfFrom_cons] at h'
      simp [Memory.readByte] at this
      exact absurd this.symm h'.2.2.1
  | cons p m ih =>
    obtain ⟨x, v⟩ := p
    have g := Memory.wfFrom_cons.1 h
    cases m' with
    | nil =>
      have := hr x
      simp [Memory.readByte] at this
      exact absurd this g.2.2.1
    | cons p' m' =>
      obtain ⟨y, w⟩ := p'
      have g' := Memory.wfFrom_cons.1 h'
      have hxy : x = y := by
        rcases Nat.lt_trichotomy x y with hlt | heq | hgt
        · have hx := hr x
          have hne : x ≠ y := by omega
          simp only [Memory.readByte, if_pos trivial, if_neg hne, Memory.readByte_of_lt g'.2.2.2 (show x < y + 1 by omega)] at hx
          exact absurd hx g.2.2.1
        · exact heq
        · have hy := hr y
          have hne : y ≠ x := by omega
          simp only [Memory.readByte, if_pos trivial, if_neg hne, Memory.readByte_of_lt g.2.2.2 (show y < x + 1 by omega)] at hy
          exact absurd hy.symm g'.2.2.1
      subst hxy
      have hvw : v = w := by simpa [Memory.readByte] using hr x
      subst hvw
      have hm : m = m' := by
        refine ih g.2.2.2 g'.2.2.2 fun a => ?_
        by_cases ha : a = x
        · subst ha
          rw [Memory.readByte_of_lt g.2.2.2 (by omega), Memory.readByte_of_lt g'.2.2.2 (by omega)]
        · simpa [Memory.readByte, ha] using hr a
      rw [hm]

end Sys2Proof.Machine
end

