-- ==== Sys2Proof/Laws/PerInstr.lean ====
section
/-! SUPPORT. Statements about every instruction as syntax, one lemma per constructor.
Family CommandLength: an instruction's encoding is four bytes long, the one length of the format CMD32 (R60). -/

namespace Sys2Proof.Laws.CommandLength

/-- Every encoding of the instruction is four bytes long. -/
def Statement (i : Instr) : Prop := ∀ bytes, encodeBytes i = some bytes → bytes.length = 4

theorem cmdIdle : Statement .cmdIdle := by rintro _ ⟨⟩; rfl
theorem cmdExit : Statement .cmdExit := by rintro _ ⟨⟩; rfl
theorem cmdStart (word : Word) : Statement (.cmdStart word) := by rintro _ ⟨⟩; rfl
theorem boot : Statement .boot := by rintro _ ⟨⟩
theorem notify : Statement .notify := by rintro _ ⟨⟩
theorem poll : Statement .poll := by rintro _ ⟨⟩
theorem accept (part : AcceptPart) : Statement (.accept part) := by rintro _ ⟨⟩
theorem latch : Statement .latch := by rintro _ ⟨⟩
theorem report (part : ReportPart) : Statement (.report part) := by rintro _ ⟨⟩
theorem exit (part : ExitPart) : Statement (.exit part) := by rintro _ ⟨⟩
theorem loadRow : Statement .loadRow := by rintro _ ⟨⟩
theorem encode : Statement .encode := by rintro _ ⟨⟩
theorem rise : Statement .rise := by rintro _ ⟨⟩
theorem selFall : Statement .selFall := by rintro _ ⟨⟩
theorem fullFall : Statement .fullFall := by rintro _ ⟨⟩
theorem advanceRow : Statement .advanceRow := by rintro _ ⟨⟩

end Sys2Proof.Laws.CommandLength
end

