-- ==== Sys2Proof/Laws/Step.lean ====
section
/-! SUPPORT. What one step can do, said once: who acts, what the block runs, what the environment's moves leave. -/

namespace Sys2Proof.Machine

/-- The command fetched is the decoding of CMD's value (R62). -/
@[simp] theorem State.fetchCommand_eq (s : State) : s.fetchCommand = some (decodeWord (s.field .cmd)) := by
  rfl

/-- The block's turn changes nothing but the list of moves. -/
theorem State.turn_block {s s' : State} (h : s.turn = .block s') : s' = { s with moves := s'.moves } := by
  unfold State.turn at h
  repeat' split at h
  all_goals first | (cases h; rfl) | cases h

/-- The block's turn takes at most the `block` entry at the head of the moves. -/
theorem State.turn_block_moves {s s' : State} (h : s.turn = .block s') :
    s'.moves = s.moves ∨ s.moves = .block :: s'.moves := by
  unfold State.turn at h
  split at h <;> try split at h
  all_goals first | (cases h; simp_all) | cases h

/-- With no move to come, the block acts. -/
theorem State.turn_of_moves_nil {s : State} (h : s.moves = []) : s.turn = .block s := by
  simp [State.turn, h]

/-- What the environment's move leaves, one case per kind of move. -/
theorem State.turn_environment {s t : State} (h : s.turn = .environment t) :
    ∃ m rest, s.moves = m :: rest ∧
      ((∃ f v, m = .w32 f v ∧ t = State.producerWrite f v { s with moves := rest }) ∨
       (∃ a xs, m = .wpix a xs ∧ t = State.producerPixels a xs { s with moves := rest }) ∨
       (∃ f c v, m = .wait f c v ∧ s.waitHolds f c v = true ∧ t = { s with moves := rest }) ∨
       (m = .waitn ∧ s.notifyPending ≠ 0 ∧ t = { s with moves := rest, notifyPending := s.notifyPending - 1 }) ∨
       (m = .dropNotification ∧ t = { s with moves := rest, notifyPending := s.notifyPending - 1 }) ∨
       (∃ k v, m = .otherPins k v ∧ t = State.setOtherPins k v { s with moves := rest }) ∨
       (m = .pinsLow ∧ t = State.bringPinsLow { s with moves := rest }) ∨
       (m = .restart ∧ t = State.restart { s with moves := rest })) := by
  unfold State.turn at h
  split at h <;> (try split at h) <;> cases h
  all_goals rename_i hm
  case h_3 => exact ⟨_, _, hm, .inl ⟨_, _, rfl, rfl⟩⟩
  case h_4 => exact ⟨_, _, hm, .inr (.inl ⟨_, _, rfl, rfl⟩)⟩
  case h_7 => exact ⟨_, _, hm, by simp⟩
  case h_8 => exact ⟨_, _, hm, by simp⟩
  case h_9 => exact ⟨_, _, hm, by simp⟩
  case h_10 => exact ⟨_, _, hm, by simp⟩
  all_goals exact ⟨_, _, ‹_›, by simp_all⟩

/-- The inversion of a step: the configuration passed R10, and either the block ran the instruction it selects, or the
environment moved. -/
theorem step_next {s t : State} (h : step s = .next t) :
    failedCheck s.config = none ∧
      ((∃ s' i, s.turn = .block s' ∧ s'.fetch = some i ∧ exec i s' = .next t) ∨ s.turn = .environment t) := by
  unfold step at h
  split at h
  · cases h
  · next hc =>
    refine ⟨hc, ?_⟩
    split at h
    · next s' ht =>
      unfold State.blockStep at h
      split at h
      · next i hi => exact .inl ⟨s', i, ht, hi, h⟩
      · cases h
    · next s' ht => cases h; exact .inr ht

/-- A step in which the block acts. -/
theorem step_of_block {s s' : State} {i : Instr} (hc : failedCheck s.config = none) (ht : s.turn = .block s')
    (hi : s'.fetch = some i) : step s = exec i s' := by
  simp [step, hc, ht, State.blockStep, hi]

/-- A step in which the environment acts. -/
theorem step_of_environment {s t : State} (hc : failedCheck s.config = none) (ht : s.turn = .environment t) :
    step s = .next t := by
  simp [step, hc, ht]

/-- The block's turn in a state that gives it the turn. -/
theorem State.turn_giveTurn (s : State) : s.giveTurn.turn = .block s := by
  unfold State.giveTurn
  split
  · next h => exact State.turn_of_moves_nil h
  · next m rest h =>
    obtain ⟨config, ctl, cmd, addr, rows, n, ptr, phase, c, b, i, k, cyc, w, zm, cc, out, cb, mem, np, trace, moves, draws⟩ := s
    cases h
    rfl

/-- The step from a state with a command word placed runs that command. -/
theorem step_withFetchWord (s : State) (nbits w : Nat) (hc : failedCheck s.config = none) :
    step (s.withFetchWord nbits w) =
      exec (decodeWord (BitVec.ofNat 32 (w % 2 ^ nbits)))
        { s with cb := cbPut s.cb .cmd (BitVec.ofNat 32 (w % 2 ^ nbits)), ctl := .awaitPoll } := by
  have hcfg : (s.withFetchWord nbits w).config = s.config := by
    unfold State.withFetchWord State.giveTurn
    split <;> rfl
  refine step_of_block (by rw [hcfg]; exact hc) (State.turn_giveTurn _) ?_
  simp [State.fetch, State.field]

end Sys2Proof.Machine
end

