-- ==== Sys2Proof/Tests/Slice0.lean ====
section
/-! SUPPORT. The model's own tests. Expected values come from spec/95_test_vectors.md (V and T numbers in the comments), from
the examples inside the rules, or from the rules by hand; each test is one step on a small state. The last part shows, for
every statement with hypotheses, concrete values that meet them. -/

namespace Sys2Proof.Machine

/-- The next state of a result, if it is one. -/
def nextOf : Result → Option State
  | .next t => some t
  | .fault _ => none
  | .refused _ => none

/-- The fault of a result, if it is one. -/
def faultOf : Result → Option Fault
  | .next _ => none
  | .fault f => some f
  | .refused _ => none

/-- The refusal of a result, if it is one. -/
def refusalOf : Result → Option Refusal
  | .next _ => none
  | .fault _ => none
  | .refused r => some r

/-- Byte `j` of a word, least significant first, cut out without the model's helpers. -/
def byteAt (v : Word) (j : Nat) : Byte := v.extractLsb' (8 * j) 8

/-- A control block with the given ADDR, ROWS, CMD, RESP: R34's offsets and R61's byte order, written out. -/
def cbOf (addr rows cmd resp : Word) : ControlBlock :=
  #v[byteAt addr 0, byteAt addr 1, byteAt addr 2, byteAt addr 3, byteAt rows 0, byteAt rows 1, byteAt rows 2, byteAt rows 3,
     byteAt cmd 0, byteAt cmd 1, byteAt cmd 2, byteAt cmd 3, byteAt resp 0, byteAt resp 1, byteAt resp 2, byteAt resp 3]

/-- A state at a control state with a control block. -/
def at' (ctl : Ctl) (cb : ControlBlock) : State := { State.reset with ctl := ctl, cb := cb }

/-- Channel 0 = 80 00 00 00, every other record 0 (T6, V22): W[0] = 0x00000080. -/
def rowT6 : Vector Word 24 := (Vector.replicate 24 0).set 0 0x00000080

/-- The start of the b = 23 cell of T6, with a pin of another agent high (V30). -/
def cellStart : State :=
  { State.reset with
    ctl := .transmit, phase := .rise, b := 23, n := 1, w := rowT6, out := #v[0x80000000, 0, 0, 0] }

/-! ### Ill-formed terms are refused -/

theorem smoke_start_word_idle : (Instr.cmdStart 0x00000000).wellFormed = false := by decide
theorem smoke_start_word_exit : (Instr.cmdStart 0x000000FF).wellFormed = false := by decide
theorem smoke_start_word_good : (Instr.cmdStart 0x000001FF).wellFormed = true := by decide

/-- WF1: a bank number of 4. -/
theorem smoke_wf1 : failedCheck { refConfig with chmap := refConfig.chmap.set 20 { bank := 4, pin := 0 } } = some .wf1 := by
  decide

/-- WF2: channel 0 in bank 1. -/
theorem smoke_wf2 : failedCheck { refConfig with chmap := refConfig.chmap.set 0 { bank := 1, pin := 30 } } = some .wf2 := by
  decide

/-- WF3: channels 0 and 1 on one pin. -/
theorem smoke_wf3 : failedCheck { refConfig with chmap := refConfig.chmap.set 1 { bank := 0, pin := 0 } } = some .wf3 := by
  decide

/-- V29: a controlled pin with no channel. -/
def configV29 : Config := { refConfig with pinmask := #v[0xFF, 0xFF, 0x1F, 0x0F] }

/-- V29: WF4 fails, and the step refuses the configuration by that name. -/
theorem smoke_wf4 : refusalOf (step { State.reset with config := configV29 }) = some (.config .wf4) := by decide

/-- WF5: no repetition of the rise. -/
theorem smoke_wf5 : failedCheck { refConfig with nRise := 0 } = some .wf5 := by decide

/-! ### Decoding: words written out from R62's rows and V1 to V9 -/

/-- CMD_IDLE: thirty-two 0 bits. -/
theorem test_decode_idle : decode [0b00000000, 0b00000000, 0b00000000, 0b00000000] = .ok (.cmdIdle, []) := by decide
/-- CMD_EXIT (V4): bits 7:0 are 1, the others 0; least significant byte first. -/
theorem test_decode_exit : decode [0b11111111, 0b00000000, 0b00000000, 0b00000000] = .ok (.cmdExit, []) := by decide
/-- CMD_START, V8: 0xFF in the top byte; the byte after the word is left over. -/
theorem test_decode_start : decode [0b00000000, 0b00000000, 0b00000000, 0b11111111, 0x55] =
    .ok (.cmdStart 0b11111111000000000000000000000000, [0x55]) := by decide
/-- V2, V3, V5, V6, V7, V9. -/
theorem test_decode_start_values : (decodeWord 0x00000001, decodeWord 0x000000FE, decodeWord 0x00000100, decodeWord 0x000001FF,
    decodeWord 0xFFFFFFFF, decodeWord 0x80000000) = (.cmdStart 0x00000001, .cmdStart 0x000000FE, .cmdStart 0x00000100,
    .cmdStart 0x000001FF, .cmdStart 0xFFFFFFFF, .cmdStart 0x80000000) := by decide
/-- Three bytes are no command word. -/
theorem test_decode_truncated : decode [0xFF, 0x00, 0x00] = .error (.truncated 3) := by decide
/-- The opcode table's rows CMD_IDLE and CMD_EXIT. -/
theorem test_decode_table_words : decodeTableWord 32 0x00000000 = some .cmdIdle ∧ decodeTableWord 32 0x000000FF = some .cmdExit ∧
    decodeTableWord 32 0x00000007 = some (.cmdStart 0x00000007) := by decide
/-- The encoder writes CMD_EXIT's bytes at offsets 8 to 11 as P3 does. -/
theorem test_encode_exit : encodeBytes .cmdExit = some [0xFF, 0x00, 0x00, 0x00] := by decide

/-! ### Configuration -/

/-- R11: REF passes WF1 to WF5. -/
theorem test_ref_passes : failedCheck refConfig = none := by decide

/-! ### Commands and handshake -/

/-- V1. -/
theorem test_cmdIdle : (nextOf (step (at' .awaitPoll (cbOf 5 6 0 7)))).map (fun t => (t.ctl, t.trace)) =
    some (.awaitPoll, [.cbr .cmd 0]) := by decide
/-- V4, first step. -/
theorem test_cmdExit_poll : (nextOf (step (at' .awaitPoll (cbOf 5 6 0xFF 7)))).map (fun t => (t.ctl, t.cmd)) =
    some (.accAddr, 0xFF) := by decide
/-- T5: CMD is cleared for an exit command too. -/
theorem test_cmdExit_clears : (nextOf (exec .cmdExit (at' .accCmd (cbOf 5 6 0xFF 0)))).map (fun t => (t.ctl, t.cb)) =
    some (.exitResp, cbOf 5 6 0 0) := by decide
/-- V6. -/
theorem test_cmdStart_poll : (nextOf (step (at' .awaitPoll (cbOf 5 6 0x1FF 7)))).map (fun t => (t.ctl, t.cmd, t.trace)) =
    some (.accAddr, 0x1FF, [.cbr .cmd 0x1FF]) := by decide
/-- T4: ROWS = 0 goes to the latch delay at once. -/
theorem test_cmdStart_zero_rows : (nextOf (exec (.cmdStart 7) (at' .accCmd (cbOf 5 0 7 0)))).map (fun t => (t.ctl, t.cb)) =
    some (.latchDelay, cbOf 5 0 0 0) := by decide
/-- V10: RESP left at 0xFF from an earlier exit. -/
theorem test_boot : (nextOf (step (at' .boot (cbOf 1 2 3 0xFF)))).map (fun t => (t.ctl, t.cb, t.trace)) =
    some (.awaitEntry, cbOf 1 2 3 0, [.cbw .resp 0]) := by decide
/-- R82. -/
theorem test_notify : (nextOf (step (at' .awaitEntry (cbOf 1 2 3 0)))).map (fun t => (t.ctl, t.trace)) =
    some (.awaitPoll, [.notify]) := by decide
/-- R83: the word is latched whole. -/
theorem test_poll : (nextOf (exec .poll (at' .awaitPoll (cbOf 1 2 0x80000000 0)))).map (fun t => (t.ctl, t.cmd)) =
    some (.accAddr, 0x80000000) := by decide
/-- V12: the four steps of ACCEPT. -/
theorem test_accept_reads : (nextOf (core.run 2 (at' .accAddr (cbOf 0x90000000 2 1 0x1F4)))).map
    (fun t => (t.addr, t.rows, t.trace)) =
    some (0x90000000, 2, [.cbr .addr 0x90000000, .cbr .rows 2]) := by decide
/-- V12, end state. -/
theorem test_accept_cmd : (nextOf (exec (.accept .cmd)
    { at' .accCmd (cbOf 0x90000000 2 1 0) with cmd := 1, addr := 0x90000000, rows := 2, cycleCounter := 9 })).map
    (fun t => (t.cb, t.n, t.ptr, t.ctl, t.phase, t.cycleCounter)) =
    some (cbOf 0x90000000 2 0 0, 2, 0x90000000, .transmit, .load, 0) := by decide
/-- R88. -/
theorem test_latch : (nextOf (step (at' .latchDelay (cbOf 1 2 3 0)))).map (fun t => (t.ctl, t.trace, t.cb)) =
    some (.reportAck, [.latch], cbOf 1 2 3 0) := by decide
/-- R89: RESP is 1 whatever the count. -/
theorem test_report_ack : (nextOf (step (at' .reportAck (cbOf 1 2 3 0)))).map (fun t => (t.cb, t.trace)) =
    some (cbOf 1 2 3 1, [.cbw .resp 1]) := by decide
/-- V16, cyc = 0x0001D4C0. -/
theorem test_report_cyc : (nextOf (step { at' .reportCyc (cbOf 1 2 3 1) with cyc := 0x0001D4C0 })).map
    (fun t => (t.cb, t.ctl)) = some (cbOf 1 2 3 0x0001D4C0, .awaitEntry) := by decide
/-- V16, V17: which counts are written. -/
theorem test_reports_count : (reportsCount refConfig 0, reportsCount refConfig 0xFF, reportsCount refConfig 1,
    reportsCount refConfig 0xFFFFFFFF, reportsCount { refConfig with reportCycles := false } 1) =
    (false, false, true, true, false) := by decide
/-- T5. -/
theorem test_exit_resp : (nextOf (step (at' .exitResp (cbOf 1 2 0 0)))).map (fun t => (t.ctl, t.cb)) =
    some (.exitNotify, cbOf 1 2 0 0xFF) := by decide
/-- T5: HALT, and no step after it. -/
theorem test_exit_halt : (nextOf (step (at' .exitHalt (cbOf 1 2 0 0xFF)))).map (fun t => (t.ctl, t.trace, faultOf (step t))) =
    some (.halted, [.halt], some .halted) := by decide

/-! ### Bit Encoder -/

/-- V19. -/
theorem test_dataBit : ([23, 22, 16, 15, 9, 8, 7, 6, 5, 2, 1, 0] : List (Fin 24)).map (dataBit 0x00A50180) =
    [true, false, false, false, false, true, true, false, true, true, false, true] := by decide
/-- V22 at b = 23, through the meaning of ENCODE. -/
theorem test_encode : (nextOf (exec .encode cellStart)).map (·.zm) = some #v[0xFE, 0xFF, 0x0F, 0x0F] := by decide
/-- V23 at b = 15, 14, 13, 12: channel 8 = 00 A5 00 00, so W[8] = 0x0000A500. -/
theorem test_zeroMask_red : ([15, 14, 13, 12] : List (Fin 24)).map (fun b =>
    zeroMask refConfig ((Vector.replicate 24 0).set 8 0x0000A500) b 1) = [0xFE, 0xFF, 0xFE, 0xFF] := by decide
/-- V24 at b = 0, V25 at b = 16 and 15, V26, V28. -/
theorem test_zeroMask_vectors :
    (zeroMask refConfig ((Vector.replicate 24 0).set 16 0x00010000) 0 2,
     zeroMask refConfig ((Vector.replicate 24 0).set 23 0x000000FF) 16 3,
     zeroMask refConfig ((Vector.replicate 24 0).set 23 0x000000FF) 15 3,
     zeroMask refConfig ((Vector.replicate 24 0).set 0 0xFF000000) 23 0,
     zeroMask { refConfig with pinmask := #v[0x7F, 0xFF, 0x0F, 0x0F] } (Vector.replicate 24 0) 9 0) =
    (0x0E, 0x07, 0x0F, 0xFF, 0x7F) := by decide

/-! ### Bank Waveform Emitter (V30, V31) -/

/-- V30, step 0: ENCODE in the same step. -/
theorem test_rise : (nextOf (step cellStart)).map (fun t => (t.out, t.zm, t.k, t.trace)) =
    some (#v[0x800000FF, 0, 0, 0], #v[0xFE, 0xFF, 0x0F, 0x0F], 1, [.gset 0 0xFF]) := by decide
/-- V31: with N_RISE = 2 the first sweep's last write starts the second sweep. -/
theorem test_rise_repeats : (nextOf (step { cellStart with k := 3, config := { refConfig with nRise := 2 } })).map
    (fun t => (t.phase, t.i, t.k)) = some (.rise, 1, 0) := by decide
/-- V30, step 4. -/
theorem test_selFall : (nextOf (step { cellStart with
      phase := .mid, zm := #v[0xFE, 0xFF, 0x0F, 0x0F], out := #v[0x800000FF, 0xFF, 0x0F, 0x0F] })).map
    (fun t => (t.out, t.trace)) = some (#v[0x80000001, 0xFF, 0x0F, 0x0F], [.gclr 0 0xFE]) := by decide
/-- V30, step 7: the phase after the last bank. -/
theorem test_selFall_last : (nextOf (step { cellStart with phase := .mid, k := 3 })).map
    (fun t => (t.phase, t.i, t.k)) = some (.low, 0, 0) := by decide
/-- V30, step 8. -/
theorem test_fullFall : (nextOf (step { cellStart with phase := .low, out := #v[0x80000001, 0, 0, 0] })).map
    (fun t => (t.out, t.k)) = some (#v[0x80000000, 0, 0, 0], 1) := by decide
/-- V30, after step 11; and V33's end of a row. -/
theorem test_fullFall_last : ((nextOf (step { cellStart with phase := .low, k := 3 })).map
      (fun t => (t.b, t.phase, t.i, t.k)),
    (nextOf (step { cellStart with phase := .low, k := 3, b := 0, n := 1, ptr := 0x90000060 })).map
      (fun t => (t.ctl, t.n, t.ptr))) =
    (some (22, .rise, 0, 0), some (.latchDelay, 0, 0x900000C0)) := by decide

/-! ### Frame Sequencer and memory -/

/-- A state about to load channel `c` of the row at `ptr`. -/
def loading (ptr : Word) (c : Fin 24) : State :=
  { State.reset with
    ctl := .transmit, phase := .load, ptr := ptr, c := c, n := 1, mem := [(0x90000014, 0x80), (0x90000016, 0xA5)] }

/-- R141: channel 5's record is 80 00 A5 00. -/
theorem test_loadRow : (nextOf (step (loading 0x90000000 5))).map (fun t => (t.w[5], t.c, t.trace)) =
    some (0x00A50080, 6, [.pxr 0x90000014 0x00A50080]) := by decide
/-- V35: a misaligned read is stuck. -/
theorem test_loadRow_stuck : faultOf (step (loading 0x90000002 0)) = some (.stuckUnadmittedRead 0x90000002) := by decide
/-- V33, V34: the next row, and the address wrap. -/
theorem test_advanceRow : ((nextOf (exec .advanceRow { loading 0x90000000 23 with n := 2 })).map (fun t => (t.ptr, t.n, t.c, t.ctl)),
    (nextOf (exec .advanceRow { loading 0xFFFFFFA0 23 with n := 2 })).map (·.ptr)) =
    (some (0x90000060, 1, 0, .transmit), some 0x00000000) := by decide
/-- T8: channel 5 of row 2 of a frame at 0x90000000 lies at 0x900000D4. -/
theorem test_recordAddress : recordAddress (0x90000000 + rowStride + rowStride) 5 = 0x900000D4 := by decide
/-- The canonical form: writing what an unlisted address reads as removes the entry, and addresses wrap (R59). -/
theorem test_memory_canonical : Memory.writeBytes [(4, 7)] 0xFFFFFFFF [9, 8, 0, 0, 0, 0] = [(0, 8), (4294967295, 9)] := by
  decide

/-! ### The environment -/

/-- R73: `W32 8, 0xFF` is the bytes FF 00 00 00 at offsets 8 to 11, and no event of the block. -/
theorem test_producer_write : (nextOf (step { State.reset with moves := [.w32 .cmd 0xFF] })).map
    (fun t => (t.cb, t.trace, t.ctl, t.moves)) = some (cbOf 0 0 0xFF 0, [], .boot, []) := by decide
/-- The same with the sixteen bytes written out (R73, P3), and V12's ADDR of 0x90000000. -/
theorem test_producer_write_bytes :
    ((nextOf (step { State.reset with moves := [.w32 .cmd 0xFF] })).map (·.cb),
     (nextOf (step { State.reset with moves := [.w32 .addr 0x90000000] })).map (·.cb)) =
    (some #v[0, 0, 0, 0, 0, 0, 0, 0, 0xFF, 0x00, 0x00, 0x00, 0, 0, 0, 0],
     some #v[0x00, 0x00, 0x00, 0x90, 0, 0, 0, 0, 0, 0, 0, 0, 0, 0, 0, 0]) := by decide
/-- V8's bytes 00 00 00 FF at offsets 8 to 11 start a frame, V4's FF 00 00 00 exit: the poll latches those words. -/
theorem test_poll_bytes :
    ((nextOf (step (at' .awaitPoll #v[0, 0, 0, 0, 0, 0, 0, 0, 0x00, 0x00, 0x00, 0xFF, 0, 0, 0, 0]))).map (·.cmd),
     (nextOf (step (at' .awaitPoll #v[0, 0, 0, 0, 0, 0, 0, 0, 0xFF, 0x00, 0x00, 0x00, 0, 0, 0, 0]))).map (·.cmd)) =
    (some 0xFF000000, some 0x000000FF) := by decide
/-- R73: `EXIT` writes CMD, then waits with the block stepping until RESP is 0xFF. -/
theorem test_exit_script :
    ((nextOf (step { at' .awaitPoll (cbOf 1 2 0 0) with moves := exitScript })).map (fun t => (t.cb, t.moves, t.ctl)),
     (nextOf (step { at' .exitResp (cbOf 1 2 0 0) with moves := [.wait .resp .eq 0xFF] })).map (fun t => (t.moves, t.ctl))) =
    (some (cbOf 1 2 0xFF 0, [.wait .resp .eq 0xFF], .awaitPoll), some ([.wait .resp .eq 0xFF], .exitNotify)) := by decide
/-- V16: the producer's reading. -/
theorem test_readResponse : (readResponse 0, readResponse 0xFF, readResponse 1, readResponse 0x1FF) =
    (.notDone, .exited, .done, .done) := by decide
/-- R190: a restart leaves HALTED and writes neither the control block nor OUT. -/
theorem test_restart : (nextOf (step { at' .halted (cbOf 1 2 3 0xFF) with moves := [.restart], out := #v[1, 2, 3, 4], n := 9 })).map
    (fun t => (t.ctl, t.cb, t.out)) = some (.boot, cbOf 1 2 3 0xFF, #v[1, 2, 3, 4]) := by decide
/-- A placed start command runs as the first instruction after reset. -/
theorem test_withFetchWord : (nextOf (step (State.reset.withFetchWord 32 7))).map (fun t => (t.cmd, t.ctl)) =
    some (7, .accAddr) := by decide

/-! ### The hypotheses of the statements can be met -/

theorem witness_PixelWordReadsBackLittleEndian : Memory.wf [] = true ∧ Memory.wf [(0, 1), (4294967295, 2)] = true := by decide

/-- Bank 2 has one pin too many in V29: the controlled pin (2, 4) has no channel, so WF4 as R10 words it fails. -/
theorem witness_ConfigurationChecks :
    failedCheck configV29 = some .wf4 ∧ ¬ ∀ check, meetsCheck { State.reset with config := configV29 }.config check :=
  ⟨by decide, fun h => by
    obtain ⟨c, hc, -⟩ := h .wf4 2 4 (by decide)
    exact absurd hc ((by decide : ∀ c : Fin 24, configV29.chmap[c] ≠ ⟨2, 4⟩) c)⟩

/-- The configuration refused, and the counts of a configuration whose fifth check alone fails. -/
theorem witness_FailingConfigurationIsRefused :
    refusalOf (step { State.reset with config := configV29 }) = some (.config .wf4) ∧
    refusalOf (step { State.reset with config := { refConfig with nLow := 0 } }) = some (.config .wf5) ∧
    failedCheck refConfig = none := by decide

/-- REF meets each check as R10 words it. -/
theorem witness_meetsCheck : ∀ check, meetsCheck State.reset.config check := by
  intro check
  cases check <;> simp only [meetsCheck, State.reset] <;> decide

theorem witness_ControlBlockByteLayout :
    (3 < 4 ∧ 7 < 8) ∧ (15 < 16 ∧ 15 / 4 ≠ CbField.cmd.offset / 4) ∧ (11 < 16 ∧ 11 / 4 = CbField.cmd.offset / 4) ∧
    (cbPut (Vector.replicate 16 0) .resp 0x80000000)[15] = 0x80 := by decide

theorem witness_StepRunsTheDecodedInstruction :
    failedCheck State.reset.config = none ∧ State.reset.turn = .block State.reset ∧ State.reset.fetch = some .boot ∧
    (at' .awaitPoll (cbOf 0 0 7 0)).turn = .block (at' .awaitPoll (cbOf 0 0 7 0)) ∧
    decode [(at' .awaitPoll (cbOf 0 0 7 0)).cb[8], (at' .awaitPoll (cbOf 0 0 7 0)).cb[9],
      (at' .awaitPoll (cbOf 0 0 7 0)).cb[10], (at' .awaitPoll (cbOf 0 0 7 0)).cb[11]] = .ok (.cmdStart 7, []) ∧
    (at' .halted (cbOf 0 0 7 0)).turn = .block (at' .halted (cbOf 0 0 7 0)) ∧
    (State.turn { State.reset with moves := [.dropNotification] }) = .environment State.reset ∧
    (State.turn { State.reset with moves := [.block, .waitn] }) = .block { State.reset with moves := [.waitn] } := by decide

theorem witness_ControlStateSelectsTheInstruction (x : Ctl) (p : Phase) :
    ∃ s : State, s.ctl = x ∧ s.phase = p := ⟨{ State.reset with ctl := x, phase := p }, rfl, rfl⟩

theorem witness_PollRunsTheFetchedCommand : (at' .awaitPoll (cbOf 0 0 0 0)).ctl = .awaitPoll ∧
    { at' .accCmd (cbOf 0 0 0 0) with cmd := 0xFF }.ctl = .accCmd ∧ { at' .accCmd (cbOf 0 0 0 0) with cmd := 0xFF }.cmd ≠ 0 := by
  decide

theorem witness_PlacedCommandRunsNext : failedCheck State.reset.config = none ∧ 0xFFFFFFFF < 2 ^ 32 ∧
    (nextOf (step (State.reset.withFetchWord 32 0xFFFFFFFF))).map (·.cmd) = some 0xFFFFFFFF := by decide

theorem witness_OnlyHaltedAndStuckHaveNoStep :
    (at' .halted (cbOf 0 0 0 0)).Final ∧ (loading 0x90000002 0).Stuck ∧ ¬ State.reset.Final ∧ ¬ State.reset.Stuck ∧
    (loading 0x90000002 0).turn = .block (loading 0x90000002 0) := by decide

theorem witness_OneEventPerBlockStep :
    (nextOf (step State.reset)).isSome = true ∧ State.reset.turn = .block State.reset ∧
    (nextOf (step { State.reset with moves := [.dropNotification] })).isSome = true := by decide

theorem witness_ConfigurationIsNeverWritten : (nextOf (step State.reset)).isSome = true := by decide

theorem witness_ResetEntersBoot : failedCheck (at' .halted (cbOf 0 0 0 0)).config = none ∧
    { at' .halted (cbOf 0 0 0 0) with moves := [.restart, .block] }.moves = .restart :: [.block] := by decide

theorem witness_BootSequence : failedCheck State.reset.config = none ∧ State.reset.ctl = .boot ∧ State.reset.moves = [] := by
  decide

theorem witness_IdleStaysInAwaitPoll :
    (at' .awaitPoll (cbOf 1 2 0 3)).ctl = .awaitPoll ∧ (at' .awaitPoll (cbOf 1 2 0 3)).field .cmd = 0 := by decide

theorem witness_StartCommandEntersTransmit :
    (at' .awaitPoll (cbOf 1 2 7 3)).ctl = .awaitPoll ∧ (at' .accCmd (cbOf 1 0 7 3)).ctl = .accCmd ∧
    (at' .accCmd (cbOf 1 0 7 3)).rows = 0 ∧ { at' .accCmd (cbOf 1 1 7 3) with rows := 1 }.rows ≠ 0 := by decide

theorem witness_ExitCommandGoesToExit :
    (at' .awaitPoll (cbOf 1 2 0xFF 3)).ctl = .awaitPoll ∧ (at' .accCmd (cbOf 1 2 0xFF 3)).ctl = .accCmd := by decide

theorem witness_AcceptStepsComplete :
    { at' .accCmd (cbOf 1 0 7 3) with cmd := 0xFF }.cmd = 0xFF ∧ (at' .accCmd (cbOf 1 0 7 3)).cmd ≠ 0xFF ∧
    (at' .accCmd (cbOf 1 0 7 3)).rows = 0 ∧ { at' .accCmd (cbOf 1 1 7 3) with rows := 1 }.rows ≠ 0 := by decide

theorem witness_AcceptRunsInFourSteps :
    failedCheck (at' .accAddr (cbOf 4 0 7 3)).config = none ∧ (at' .accAddr (cbOf 4 0 7 3)).moves = [] ∧
    (at' .accAddr (cbOf 4 0 7 3)).ctl = .accAddr ∧ (at' .accAddr (cbOf 4 0 7 3)).field .rows = 0 ∧
    (at' .accAddr (cbOf 4 1 7 3)).field .rows ≠ 0 ∧ { at' .accAddr (cbOf 4 1 7 3) with cmd := 0xFF }.cmd = 0xFF := by decide

theorem witness_ReportReadsAsDone :
    failedCheck (at' .reportAck (cbOf 1 2 0 0)).config = none ∧ (at' .reportAck (cbOf 1 2 0 0)).moves = [] ∧
    { at' .reportAck (cbOf 1 2 0 0) with config := { refConfig with reportCycles := false } }.config.reportCycles = false := by
  decide

theorem witness_HaltedIsTerminal :
    { at' .halted (cbOf 1 2 0 0xFF) with moves := [.w32 .cmd 1] }.ctl = .halted ∧
    (nextOf (step { at' .halted (cbOf 1 2 0 0xFF) with moves := [.w32 .cmd 1] })).isSome = true ∧
    { at' .halted (cbOf 1 2 0 0xFF) with moves := [.w32 .cmd 1] }.moves.head? ≠ some .restart := by decide

/-- A block at ACC_ADDR with a command latched, and a write of CMD after `j` of the block's steps. -/
def overlapping (cmd rows : Word) (j : Nat) : State :=
  { at' .accAddr (cbOf 0 rows cmd 0) with cmd := cmd, moves := List.replicate j .block ++ [.w32 .cmd 2] }

/-- A start and an exit command latched, the write in the first and in the last place, with a row and with none. -/
theorem witness_OverlappingCommandIsLost :
    (overlapping 1 1 0).ctl = .accAddr ∧ failedCheck (overlapping 1 1 0).config = none ∧
    (overlapping 1 1 0).moves = List.replicate 0 .block ++ [.w32 .cmd 2] ∧ (overlapping 1 1 0).field .rows ≠ 0 ∧
    (overlapping 1 0 3).moves = List.replicate 3 .block ++ [.w32 .cmd 2] ∧ (overlapping 1 0 3).field .rows = 0 ∧
    (overlapping 1 0 3).cmd ≠ 0xFF ∧ (overlapping 0xFF 1 3).cmd = 0xFF ∧
    (nextOf (core.run 5 (overlapping 0xFF 1 3))).map (fun t => (t.ctl, t.field .cmd)) = some (.exitResp, 0) ∧
    (nextOf (core.run 5 (overlapping 1 1 2))).map (fun t => (t.ctl, t.field .cmd)) = some (.transmit, 0) := by decide

theorem witness_FrameIgnoresTheCommandField :
    cellStart.ctl.inFrame = true ∧ (nextOf cellStart.blockStep).isSome = true ∧
    (at' .reportAck (cbOf 0 0 0 0)).ctl.inFrame = true ∧ (nextOf (at' .reportAck (cbOf 0 0 0 0)).blockStep).isSome = true := by
  decide

theorem witness_BlockWritesOnlyItsOwnFields :
    (nextOf (at' .accCmd (cbOf 1 2 3 4)).blockStep).isSome = true ∧ (at' .accCmd (cbOf 1 2 3 4)).ctl = .accCmd ∧
    (nextOf cellStart.blockStep).isSome = true ∧ cellStart.ctl ≠ .accCmd := by decide

theorem witness_EnvironmentLeavesTheBlockAlone :
    State.turn { State.reset with moves := [.dropNotification] } = .environment State.reset ∧
    { State.reset with moves := [.dropNotification] }.moves.head? ≠ some .restart ∧
    { cellStart with moves := [.otherPins 3 0xFFFFFFFF] }.moves = .otherPins 3 0xFFFFFFFF :: [] ∧
    cellStart.config.pinmask[(3 : Fin 4)].getLsbD (3 : Fin 32).val = true ∧
    cellStart.config.pinmask[(3 : Fin 4)].getLsbD (4 : Fin 32).val = false ∧
    { cellStart with moves := [.pinsLow] }.moves = .pinsLow :: [] ∧ cellStart.ctl ≠ .boot ∧ State.reset.ctl = .boot ∧
    failedCheck cellStart.config = none := by decide

/-- Another agent's move reaches the pins outside PINMASK only (R30), and the platform's before BOOT the controlled ones (R193). -/
theorem test_platform_moves :
    ((nextOf (step { cellStart with moves := [.otherPins 3 0xFFFFFFFF] })).map (·.out),
     (nextOf (step { State.reset with moves := [.pinsLow], out := #v[0x800000FF, 1, 0x10, 0x0F] })).map (·.out)) =
    (some #v[0x80000000, 0, 0, 0xFFFFFFF0], some #v[0x80000000, 0, 0x10, 0]) := by decide

theorem witness_ProducerWritesOneField :
    failedCheck { State.reset with moves := [.w32 .rows 3, .block] }.config = none ∧
    { State.reset with moves := [.w32 .rows 3, .block] }.moves = .w32 .rows 3 :: [.block] ∧
    { State.reset with moves := [.w32 .addr 0x80000000] }.moves = .w32 .addr 0x80000000 :: [] ∧
    { State.reset with moves := [.w32 .cmd 0xFF] }.moves = .w32 .cmd 0xFF :: [] ∧ (3 < 4 ∧ 7 < 8) := by decide

/-- A state with one producer move to come; CMD is 7, and one notification is pending. -/
def waiting (m : Move) : State := { at' .awaitPoll (cbOf 1 2 7 0) with moves := [m], notifyPending := 1 }

/-- Each move of the script, where it passes and where it stays; WPIX over the end of the address space. -/
theorem witness_ProducerMovesFollowTheScript :
    failedCheck (waiting .waitn).config = none ∧
    (waiting (.wait .cmd .eq 7)).field .cmd = 7 ∧ (waiting (.wait .cmd .eq 0)).field .cmd ≠ 0 ∧
    (waiting (.wait .resp .ne 1)).field .resp ≠ 1 ∧ (waiting (.wait .resp .ne 0)).field .resp = 0 ∧
    (waiting .waitn).moves = .waitn :: [] ∧ (waiting .waitn).notifyPending ≠ 0 ∧
    { waiting .waitn with notifyPending := 0 }.notifyPending = 0 ∧
    (waiting (.wpix 0xFFFFFFFF [9, 8])).moves = .wpix 0xFFFFFFFF [9, 8] :: [] ∧
    (waiting (.wpix 0xFFFFFFFF [9, 8])).mem.wf = true ∧
    (0xFFFFFFFF + BitVec.ofNat 32 1 : Word) ≠ 0xFFFFFFFF + BitVec.ofNat 32 0 ∧
    (0xFFFFFFFF + BitVec.ofNat 32 1 : Word).toNat = 0 := by decide

/-- R73: a WAIT that holds passes, one that does not gives the block its turn; so does a WAITN with nothing pending. -/
theorem test_producer_waits :
    (nextOf (step (waiting (.wait .cmd .eq 7)))).map (fun t => (t.moves, t.ctl)) = some ([], .awaitPoll) ∧
    (nextOf (step (waiting (.wait .resp .ne 0)))).map (fun t => (t.moves, t.ctl)) =
      some ([.wait .resp .ne 0], .accAddr) ∧
    (nextOf (step (waiting .waitn))).map (fun t => (t.moves, t.notifyPending)) = some ([], 0) ∧
    (nextOf (step { waiting .waitn with notifyPending := 0 })).map (fun t => (t.moves, t.ctl)) =
      some ([.waitn], .accAddr) := by decide

/-- No move to come; and only moves that are not the producer's. -/
theorem witness_QuiescentStatesOnlyPoll :
    failedCheck (at' .awaitPoll (cbOf 1 2 0 4)).config = none ∧ (at' .awaitPoll (cbOf 1 2 0 4)).Quiescent ∧
    State.Quiescent { at' .awaitPoll (cbOf 1 2 0 4) with
      moves := [.block, .dropNotification, .otherPins 1 5, .pinsLow] } ∧
    ¬ State.Quiescent { at' .awaitPoll (cbOf 1 2 0 4) with moves := [.block, .w32 .rows 1] } := by decide

theorem witness_DataBitIsTheRecordBit : (23 : Fin 24).val ≥ 16 ∧ (16 : Fin 24).val ≥ 16 ∧ ¬ (15 : Fin 24).val ≥ 16 ∧
    (8 : Fin 24).val ≥ 8 ∧ ¬ (7 : Fin 24).val ≥ 8 := by decide

theorem witness_LanesDoNotInteract : failedCheck refConfig = none ∧ refConfig.pinmask[(3 : Fin 4)].getLsbD (3 : Fin 32).val = true := by
  decide

theorem witness_UnusedByteIsNeverSent : ∃ w w' : Vector Word 24, w ≠ w' ∧
    ∀ (c : Fin 24) (j : Nat), j < 24 → w[c].getLsbD j = w'[c].getLsbD j := by
  refine ⟨Vector.replicate 24 0, Vector.replicate 24 0xFF000000, by decide, ?_⟩
  have h : ∀ (c : Fin 24) (j : Fin 24), (Vector.replicate 24 (0 : Word))[c].getLsbD j.val =
      (Vector.replicate 24 (0xFF000000 : Word))[c].getLsbD j.val := by decide
  exact fun c j hj => h c ⟨j, hj⟩

theorem witness_InertChannelsContributeNothing : ∀ j : Fin 4,
    { refConfig with pinmask := #v[0x7F, 0xFF, 0x0F, 0x0F] }.chmap[(7 : Fin 24)].bank = j.val →
    { refConfig with pinmask := #v[0x7F, 0xFF, 0x0F, 0x0F] }.pinmask[j].getLsbD
      { refConfig with pinmask := #v[0x7F, 0xFF, 0x0F, 0x0F] }.chmap[(7 : Fin 24)].pin = false := by decide

/-- The clauses of RISE, SEL_FALL and FULL_FALL at their boundary values: bank 2, and bank 3 in the last sweep but one and in
the last, with bits 1 and 0. -/
theorem witness_EmitterPositions :
    { cellStart with k := 2 }.k < 3 ∧
    ({ cellStart with k := 3, i := 0, config := { refConfig with nRise := 2, nMid := 2, nLow := 2 } }.i <
      { cellStart with k := 3, i := 0, config := { refConfig with nRise := 2, nMid := 2, nLow := 2 } }.config.nRise - 1) ∧
    ({ cellStart with k := 3, i := 0, config := { refConfig with nRise := 2, nMid := 2, nLow := 2 } }.i <
      { cellStart with k := 3, i := 0, config := { refConfig with nRise := 2, nMid := 2, nLow := 2 } }.config.nMid - 1) ∧
    ({ cellStart with k := 3, i := 0, config := { refConfig with nRise := 2, nMid := 2, nLow := 2 } }.i <
      { cellStart with k := 3, i := 0, config := { refConfig with nRise := 2, nMid := 2, nLow := 2 } }.config.nLow - 1) ∧
    ¬ { cellStart with k := 3 }.i < cellStart.config.nRise - 1 ∧ ¬ { cellStart with k := 3 }.i < cellStart.config.nMid - 1 ∧
    ¬ { cellStart with k := 3 }.i < cellStart.config.nLow - 1 ∧ { cellStart with b := 1 }.b > 0 ∧ { cellStart with b := 0 }.b = 0 ∧
    cellStart.i = 0 ∧ cellStart.k = 0 ∧ ¬ ({ cellStart with i := 1 }.i = 0 ∧ cellStart.k = 0) := by decide

/-- A state inside a run: the start of a cell. -/
theorem cellStart_inv : cellStart.Inv where
  memory := by decide
  accepted := by decide
  exitCommand := by decide
  rowsLeft := by decide
  repetition := by decide
  masks := by decide
  maskedZm := by decide

theorem witness_PinsOutsidePinmaskNeverMove : cellStart.Inv ∧ (nextOf (exec .rise cellStart)).isSome = true :=
  ⟨cellStart_inv, by decide⟩

theorem witness_BitCellRunsToItsEnd :
    failedCheck cellStart.config = none ∧ cellStart.moves = [] ∧ cellStart.ctl = .transmit ∧ cellStart.phase = .rise ∧
    cellStart.i = 0 ∧ cellStart.k = 0 ∧ cellStart.b > 0 ∧ cellStart.n = 1 ∧ { cellStart with b := 0, n := 2 }.b = 0 ∧
    { cellStart with b := 0, n := 2 }.n ≠ 1 := by decide

/-- The pins of channel 0 (bit 1) and channel 1 (bit 0) in bank 0, at the last step high and the first low, and the pin of
channel 8 in bank 1 before its bank is raised. -/
theorem witness_PinWaveformOfACell :
    cellStart.config.pinmask[(0 : Fin 4)].getLsbD (0 : Fin 32).val = true ∧
    cellStart.config.chmap[(0 : Fin 24)] = ⟨(0 : Fin 4).val, (0 : Fin 32).val⟩ ∧
    dataBit cellStart.w[(0 : Fin 24)] cellStart.b = true ∧
    (7 < cellSteps cellStart.config ∧ 7 < fallStep cellStart.config 0 true) ∧
    (8 < cellSteps cellStart.config ∧ ¬ 8 < fallStep cellStart.config 0 true) ∧
    cellStart.config.pinmask[(0 : Fin 4)].getLsbD (1 : Fin 32).val = true ∧
    cellStart.config.chmap[(1 : Fin 24)] = ⟨(0 : Fin 4).val, (1 : Fin 32).val⟩ ∧
    dataBit cellStart.w[(1 : Fin 24)] cellStart.b = false ∧
    (3 < cellSteps cellStart.config ∧ 3 < fallStep cellStart.config 0 false) ∧
    (4 < cellSteps cellStart.config ∧ ¬ 4 < fallStep cellStart.config 0 false) ∧
    cellStart.config.pinmask[(1 : Fin 4)].getLsbD (0 : Fin 32).val = true ∧
    cellStart.config.chmap[(8 : Fin 24)] = ⟨(1 : Fin 4).val, (0 : Fin 32).val⟩ ∧ 0 < (1 : Fin 4).val := by decide

theorem witness_StepKeepsPinsLowBetweenCells :
    cellStart.restartFree = true ∧ cellStart.PinLaw ∧ (nextOf (step cellStart)).isSome = true ∧
    State.PinLaw { cellStart with k := 3, out := #v[0x800000FF, 0xFF, 0x0F, 0] } ∧
    State.PinLaw { cellStart with phase := .low, k := 3, out := Vector.replicate 4 0x80000000 } ∧
    (nextOf (step { cellStart with phase := .low, k := 3, out := Vector.replicate 4 0x80000000 })).isSome = true := by
  refine ⟨by decide, fun _ => by decide, by decide, fun _ => by decide, ?_, by decide⟩
  show ∀ j : Fin 4, j < 3 → (Vector.replicate 4 (0x80000000 : Word))[j] &&& refConfig.pinmask[j] = 0
  decide

theorem witness_LoadRowReadsOneChannel :
    admitsRead (loading 0x90000000 5).config ((loading 0x90000000 5).ptr + BitVec.ofNat 32 (4 * (5 : Fin 24).val)) = true ∧
    (loading 0x90000000 22).c < 23 ∧ (loading 0x90000000 23).c = 23 ∧
    admitsRead (loading 0x90000000 23).config ((loading 0x90000000 23).ptr + BitVec.ofNat 32 (4 * (23 : Fin 24).val)) = true := by
  decide

theorem witness_UnadmittedReadIsStuck :
    faultOf (exec .loadRow (loading 0x90000001 0)) = some (.stuckUnadmittedRead 0x90000001) ∧
    faultOf (exec .loadRow { loading 0x90000000 0 with config := { refConfig with admitted := [⟨0x90000000, 3⟩] } }) =
      some (.stuckUnadmittedRead 0x90000000) ∧
    faultOf (exec .loadRow { loading 0x90000000 0 with config := { refConfig with admitted := [⟨0x90000000, 4⟩] } }) = none := by
  decide

theorem witness_AdvanceRowMovesToTheNextRow :
    { loading 0 0 with n := 1 }.n - 1 = 0 ∧ { loading 0 0 with n := 2 }.n - 1 ≠ 0 := by decide

theorem witness_AlignedRowsHaveAlignedReads : (0xFFFFFFA0 : Word).toNat % 4 = 0 ∧ (0 : Word).toNat % 4 = 0 := by decide

theorem witness_FrameIsSentToItsEnd :
    failedCheck (loading 0x90000000 0).config = none ∧ (loading 0x90000000 0).moves = [] ∧
    (loading 0x90000000 0).ctl = .transmit ∧ (loading 0x90000000 0).phase = .load ∧ (loading 0x90000000 0).c = 0 ∧
    (loading 0x90000000 0).n ≠ 0 ∧
    ∀ r < (loading 0x90000000 0).n.toNat, ∀ c : Fin 24, admitsRead (loading 0x90000000 0).config
      (recordAddress ((loading 0x90000000 0).ptr + BitVec.ofNat 32 (96 * r)) c) = true := by decide

theorem witness_StepKeepsTheRunConditions : cellStart.Inv ∧ (nextOf (step cellStart)).isSome = true :=
  ⟨cellStart_inv, by decide⟩

theorem witness_StepKeepsTheResponseLaw :
    State.ResponseLaw (at' .reportAck (cbOf 1 2 3 0)) ∧ (nextOf (step (at' .reportAck (cbOf 1 2 3 0)))).isSome = true := by
  refine ⟨?_, by decide⟩
  show (at' .reportAck (cbOf 1 2 3 0)).field .resp = 0
  decide

end Sys2Proof.Machine
end

namespace Sys2Proof.Machine

/-! ### The configuration: each check of R10 as the model computes it says what the rule words -/

/-- A vector's list is its elements in the order of their indices. -/
theorem toList_eq_ofFn {α : Type} {n : Nat} (v : Vector α n) : v.toList = List.ofFn fun c : Fin n => v[c] :=
  List.ext_getElem (by simp) (by simp)

/-- An element stands once in a vector exactly when one index holds it. -/
theorem count_toList_eq_one_iff {α : Type} [DecidableEq α] {n : Nat} (v : Vector α n) (a : α) :
    v.toList.count a = 1 ↔ ∃! c : Fin n, v[c] = a := by
  rw [Fintype.existsUnique_iff_card_one, toList_eq_ofFn, ← List.Vector.toList_ofFn,
    ← Fin.card_filter_univ_eq_vector_get_eq_count]
  simp only [List.Vector.get_ofFn]

section Checks

variable (cfg : Config)

theorem wf1_iff : wf1 cfg = true ↔ meetsCheck cfg .wf1 := by
  simp only [wf1, meetsCheck, toList_eq_ofFn, List.all_eq_true, List.forall_mem_ofFn_iff, Bool.and_eq_true,
    decide_eq_true_eq]

/-- The banks of a channel's group, as WF2 words them. -/
theorem bankOfChannelOk_iff (c : Fin 24) (bank : Nat) :
    bankOfChannelOk c bank = true ↔
      (c.val ≤ 7 → bank = 0) ∧ (8 ≤ c.val → c.val ≤ 15 → bank = 1) ∧ (16 ≤ c.val → bank = 2 ∨ bank = 3) := by
  unfold bankOfChannelOk
  split
  · simp only [beq_iff_eq]; omega
  · split
    · simp only [beq_iff_eq]; omega
    · simp only [Bool.or_eq_true, beq_iff_eq]; omega

theorem wf2_iff : wf2 cfg = true ↔ meetsCheck cfg .wf2 := by
  simp only [wf2, meetsCheck, List.all_eq_true, List.mem_finRange, true_imp_iff, bankOfChannelOk_iff]

theorem wf3_iff : wf3 cfg = true ↔ meetsCheck cfg .wf3 := by
  rw [wf3, decide_eq_true_eq, toList_eq_ofFn, List.nodup_ofFn]
  exact Iff.rfl

theorem wf4_iff : wf4 cfg = true ↔ meetsCheck cfg .wf4 := by
  simp only [wf4, meetsCheck, List.all_eq_true, List.mem_finRange, true_imp_iff, Bool.or_eq_true, beq_iff_eq,
    count_toList_eq_one_iff, Bool.not_eq_true', ← Bool.not_eq_true, ← imp_iff_not_or]
  exact Iff.rfl

theorem wf5_iff : wf5 cfg = true ↔ meetsCheck cfg .wf5 := by
  simp only [wf5, meetsCheck, Bool.and_eq_true, decide_eq_true_eq, and_assoc]

/-- A configuration passes when it meets every check of R10 as worded. -/
theorem failedCheck_eq_none_iff : failedCheck cfg = none ↔ ∀ check, meetsCheck cfg check := by
  constructor
  · intro h check
    unfold failedCheck at h
    split_ifs at h with h1 h2 h3 h4 h5
    simp only [Bool.not_eq_true, Bool.not_eq_false'] at h1 h2 h3 h4 h5
    cases check with
    | wf1 => exact (wf1_iff cfg).1 h1
    | wf2 => exact (wf2_iff cfg).1 h2
    | wf3 => exact (wf3_iff cfg).1 h3
    | wf4 => exact (wf4_iff cfg).1 h4
    | wf5 => exact (wf5_iff cfg).1 h5
  · intro h
    simp [failedCheck, (wf1_iff cfg).2 (h .wf1), (wf2_iff cfg).2 (h .wf2), (wf3_iff cfg).2 (h .wf3),
      (wf4_iff cfg).2 (h .wf4), (wf5_iff cfg).2 (h .wf5)]

variable {cfg}

/-- The check named is one that fails as worded. -/
theorem not_meetsCheck_of_failedCheck {check : ConfigCheck} (h : failedCheck cfg = some check) :
    ¬ meetsCheck cfg check := by
  unfold failedCheck at h
  split_ifs at h with h1 h2 h3 h4 h5 <;> cases h
  · simpa [← wf1_iff] using h1
  · simpa [← wf2_iff] using h2
  · simpa [← wf3_iff] using h3
  · simpa [← wf4_iff] using h4
  · simpa [← wf5_iff] using h5

end Checks

/-- A failing configuration is refused before anyone acts (R161, M2). -/
theorem step_of_failedCheck {s : State} {check : ConfigCheck} (h : failedCheck s.config = some check) :
    step s = .refused (.config check) := by
  simp [step, h]

/-- Settles O7: each check's Boolean is the rule's wording, so the first one that is false fails as worded. -/
theorem configurationChecks : Obligations.ConfigurationChecks := by
  refine ⟨failedCheck_eq_none_iff, fun _ _ => not_meetsCheck_of_failedCheck, fun s hs => ?_⟩
  obtain ⟨check, hc⟩ := Option.ne_none_iff_exists'.1 (mt (failedCheck_eq_none_iff s.config).1 hs)
  exact ⟨check, step_of_failedCheck hc, not_meetsCheck_of_failedCheck hc⟩

/-- REF's CHMAP, channel by channel. -/
theorem refConfig_chmap (c : Fin 24) : refConfig.chmap[c] = refMapEntry c := by
  simp [refConfig]

/-- Settles O6: CHMAP by its defining function, the other parameters as written in REF, the checks by evaluation. -/
theorem referenceConfiguration : Obligations.ReferenceConfiguration := by
  refine ⟨fun c => ?_, rfl, rfl, rfl, rfl, rfl, by decide⟩
  rw [refConfig_chmap, refMapEntry]
  simp only [Nat.lt_succ_iff]

/-! ### The step: what the block runs, and the one event that its step appends -/

/-- The block has no step in HALTED (R80). -/
theorem step_of_halted {s s' : State} (hc : failedCheck s.config = none) (ht : s.turn = .block s')
    (hh : s'.ctl = .halted) : step s = .fault .halted := by
  simp [step, hc, ht, State.blockStep, State.fetch, hh]

/-- A `block` move gives the block its turn and is used up. -/
theorem State.turn_of_moves_block {s : State} {rest : List Move} (h : s.moves = .block :: rest) :
    s.turn = .block { s with moves := rest } := by
  simp [State.turn, h]

/-- At AWAIT_POLL the block runs the instruction that CMD's bytes decode to. -/
theorem State.fetch_of_decode {s : State} {i : Instr} {rest : List Byte} (hp : s.ctl = .awaitPoll)
    (hd : decode s.commandBytes = .ok (i, rest)) : s.fetch = some i := by
  simp only [State.fetch, hp, State.fetchCommand, hd]

/-- Settles O9: the step's equation for each turn, with the fetch at AWAIT_POLL by CMD's bytes. -/
theorem stepRunsTheDecodedInstruction : Obligations.StepRunsTheDecodedInstruction := by
  intro s hc
  exact ⟨fun _ _ ht hi => step_of_block hc ht hi,
    fun _ _ _ ht hp hd => step_of_block hc ht (State.fetch_of_decode hp hd),
    fun _ ht hh => step_of_halted hc ht hh,
    fun _ ht => step_of_environment hc ht,
    State.turn_of_moves_nil,
    fun _ => State.turn_of_moves_block⟩

/-- ENCODE and ADVANCE_ROW are never selected by themselves: they are parts of other instructions' steps (R101, R143). -/
theorem State.fetch_ne_encode_advanceRow {s : State} {i : Instr} (h : s.fetch = some i) :
    i ≠ .encode ∧ i ≠ .advanceRow := by
  cases hx : s.ctl <;> simp only [State.fetch, hx, State.fetchCommand_eq, decodeWord_eq, State.fetchSequencer] at h
  case awaitPoll => split_ifs at h <;> cases h <;> exact ⟨nofun, nofun⟩
  case transmit => split at h <;> cases h <;> exact ⟨nofun, nofun⟩
  case halted => cases h
  all_goals cases h; exact ⟨nofun, nofun⟩

/-- When a result is known and its trace is longer by `e`, the next state it answers has one more event. -/
theorem trace_append_of_next {s t u : State} {r : Result} (e : Event) (hr : r = .next u) (hu : u.trace = s.trace ++ [e])
    (h : r = .next t) : ∃ e, t.trace = s.trace ++ [e] := by
  cases hr.symm.trans h
  exact ⟨e, hu⟩

/-- An instruction other than the two parts performs one action, so it appends one event (R14, R15). -/
theorem exec_appends_one_event {s t : State} {i : Instr} (hi : i ≠ .encode ∧ i ≠ .advanceRow) (h : exec i s = .next t) :
    ∃ e, t.trace = s.trace ++ [e] := by
  cases i with
  | cmdIdle => exact trace_append_of_next (.cbr .cmd 0) (exec_cmdIdle s) (by simp) h
  | cmdExit =>
    by_cases hx : s.ctl = .accCmd
    · exact trace_append_of_next (.cbw .cmd 0) (exec_cmdExit_of_accCmd s hx) (by simp) h
    · exact trace_append_of_next (.cbr .cmd 0xFF) (exec_cmdExit_of_ne s hx) (by simp) h
  | cmdStart v =>
    by_cases hx : s.ctl = .accCmd
    · exact trace_append_of_next (.cbw .cmd 0) (exec_cmdStart_of_accCmd s v hx) (by simp) h
    · exact trace_append_of_next (.cbr .cmd v) (exec_cmdStart_of_ne s v hx) (by simp) h
  | boot => exact trace_append_of_next (.cbw .resp 0) (exec_boot s) (by simp) h
  | notify => exact trace_append_of_next .notify (exec_notify s) (by simp) h
  | poll => exact trace_append_of_next (.cbr .cmd (s.field .cmd)) (exec_poll s) (by simp) h
  | accept part =>
    cases part with
    | addr => exact trace_append_of_next (.cbr .addr (s.field .addr)) (exec_accept_addr s) (by simp) h
    | rows => exact trace_append_of_next (.cbr .rows (s.field .rows)) (exec_accept_rows s) (by simp) h
    | resp => exact trace_append_of_next (.cbw .resp 0) (exec_accept_resp s) (by simp) h
    | cmd =>
      by_cases hx : s.cmd = 0xFF
      · exact trace_append_of_next (.cbw .cmd 0) (exec_accept_cmd_exit s hx) (by simp) h
      · exact trace_append_of_next (.cbw .cmd 0) (exec_accept_cmd_start s hx) (by simp) h
  | latch => exact trace_append_of_next .latch (exec_latch s) (by simp) h
  | report part =>
    cases part with
    | ack => exact trace_append_of_next (.cbw .resp 1) (exec_report_ack s) (by simp) h
    | cyc => exact trace_append_of_next (.cbw .resp s.cyc) (exec_report_cyc s) (by simp) h
  | exit part =>
    cases part with
    | resp => exact trace_append_of_next (.cbw .resp 0xFF) (exec_exit_resp s) (by simp) h
    | notify => exact trace_append_of_next .notify (exec_exit_notify s) (by simp) h
    | halt => exact trace_append_of_next .halt (exec_exit_halt s) (by simp) h
  | loadRow =>
    cases ha : admitsRead s.config s.loadAddress with
    | true =>
      exact trace_append_of_next (.pxr s.loadAddress (s.mem.readWord s.loadAddress)) (exec_loadRow_of_admitted s ha)
        (by simp) h
    | false => cases (exec_loadRow_of_not_admitted s ha).symm.trans h
  | encode => exact absurd rfl hi.1
  | rise => exact trace_append_of_next (.gset s.k s.config.pinmask[s.k]) (exec_rise s) (by simp) h
  | selFall => exact trace_append_of_next (.gclr s.k s.zm[s.k]) (exec_selFall s) (by simp) h
  | fullFall => exact trace_append_of_next (.gclr s.k s.config.pinmask[s.k]) (exec_fullFall s) (by simp) h
  | advanceRow => exact absurd rfl hi.2

/-- The block's turn is taken with the trace as it was. -/
theorem State.turn_block_trace {s s' : State} (h : s.turn = .block s') : s'.trace = s.trace := by
  rw [State.turn_block h]

theorem State.bringPinsLow_trace (s : State) : s.bringPinsLow.trace = s.trace := by
  unfold State.bringPinsLow
  split <;> rfl

/-- No move of the environment is an event of the block's trace, a restart included (R15; log entry 12). -/
theorem State.turn_environment_trace {s t : State} (h : s.turn = .environment t) : t.trace = s.trace := by
  obtain ⟨m, rest, -, hm⟩ := State.turn_environment h
  obtain ⟨_, _, -, rfl⟩ | ⟨_, _, -, rfl⟩ | ⟨_, _, _, -, -, rfl⟩ | ⟨-, -, rfl⟩ | ⟨-, rfl⟩ | ⟨_, _, -, rfl⟩ | ⟨-, rfl⟩ |
    ⟨-, rfl⟩ := hm
  case inr.inr.inr.inr.inr.inr.inl => exact State.bringPinsLow_trace _
  all_goals rfl

/-- Settles O14: the block's step is exec of an instruction with one action, the environment's move leaves the trace. -/
theorem oneEventPerBlockStep : Obligations.OneEventPerBlockStep := by
  intro s t h
  obtain ⟨-, ⟨s', i, ht, hi, he⟩ | ht⟩ := step_next h
  · refine ⟨fun _ _ => ?_, fun _ h' => (nomatch ht.symm.trans h')⟩
    rw [← State.turn_block_trace ht]
    exact exec_appends_one_event (State.fetch_ne_encode_advanceRow hi) he
  · exact ⟨fun _ h' => (nomatch ht.symm.trans h'), fun _ _ => State.turn_environment_trace ht⟩

end Sys2Proof.Machine

namespace Sys2Proof.Machine

/-! ### The block's step, case by case: the control state it starts in and the state it leaves -/

/-- The steps of the block (R80, R140): one case per control state, with the decision it takes, and what the step leaves. -/
inductive BlockTransition (s : State) : State → Prop
  | boot (hx : s.ctl = .boot) : BlockTransition s ((s.cbWrite .resp 0).goto .awaitEntry)
  | notify (hx : s.ctl = .awaitEntry) : BlockTransition s (s.raiseNotify.goto .awaitPoll)
  | pollIdle (hx : s.ctl = .awaitPoll) (hv : s.field .cmd = 0) : BlockTransition s (s.latchCommand 0 .awaitPoll)
  | pollAccept (hx : s.ctl = .awaitPoll) (hv : s.field .cmd ≠ 0) :
      BlockTransition s (s.latchCommand (s.field .cmd) .accAddr)
  | acceptAddr (hx : s.ctl = .accAddr) : BlockTransition s s.acceptAddr
  | acceptRows (hx : s.ctl = .accRows) : BlockTransition s s.acceptRows
  | acceptResp (hx : s.ctl = .accResp) : BlockTransition s ((s.cbWrite .resp 0).goto .accCmd)
  | acceptExit (hx : s.ctl = .accCmd) (hv : s.cmd = 0xFF) : BlockTransition s ((s.cbWrite .cmd 0).goto .exitResp)
  | acceptStart (hx : s.ctl = .accCmd) (hv : s.cmd ≠ 0xFF) : BlockTransition s (s.cbWrite .cmd 0).enterTransmit
  | loadRow (hx : s.ctl = .transmit) (hp : s.phase = .load) (ha : admitsRead s.config s.loadAddress = true) :
      BlockTransition s s.loadChannel.nextChannel
  | rise (hx : s.ctl = .transmit) (hp : s.phase = .rise) :
      BlockTransition s (s.encodeAtCellStart.gpioSet s.k s.config.pinmask[s.k]).afterRise
  | selFall (hx : s.ctl = .transmit) (hp : s.phase = .mid) : BlockTransition s (s.gpioClear s.k s.zm[s.k]).afterSelFall
  | fullFall (hx : s.ctl = .transmit) (hp : s.phase = .low) :
      BlockTransition s (s.gpioClear s.k s.config.pinmask[s.k]).afterFullFall
  | latch (hx : s.ctl = .latchDelay) : BlockTransition s (s.latchDelay.goto .reportAck)
  | reportAck (hx : s.ctl = .reportAck) : BlockTransition s s.reportAck
  | reportCyc (hx : s.ctl = .reportCyc) : BlockTransition s ((s.cbWrite .resp s.cyc).goto .awaitEntry)
  | exitResp (hx : s.ctl = .exitResp) : BlockTransition s ((s.cbWrite .resp 0xFF).goto .exitNotify)
  | exitNotify (hx : s.ctl = .exitNotify) : BlockTransition s (s.raiseNotify.goto .exitHalt)
  | exitHalt (hx : s.ctl = .exitHalt) : BlockTransition s (s.haltEvent.goto .halted)

section BlockStep

variable {s t : State}

/-- In TRANSMIT the phase selects the instruction (R140). -/
theorem State.fetch_of_transmit (h : s.ctl = .transmit) : s.fetch = some s.fetchSequencer := by
  simp only [State.fetch, h]

/-- At AWAIT_POLL the command word selects the instruction (R62). -/
theorem State.fetch_of_awaitPoll (h : s.ctl = .awaitPoll) : s.fetch = some (decodeWord (s.field .cmd)) := by
  simp only [State.fetch, h, State.fetchCommand_eq]

/-- The poll's step: the command that CMD decodes to latches CMD's value (R83, R84). -/
theorem blockTransition_of_poll (hx : s.ctl = .awaitPoll) (h : exec (decodeWord (s.field .cmd)) s = .next t) :
    BlockTransition s t := by
  have hne : s.ctl ≠ .accCmd := by simp [hx]
  rw [decodeWord_eq] at h
  split_ifs at h with h0 h1
  · cases (exec_cmdIdle s).symm.trans h
    exact .pollIdle hx h0
  · cases (exec_cmdExit_of_ne s hne).symm.trans h
    rw [← h1]
    exact .pollAccept hx h0
  · cases (exec_cmdStart_of_ne s _ hne).symm.trans h
    exact .pollAccept hx h0

/-- The last step of ACCEPT takes the exit-vs-start test (R80). -/
theorem blockTransition_of_acceptCmd (hx : s.ctl = .accCmd) (h : exec (.accept .cmd) s = .next t) :
    BlockTransition s t := by
  by_cases hv : s.cmd = 0xFF
  · cases (exec_accept_cmd_exit s hv).symm.trans h
    exact .acceptExit hx hv
  · cases (exec_accept_cmd_start s hv).symm.trans h
    exact .acceptStart hx hv

/-- The Frame Sequencer's step (R140). -/
theorem blockTransition_of_transmit (hx : s.ctl = .transmit) (h : exec s.fetchSequencer s = .next t) :
    BlockTransition s t := by
  cases hp : s.phase <;> simp only [State.fetchSequencer, hp] at h
  case load =>
    cases ha : admitsRead s.config s.loadAddress with
    | true =>
      cases (exec_loadRow_of_admitted s ha).symm.trans h
      exact .loadRow hx hp ha
    | false => cases (exec_loadRow_of_not_admitted s ha).symm.trans h
  case rise => cases h; exact .rise hx hp
  case mid => cases h; exact .selFall hx hp
  case low => cases h; exact .fullFall hx hp

/-- The inversion of the block's step: every instruction that the block selects and completes is one of the transitions. -/
theorem blockTransition_of_exec {i : Instr} (hi : s.fetch = some i) (h : exec i s = .next t) : BlockTransition s t := by
  cases hx : s.ctl
  case awaitPoll =>
    cases (State.fetch_of_awaitPoll hx).symm.trans hi
    exact blockTransition_of_poll hx h
  case transmit =>
    cases (State.fetch_of_transmit hx).symm.trans hi
    exact blockTransition_of_transmit hx h
  all_goals
    simp only [State.fetch, hx] at hi
    cases hi
  case accCmd => exact blockTransition_of_acceptCmd hx h
  all_goals cases h
  case boot => exact .boot hx
  case awaitEntry => exact .notify hx
  case accAddr => exact .acceptAddr hx
  case accRows => exact .acceptRows hx
  case accResp => exact .acceptResp hx
  case latchDelay => exact .latch hx
  case reportAck => exact .reportAck hx
  case reportCyc => exact .reportCyc hx
  case exitResp => exact .exitResp hx
  case exitNotify => exact .exitNotify hx
  case exitHalt => exact .exitHalt hx

/-- The inversion of a step: the configuration passed R10, and either the block made a transition from the state with its
turn taken, or the environment moved. -/
theorem step_next_cases (h : step s = .next t) :
    failedCheck s.config = none ∧
      ((∃ s', s.turn = .block s' ∧ BlockTransition s' t) ∨ s.turn = .environment t) := by
  obtain ⟨hc, ⟨s', i, ht, hi, he⟩ | ht⟩ := step_next h
  · exact ⟨hc, .inl ⟨s', ht, blockTransition_of_exec hi he⟩⟩
  · exact ⟨hc, .inr ht⟩

/-- No transition of the block writes the configuration (R38): the shared operations leave it as it is. -/
theorem BlockTransition.config (h : BlockTransition s t) : t.config = s.config := by
  cases h <;> simp

end BlockStep

/-! ### What the environment's moves leave alone -/

section Environment

variable {s t : State}

/-- Driving the controlled pins low writes OUT only. -/
theorem State.bringPinsLow_frame (s : State) : s.bringPinsLow = { s with out := s.bringPinsLow.out } := by
  unfold State.bringPinsLow
  split <;> rfl

/-- The producer writes no RESP (R35, R202). -/
theorem State.field_resp_producerWrite (f : ProducerField) (v : Word) (s : State) :
    (s.producerWrite f v).field .resp = s.field .resp :=
  cbGet_cbPut_of_ne s.cb v (by cases f <;> decide)

/-- A move of the environment other than a restart leaves RESP and the block's registers alone (R35, R202). -/
theorem State.turn_environment_frame (h : s.turn = .environment t) (hr : s.moves.head? ≠ some .restart) :
    t.field .resp = s.field .resp ∧
    t = { s with cb := t.cb, mem := t.mem, out := t.out, notifyPending := t.notifyPending, moves := t.moves } := by
  obtain ⟨m, rest, hmoves, hm⟩ := State.turn_environment h
  obtain ⟨f, v, -, rfl⟩ | ⟨_, _, -, rfl⟩ | ⟨_, _, _, -, -, rfl⟩ | ⟨-, -, rfl⟩ | ⟨-, rfl⟩ | ⟨_, _, -, rfl⟩ | ⟨-, rfl⟩ |
    ⟨rfl, -⟩ := hm
  case inl => exact ⟨State.field_resp_producerWrite f v _, rfl⟩
  case inr.inr.inr.inr.inr.inr.inl => rw [State.bringPinsLow_frame]; exact ⟨rfl, rfl⟩
  case inr.inr.inr.inr.inr.inr.inr => exact absurd (by simp [hmoves]) hr
  all_goals exact ⟨rfl, rfl⟩

/-- A restart takes its move and resets the block. -/
theorem State.turn_of_moves_restart {rest : List Move} (h : s.moves = .restart :: rest) :
    s.turn = .environment (State.restart { s with moves := rest }) := by
  simp [State.turn, h]

/-- A move of the environment is a restart, or leaves RESP and the block's registers alone. -/
theorem State.turn_environment_restart_or_frame (h : s.turn = .environment t) :
    (∃ rest, t = State.restart { s with moves := rest }) ∨
    t = { s with cb := t.cb, mem := t.mem, out := t.out, notifyPending := t.notifyPending, moves := t.moves } := by
  by_cases hr : s.moves.head? = some .restart
  · obtain ⟨rest, hmoves⟩ := List.head?_eq_some_iff.1 hr
    cases (State.turn_of_moves_restart hmoves).symm.trans h
    exact .inl ⟨rest, rfl⟩
  · exact .inr (State.turn_environment_frame h hr).2

theorem State.turn_environment_config (h : s.turn = .environment t) : t.config = s.config := by
  obtain ⟨rest, rfl⟩ | hf := State.turn_environment_restart_or_frame h
  · rfl
  · rw [hf]

/-- The canonical form of the memory survives every move of the environment: only `WPIX` writes it. -/
theorem State.turn_environment_mem_wf (h : s.turn = .environment t) (hm : s.mem.wf = true) : t.mem.wf = true := by
  obtain ⟨m, rest, -, hcase⟩ := State.turn_environment h
  obtain ⟨_, _, -, rfl⟩ | ⟨a, xs, -, rfl⟩ | ⟨_, _, _, -, -, rfl⟩ | ⟨-, -, rfl⟩ | ⟨-, rfl⟩ | ⟨_, _, -, rfl⟩ | ⟨-, rfl⟩ |
    ⟨-, rfl⟩ := hcase
  case inr.inl => exact Memory.wf_writeBytes a xs hm
  case inr.inr.inr.inr.inr.inr.inl => rw [State.bringPinsLow_frame]; exact hm
  all_goals exact hm

end Environment

/-! ### The invariant -/

/-- A zero mask names controlled pins only (R102): it ends in the conjunction with PINMASK. -/
theorem zeroMask_and_not_pinmask (cfg : Config) (w : Vector Word 24) (b : Fin 24) (k : Fin 4) :
    zeroMask cfg w b k &&& ~~~cfg.pinmask[k] = 0 := by
  rw [zeroMask, BitVec.and_assoc, BitVec.and_not_self]
  exact BitVec.and_zero

/-- ZM names controlled pins only: what `State.Inv.maskedZm` says. -/
abbrev State.ZmWithinPinmask (s : State) : Prop := ∀ k : Fin 4, s.zm[k] &&& ~~~s.config.pinmask[k] = 0

section Invariant

variable {s t : State}

/-- Outside TRANSMIT the invariant asks only for the latched command beside memory and ZM. -/
theorem State.inv_of_not_transmit (hm : s.mem.wf = true) (hz : s.ZmWithinPinmask)
    (hx : s.ctl ≠ .transmit) (ha : s.ctl.accepting = true → s.cmd ≠ 0) (he : s.ctl.exiting = true → s.cmd = 0xFF) :
    s.Inv where
  memory := hm
  accepted := ha
  exitCommand := he
  rowsLeft h := absurd h hx
  repetition h := absurd h hx
  masks h := absurd h hx
  maskedZm := hz

/-- In TRANSMIT the invariant asks nothing of the latched command. -/
theorem State.inv_of_transmit (hm : s.mem.wf = true) (hz : s.ZmWithinPinmask)
    (hx : s.ctl = .transmit) (hn : s.n ≠ 0) (hi : s.phase ≠ .load → s.i < phaseReps s.config s.phase)
    (hd : s.masksDue = true → s.zm = Vector.ofFn (zeroMask s.config s.w s.b)) : s.Inv where
  memory := hm
  accepted := by simp [hx, Ctl.accepting]
  exitCommand := by simp [hx, Ctl.exiting]
  rowsLeft _ := hn
  repetition _ := hi
  masks _ := hd
  maskedZm := hz

/-- While a row is loaded no repetition index and no mask is due. -/
theorem State.inv_of_load (hm : s.mem.wf = true) (hz : s.ZmWithinPinmask)
    (hx : s.ctl = .transmit) (hn : s.n ≠ 0) (hp : s.phase = .load) : s.Inv :=
  State.inv_of_transmit hm hz hx hn (fun h => absurd hp h) (by simp [State.masksDue, hp])

/-- At the start of a cell the masks are not due yet, and R10's WF5 gives the sweep a repetition. -/
theorem State.inv_of_cellStart (hm : s.mem.wf = true) (hz : s.ZmWithinPinmask)
    (hx : s.ctl = .transmit) (hn : s.n ≠ 0) (hp : s.phase = .rise) (hi : s.i = 0) (hk : s.k = 0)
    (hc : failedCheck s.config = none) : s.Inv := by
  obtain ⟨hr, -, -⟩ := (failedCheck_eq_none_iff s.config).1 hc .wf5
  exact State.inv_of_transmit hm hz hx hn (fun _ => by rw [hp, hi]; exact hr)
    (by simp [State.masksDue, hp, hi, hk])

/-- With the cell's masks in ZM, the masks are within PINMASK by R102. -/
theorem State.inv_of_masks (hm : s.mem.wf = true) (hz : s.zm = Vector.ofFn (zeroMask s.config s.w s.b))
    (hx : s.ctl = .transmit) (hn : s.n ≠ 0) (hi : s.i < phaseReps s.config s.phase) : s.Inv :=
  State.inv_of_transmit hm (fun k => by simpa [hz] using zeroMask_and_not_pinmask s.config s.w s.b k) hx hn (fun _ => hi)
    fun _ => hz

/-- The invariant reads neither the control block, nor OUT, the notifications or the moves; of the memory, its form. -/
theorem State.Inv.of_frame (hs : s.Inv)
    (h : t = { s with cb := t.cb, mem := t.mem, out := t.out, notifyPending := t.notifyPending, moves := t.moves })
    (hm : t.mem.wf = true) : t.Inv := by
  rw [h]
  exact { hs with memory := hm }

/-- In BOOT no command is latched and no frame is being sent. -/
theorem State.inv_of_boot (hm : s.mem.wf = true) (hz : s.ZmWithinPinmask) (hx : s.ctl = .boot) : s.Inv :=
  State.inv_of_not_transmit hm hz (by simp [hx]) (by simp [hx, Ctl.accepting]) (by simp [hx, Ctl.exiting])

/-- After a restart ZM is within PINMASK because the model gives it 0 (log entry 4). -/
theorem State.Inv.restart (hs : s.Inv) : s.restart.Inv :=
  State.inv_of_boot hs.memory (fun k => by simp [State.restart, State.reset]) rfl

theorem State.Inv.turn_environment (hs : s.Inv) (h : s.turn = .environment t) : t.Inv := by
  have hm := State.turn_environment_mem_wf h hs.memory
  obtain ⟨rest, rfl⟩ | hf := State.turn_environment_restart_or_frame h
  · exact State.Inv.restart (hs.of_frame rfl hs.memory)
  · exact hs.of_frame hf hm

theorem State.Inv.turn_block (hs : s.Inv) (h : s.turn = .block t) : t.Inv := by
  rw [State.turn_block h]
  exact hs.of_frame rfl hs.memory

/-- The invariant does not read the control block or the trace. -/
theorem State.Inv.cbWrite (hs : s.Inv) (f : CbField) (v : Word) : (s.cbWrite f v).Inv :=
  { hs with memory := hs.memory }

/-- The invariant does not read OUT or the trace. -/
theorem State.Inv.gpioSet (hs : s.Inv) (k : Fin 4) (m : Word) : (s.gpioSet k m).Inv :=
  { hs with memory := hs.memory }

theorem State.Inv.gpioClear (hs : s.Inv) (k : Fin 4) (m : Word) : (s.gpioClear k m).Inv :=
  { hs with memory := hs.memory }

theorem State.Inv.loadChannel (hs : s.Inv) (hp : s.phase = .load) : s.loadChannel.Inv :=
  { hs with memory := hs.memory, masks := fun _ hd => by simp [State.masksDue, hp] at hd }

/-- TRANSMIT is entered with a row to load, or not at all (R87). -/
theorem State.Inv.enterTransmit (hs : s.Inv) : s.enterTransmit.Inv := by
  by_cases hr : s.rows = 0
  · rw [State.enterTransmit_of_eq_zero hr]
    exact State.inv_of_not_transmit hs.memory hs.maskedZm nofun nofun nofun
  · rw [State.enterTransmit_of_ne_zero hr]
    exact State.inv_of_load hs.memory hs.maskedZm rfl hr rfl

/-- The next row is loaded, or the frame ends: either way `n` is not 0 in TRANSMIT (R143). -/
theorem State.inv_stepRow (hm : s.mem.wf = true) (hz : s.ZmWithinPinmask)
    (hx : s.ctl = .transmit) : s.stepRow.Inv := by
  by_cases hn : s.n - 1 = 0
  · rw [State.stepRow_of_eq_zero hn]
    exact State.inv_of_not_transmit hm hz nofun nofun nofun
  · rw [State.stepRow_of_ne_zero hn]
    exact State.inv_of_load hm hz hx hn rfl

/-- A channel read leads to the next read or to the row's first cell (R141). -/
theorem State.Inv.nextChannel (hs : s.Inv) (hc : failedCheck s.config = none) (hx : s.ctl = .transmit)
    (hp : s.phase = .load) : s.nextChannel.Inv := by
  obtain ⟨-, h⟩ | ⟨-, h⟩ := s.nextChannel_cases <;> rw [h]
  · exact State.inv_of_load hs.memory hs.maskedZm hx (hs.rowsLeft hx) hp
  · exact State.inv_of_cellStart hs.memory hs.maskedZm hx (hs.rowsLeft hx) rfl rfl rfl hc

/-- From the first RISE step of a cell on ZM holds the cell's masks: that step encodes them (R101, R122). -/
theorem State.Inv.encodeAtCellStart_zm (hs : s.Inv) (hx : s.ctl = .transmit) (hp : s.phase = .rise) :
    s.encodeAtCellStart.zm = Vector.ofFn (zeroMask s.config s.w s.b) := by
  unfold State.encodeAtCellStart
  split
  · rfl
  · next h => exact hs.masks hx (by simpa [State.masksDue, hp, imp_iff_not_or] using h)

/-- ENCODE at the start of a cell gives ZM the masks that the invariant asks for. -/
theorem State.Inv.encodeAtCellStart (hs : s.Inv) (hx : s.ctl = .transmit) (hp : s.phase = .rise) :
    s.encodeAtCellStart.Inv := by
  unfold State.encodeAtCellStart
  split
  · exact State.inv_of_masks hs.memory rfl hx (hs.rowsLeft hx) (hs.repetition hx (by simp [hp]))
  · exact hs

/-- With the cell's masks in ZM, the position after a RISE write is in the same cell: the next bank, the next sweep or the
selective fall, to which WF5 gives a sweep (R122). -/
theorem State.Inv.afterRise (hs : s.Inv) (hc : failedCheck s.config = none) (hx : s.ctl = .transmit) (hp : s.phase = .rise)
    (hz : s.zm = Vector.ofFn (zeroMask s.config s.w s.b)) : s.afterRise.Inv := by
  obtain ⟨-, hmid, -⟩ := (failedCheck_eq_none_iff s.config).1 hc .wf5
  have hi := hs.repetition hx (by simp [hp])
  obtain ⟨-, h⟩ | ⟨-, hr, h⟩ | ⟨-, -, h⟩ := s.afterRise_cases <;> rw [h] <;>
    refine State.inv_of_masks hs.memory hz hx (hs.rowsLeft hx) ?_
  · exact hi
  · rw [hp]; exact hr
  · exact hmid

/-- The step of RISE: ENCODE at the start of a cell, the write, the next position (R122). -/
theorem State.Inv.rise (hs : s.Inv) (hc : failedCheck s.config = none) (hx : s.ctl = .transmit) (hp : s.phase = .rise) :
    (s.encodeAtCellStart.gpioSet s.k s.config.pinmask[s.k]).afterRise.Inv :=
  ((hs.encodeAtCellStart hx hp).gpioSet _ _).afterRise (by simpa using hc) (by simpa using hx) (by simpa using hp)
    (by simpa using hs.encodeAtCellStart_zm hx hp)

/-- A SEL_FALL step stays in the cell: the next bank, the next sweep or the full fall, to which WF5 gives a sweep (R123). -/
theorem State.Inv.afterSelFall (hs : s.Inv) (hc : failedCheck s.config = none) (hx : s.ctl = .transmit)
    (hp : s.phase = .mid) : s.afterSelFall.Inv := by
  obtain ⟨-, -, hlow⟩ := (failedCheck_eq_none_iff s.config).1 hc .wf5
  have hi := hs.repetition hx (by simp [hp])
  have hz := hs.masks hx (by simp [State.masksDue, hp])
  obtain ⟨-, h⟩ | ⟨-, hr, h⟩ | ⟨-, -, h⟩ := s.afterSelFall_cases <;> rw [h] <;>
    refine State.inv_of_masks hs.memory hz hx (hs.rowsLeft hx) ?_
  · exact hi
  · rw [hp]; exact hr
  · exact hlow

/-- A FULL_FALL step stays in the cell, starts the next cell of the row, or ends the row (R124). -/
theorem State.Inv.afterFullFall (hs : s.Inv) (hc : failedCheck s.config = none) (hx : s.ctl = .transmit)
    (hp : s.phase = .low) : s.afterFullFall.Inv := by
  have hi := hs.repetition hx (by simp [hp])
  have hz := hs.masks hx (by simp [State.masksDue, hp])
  have hn := hs.rowsLeft hx
  obtain ⟨-, h⟩ | ⟨-, hr, h⟩ | ⟨-, -, -, h⟩ | ⟨-, -, -, h⟩ := s.afterFullFall_cases <;> rw [h]
  · exact State.inv_of_masks hs.memory hz hx hn hi
  · exact State.inv_of_masks hs.memory hz hx hn (by rw [hp]; exact hr)
  · exact State.inv_of_cellStart hs.memory hs.maskedZm hx hn rfl rfl rfl hc
  · exact State.inv_stepRow hs.memory hs.maskedZm hx

/-- REPORT_ACK goes on to the count or back to AWAIT_ENTRY (R89). -/
theorem State.Inv.reportAck (hs : s.Inv) : s.reportAck.Inv := by
  unfold State.reportAck
  split <;> exact State.inv_of_not_transmit hs.memory hs.maskedZm nofun nofun nofun

/-- Every transition of the block keeps the invariant. -/
theorem BlockTransition.inv (h : BlockTransition s t) (hs : s.Inv) (hc : failedCheck s.config = none) : t.Inv := by
  cases h
  case loadRow hx hp _ => exact (hs.loadChannel hp).nextChannel hc hx hp
  case rise hx hp => exact hs.rise hc hx hp
  case selFall hx hp => exact (hs.gpioClear _ _).afterSelFall hc hx hp
  case fullFall hx hp => exact (hs.gpioClear _ _).afterFullFall hc hx hp
  case acceptStart => exact (hs.cbWrite _ _).enterTransmit
  case reportAck => exact hs.reportAck
  all_goals refine State.inv_of_not_transmit hs.memory hs.maskedZm nofun ?_ ?_
  case pollAccept.refine_1 hv => exact fun _ => hv
  case acceptAddr.refine_1 hx => exact fun _ => hs.accepted (by rw [hx]; rfl)
  case acceptRows.refine_1 hx => exact fun _ => hs.accepted (by rw [hx]; rfl)
  case acceptResp.refine_1 hx => exact fun _ => hs.accepted (by rw [hx]; rfl)
  case acceptExit.refine_2 hv => exact fun _ => hv
  case exitResp.refine_2 hx => exact fun _ => hs.exitCommand (by rw [hx]; rfl)
  case exitNotify.refine_2 hx => exact fun _ => hs.exitCommand (by rw [hx]; rfl)
  case exitHalt.refine_2 hx => exact fun _ => hs.exitCommand (by rw [hx]; rfl)
  all_goals exact nofun

end Invariant

/-- Settles O59: the block's turn, each transition of the block and each move of the environment keep the invariant. -/
theorem stepKeepsTheRunConditions : Obligations.StepKeepsTheRunConditions := by
  intro s t hs h
  obtain ⟨hc, ⟨s', ht, hb⟩ | ht⟩ := step_next_cases h
  · exact hb.inv (hs.turn_block ht) (by rw [State.turn_block ht]; exact hc)
  · exact hs.turn_environment ht

/-- Settles O58: reset is in BOOT, with the model's empty memory and ZM of 0 (log entries 3 and 4). -/
theorem resetSatisfiesTheRunConditions : Obligations.ResetSatisfiesTheRunConditions :=
  State.inv_of_boot rfl (fun k => by simp [State.reset]) rfl

/-- Settles O15: neither a transition of the block nor a move of the environment writes it. -/
theorem configurationIsNeverWritten : Obligations.ConfigurationIsNeverWritten := by
  intro s t h
  obtain ⟨-, ⟨s', ht, hb⟩ | ht⟩ := step_next_cases h
  · rw [hb.config, State.turn_block ht]
  · exact State.turn_environment_config ht

/-- Settles O16: the restart is the environment's move, and its result's fields are those of reset or the old ones. -/
theorem resetEntersBoot : Obligations.ResetEntersBoot :=
  ⟨rfl, rfl, fun _ _ hc hm =>
    ⟨_, step_of_environment hc (State.turn_of_moves_restart hm), rfl, rfl, rfl, rfl, rfl, rfl, rfl⟩⟩

/-- Settles O10: `fetch` case by case; in TRANSMIT by the phase, at AWAIT_POLL by CMD's decoding. -/
theorem controlStateSelectsTheInstruction : Obligations.ControlStateSelectsTheInstruction := by
  intro s
  refine ⟨?_, ?_, State.fetch_of_awaitPoll, ?_, ?_, ?_, ?_, ?load, ?rise, ?mid, ?low, ?_, ?_, ?_, ?_, ?_, ?_, ?_⟩
  case load | rise | mid | low => intro hx hp; rw [State.fetch_of_transmit hx, State.fetchSequencer, hp]
  all_goals intro hx; rw [State.fetch, hx]

/-! ### The control block, bit by bit -/

/-- Bit `8·j + b` of a field is bit `b` of its byte `j` (R44, R61). -/
theorem cbGet_getLsbD (cb : ControlBlock) (f : CbField) (j : Fin 4) {b : Nat} (hb : b < 8) :
    (cbGet cb f).getLsbD (8 * j.val + b) = (cb[f.offset + j.val]'(f.offset_add_lt j)).getLsbD b := by
  rw [← byteOfWord_cbGet, byteOfWord_getLsbD, decide_eq_true hb, Bool.true_and]

/-- Settles O5: the bits of a field by its bytes, a field read after its write, and the bytes a write leaves alone. -/
theorem controlBlockByteLayout : Obligations.ControlBlockByteLayout := by
  refine ⟨fun cb j b hj hb => ?_, fun cb f v => ⟨cbGet_cbPut_self cb f v, fun x hx hne => ?_⟩⟩
  · exact ⟨cbGet_getLsbD cb .addr ⟨j, hj⟩ hb, cbGet_getLsbD cb .rows ⟨j, hj⟩ hb, cbGet_getLsbD cb .cmd ⟨j, hj⟩ hb,
      cbGet_getLsbD cb .resp ⟨j, hj⟩ hb⟩
  · rw [cbPut_getElem, if_neg hne]

/-! ### The platform's moves -/

/-- A write of the pins outside PINMASK moves one bank, and there each pin by whether PINMASK holds it (R30). -/
theorem State.setOtherPins_out (k : Fin 4) (levels : Word) (s : State) :
    (∀ j : Fin 4, j ≠ k → (s.setOtherPins k levels).out[j] = s.out[j]) ∧
    ∀ p : Fin 32, (s.setOtherPins k levels).out[k].getLsbD p.val =
      if s.config.pinmask[k].getLsbD p.val then s.out[k].getLsbD p.val else levels.getLsbD p.val := by
  refine ⟨fun j hj => ?_, fun p => ?_⟩
  · exact Vector.getElem_set_ne k.isLt j.isLt fun h => hj (Fin.ext h.symm)
  · have hk : (s.setOtherPins k levels).out[k] =
        (s.out[k] &&& s.config.pinmask[k]) ||| (levels &&& ~~~s.config.pinmask[k]) := Vector.getElem_set_self k.isLt
    simp only [hk, BitVec.getLsbD_or, BitVec.getLsbD_and, BitVec.getLsbD_not, p.isLt, decide_true, Bool.true_and]
    cases s.config.pinmask[k].getLsbD p.val <;> simp

/-- Driving the pins low does nothing outside BOOT (R193; log entry 11). -/
theorem State.bringPinsLow_of_ne_boot {s : State} (hx : s.ctl ≠ .boot) : s.bringPinsLow = s := if_neg hx

/-- Driving the pins low in BOOT clears the controlled pins and keeps the others (R193). -/
theorem State.bringPinsLow_of_boot {s : State} (hx : s.ctl = .boot) :
    s.bringPinsLow.PinsLow ∧ ∀ k : Fin 4, s.bringPinsLow.otherPins k = s.otherPins k := by
  have hout : s.bringPinsLow = { s with out := Vector.ofFn fun k => s.out[k] &&& ~~~s.config.pinmask[k] } := if_pos hx
  rw [hout]
  refine ⟨fun k => ?_, fun k => ?_⟩
  · simp [State.BankLow, BitVec.and_assoc]
  · simp [State.otherPins, BitVec.and_assoc]

section PlatformMoves

variable {s : State} {rest : List Move}

theorem State.turn_of_moves_dropNotification (h : s.moves = .dropNotification :: rest) :
    s.turn = .environment { s with moves := rest, notifyPending := s.notifyPending - 1 } := by
  simp [State.turn, h]

theorem State.turn_of_moves_otherPins {k : Fin 4} {levels : Word} (h : s.moves = .otherPins k levels :: rest) :
    s.turn = .environment (State.setOtherPins k levels { s with moves := rest }) := by
  simp [State.turn, h]

theorem State.turn_of_moves_pinsLow (h : s.moves = .pinsLow :: rest) :
    s.turn = .environment (State.bringPinsLow { s with moves := rest }) := by
  simp [State.turn, h]

end PlatformMoves

/-- Settles O34: the frame of every move but the restart, and the three moves of the platform. -/
theorem environmentLeavesTheBlockAlone : Obligations.EnvironmentLeavesTheBlockAlone := by
  refine ⟨fun _ _ => State.turn_environment_frame,
    fun _ _ hc hm => step_of_environment hc (State.turn_of_moves_dropNotification hm),
    fun s k levels rest hc hm => ?_, fun s rest hc hm => ?_⟩
  · exact ⟨_, step_of_environment hc (State.turn_of_moves_otherPins hm), rfl,
      State.setOtherPins_out k levels { s with moves := rest }⟩
  · refine ⟨_, step_of_environment hc (State.turn_of_moves_pinsLow hm), State.bringPinsLow_frame _, fun hx => ?_,
      State.bringPinsLow_of_boot (s := { s with moves := rest })⟩
    rw [State.bringPinsLow_of_ne_boot (s := { s with moves := rest }) hx]

end Sys2Proof.Machine

namespace Sys2Proof.Machine

/-! ### The system memory: words, alignment and the reads that R49 admits -/

/-- Below 2^32 the addresses counted up from `a` are different ones (R59). -/
theorem add_ofNat_ne (a : Word) {i j : Nat} (hij : i < j) (hj : j < 2 ^ 32) :
    a + BitVec.ofNat 32 j ≠ a + BitVec.ofNat 32 i := by
  intro h
  have hn := congrArg BitVec.toNat ((BitVec.add_right_inj a).1 h)
  rw [BitVec.toNat_ofNat, BitVec.toNat_ofNat, Nat.mod_eq_of_lt hj, Nat.mod_eq_of_lt (hij.trans hj)] at hn
  omega

/-- After a write of at most 2^32 bytes, none overwriting another, each address reads as the byte written to it. -/
theorem Memory.readByte_writeBytes_of_length_le {m : Memory} (a : Word) (vs : List Byte) (h : m.wf = true)
    (hl : vs.length ≤ 2 ^ 32) (j : Nat) (hj : j < vs.length) :
    (m.writeBytes a vs).readByte (a + BitVec.ofNat 32 j).toNat = vs[j] :=
  Memory.readByte_writeBytes a vs h j hj fun _ hlt hlt' => add_ofNat_ne a hlt (hlt'.trans_le hl)

/-- A word's bytes, written in the order of R44, read back as the word. -/
theorem Memory.readWord_writeBytes_bytesOfWord {m : Memory} (a v : Word) (h : m.wf = true) :
    (m.writeBytes a (bytesOfWord v)).readWord a = v := by
  have hread (j : Nat) (hj : j < 4) := Memory.readByte_writeBytes_of_length_le a (bytesOfWord v) h (by simp [bytesOfWord]) j hj
  have h0 : (m.writeBytes a (bytesOfWord v)).readByte a.toNat = byteOfWord v 0 := by
    simpa [bytesOfWord] using hread 0 (by decide)
  have h1 : (m.writeBytes a (bytesOfWord v)).readByte (a + 1).toNat = byteOfWord v 1 := hread 1 (by decide)
  have h2 : (m.writeBytes a (bytesOfWord v)).readByte (a + 2).toNat = byteOfWord v 2 := hread 2 (by decide)
  have h3 : (m.writeBytes a (bytesOfWord v)).readByte (a + 3).toNat = byteOfWord v 3 := hread 3 (by decide)
  rw [Memory.readWord, h0, h1, h2, h3, wordOfBytes_byteOfWord]

/-- Settles O4: the four addresses are different ones, so no byte of the word is overwritten. -/
theorem pixelWordReadsBackLittleEndian : Obligations.PixelWordReadsBackLittleEndian := by
  intro m a v hm
  refine ⟨Memory.readWord_writeBytes_bytesOfWord a v hm, Memory.wf_writeBytes a _ hm, fun x h0 h1 h2 h3 => ?_⟩
  refine Memory.readByte_writeBytes_of_ne m a _ x fun j hj => ?_
  match j, hj with
  | 0, _ => simpa using h0
  | 1, _ => exact h1
  | 2, _ => exact h2
  | 3, _ => exact h3

/-- An offset of a multiple of 4 keeps an address's alignment, over the wrap at 2^32 too (R46, R59). -/
theorem toNat_add_ofNat_four_mul_mod_four (a : Word) (n : Nat) : (a + BitVec.ofNat 32 (4 * n)).toNat % 4 = a.toNat % 4 := by
  rw [BitVec.toNat_add, BitVec.toNat_ofNat]
  omega

/-- Settles O55: the offsets 4·c and 96 are multiples of 4. -/
theorem alignedRowsHaveAlignedReads : Obligations.AlignedRowsHaveAlignedReads := fun ptr c h =>
  ⟨(toNat_add_ofNat_four_mul_mod_four ptr c.val).trans h, (toNat_add_ofNat_four_mul_mod_four ptr 24).trans h⟩

/-- An address is in ADMIT when one of its ranges holds it (R49). -/
theorem admits_iff (cfg : Config) (a : Word) :
    admits cfg a = true ↔ ∃ r ∈ cfg.admitted, r.base ≤ a.toNat ∧ a.toNat < r.base + r.size := by
  simp only [admits, List.any_eq_true, Bool.and_eq_true, decide_eq_true_eq]

/-- R49's condition on a read, over the four addresses by their offsets. -/
theorem admitsRead_iff (cfg : Config) (a : Word) :
    admitsRead cfg a = true ↔ a.toNat % 4 = 0 ∧ ∀ j : Fin 4, admits cfg (a + BitVec.ofNat 32 j.val) = true := by
  have h0 : a + BitVec.ofNat 32 0 = a := BitVec.add_zero a
  simp only [admitsRead, Bool.and_eq_true, beq_iff_eq, Fin.forall_fin_succ, and_assoc]
  simp [h0]

/-- LOAD_ROW is stuck exactly when its read is not admitted (R49). -/
theorem exec_loadRow_eq_fault_iff (s : State) :
    exec .loadRow s = .fault (.stuckUnadmittedRead s.loadAddress) ↔ ¬ admitsRead s.config s.loadAddress = true := by
  cases h : admitsRead s.config s.loadAddress with
  | true => simp [exec_loadRow_of_admitted s h]
  | false => simp [exec_loadRow_of_not_admitted s h]

/-- Settles O53: the fault is the negation of R49's condition, written out. -/
theorem unadmittedReadIsStuck : Obligations.UnadmittedReadIsStuck := by
  intro s
  rw [exec_loadRow_eq_fault_iff, admitsRead_iff]
  simp only [admits_iff]

/-! ### The producer's moves -/

section ProducerMoves

variable {s : State} {rest : List Move}

theorem State.turn_of_moves_w32 {f : ProducerField} {v : Word} (h : s.moves = .w32 f v :: rest) :
    s.turn = .environment (State.producerWrite f v { s with moves := rest }) := by
  simp [State.turn, h]

theorem State.turn_of_moves_wpix {a : Word} {xs : List Byte} (h : s.moves = .wpix a xs :: rest) :
    s.turn = .environment (State.producerPixels a xs { s with moves := rest }) := by
  simp [State.turn, h]

/-- A `WAIT` whose condition holds is passed (R73). -/
theorem State.turn_of_moves_wait_of_holds {f : CbField} {c : WaitTest} {v : Word} (h : s.moves = .wait f c v :: rest)
    (hw : s.waitHolds f c v = true) : s.turn = .environment { s with moves := rest } := by
  simp [State.turn, h, hw]

/-- A `WAIT` whose condition does not hold gives the turn to the block and stays (R73; log entry 7). -/
theorem State.turn_of_moves_wait_of_not_holds {f : CbField} {c : WaitTest} {v : Word}
    (h : s.moves = .wait f c v :: rest) (hw : s.waitHolds f c v = false) : s.turn = .block s := by
  simp [State.turn, h, hw]

/-- A `WAITN` takes a pending notification (R73; log entry 6). -/
theorem State.turn_of_moves_waitn_of_pending (h : s.moves = .waitn :: rest) (hn : s.notifyPending ≠ 0) :
    s.turn = .environment { s with moves := rest, notifyPending := s.notifyPending - 1 } := by
  simp [State.turn, h, hn]

/-- A `WAITN` with no notification pending gives the turn to the block and stays (R73; log entry 7). -/
theorem State.turn_of_moves_waitn_of_not_pending (h : s.moves = .waitn :: rest) (hn : s.notifyPending = 0) :
    s.turn = .block s := by
  simp [State.turn, h, hn]

/-- With the block's turn, the step is the block's. -/
theorem step_of_turn_block {s' : State} (hc : failedCheck s.config = none) (ht : s.turn = .block s') :
    step s = s'.blockStep := by
  simp [step, hc, ht]

end ProducerMoves

/-- Settles O36: each move's turn, and the bytes that the write of `WPIX` leaves. -/
theorem producerMovesFollowTheScript : Obligations.ProducerMovesFollowTheScript := by
  intro s rest hc
  have stays (h : s.turn = .block s) : s.turn = .block s ∧ step s = s.blockStep := ⟨h, step_of_turn_block hc h⟩
  refine ⟨fun f v hm => ⟨fun hv => ?_, fun hv => ?_⟩, fun f v hm => ⟨fun hv => ?_, fun hv => ?_⟩,
    fun hm => ⟨fun hn => ?_, fun hn => ?_⟩, fun a xs hm hwf => ?_⟩
  · exact step_of_environment hc (State.turn_of_moves_wait_of_holds hm (by simp [State.waitHolds, hv]))
  · exact stays (State.turn_of_moves_wait_of_not_holds hm (by simp [State.waitHolds, hv]))
  · exact step_of_environment hc (State.turn_of_moves_wait_of_holds hm (by simp [State.waitHolds, hv]))
  · exact stays (State.turn_of_moves_wait_of_not_holds hm (by simp [State.waitHolds, hv]))
  · exact step_of_environment hc (State.turn_of_moves_waitn_of_pending hm hn)
  · exact stays (State.turn_of_moves_waitn_of_not_pending hm hn)
  · exact ⟨_, step_of_environment hc (State.turn_of_moves_wpix hm), rfl,
      fun j hj hlast => Memory.readByte_writeBytes a xs hwf j hj hlast,
      fun x hx => Memory.readByte_writeBytes_of_ne s.mem a xs x hx⟩

/-! ### A command that overlaps the one being accepted -/

/-- A run goes on from the state that its first step leaves. -/
theorem core_run_succ {s t : State} (h : step s = .next t) (k : Nat) : core.run (k + 1) s = core.run k t := by
  simp only [Host.Core.run, show core.step s = .next t from h]

/-- The control state of ACCEPT with `r` steps to go before the one that clears CMD (R80, R85). -/
def acceptCtl : Nat → Ctl
  | 0 => .accCmd
  | 1 => .accResp
  | 2 => .accRows
  | _ => .accAddr

/-- The poll has latched `cmd`, ROWS holds `rows`, and ACCEPT has `r` steps to go before the clear. Nothing is said of the
word in CMD. -/
structure State.Accepting (s : State) (cmd rows : Word) (r : Nat) : Prop where
  config : failedCheck s.config = none
  ctl : s.ctl = acceptCtl r
  latched : s.cmd = cmd
  fieldRows : s.field .rows = rows
  /-- ACC_ROWS has latched ROWS. -/
  latchedRows : r ≤ 1 → s.rows = rows

/-- CMD is cleared and the command latched is the one executed (R80, R87). -/
structure State.Cleared (t : State) (cmd rows : Word) : Prop where
  fieldCmd : t.field .cmd = 0
  latched : t.cmd = cmd
  ctl : t.ctl = if cmd = 0xFF then .exitResp else if rows = 0 then .latchDelay else .transmit

section Accepting

variable {s : State} {cmd rows : Word} {r : Nat}

/-- Which moves are to come is nothing to ACCEPT. -/
theorem State.Accepting.withMoves (h : s.Accepting cmd rows r) (ms : List Move) :
    State.Accepting { s with moves := ms } cmd rows r :=
  { h with config := h.config }

/-- A write of CMD does not disturb the command being accepted. -/
theorem State.Accepting.producerWrite (h : s.Accepting cmd rows r) (v : Word) :
    (s.producerWrite .cmd v).Accepting cmd rows r :=
  { h with fieldRows := (cbGet_cbPut_of_ne s.cb v (by decide)).trans h.fieldRows }

/-- ACC_ADDR, ACC_ROWS and ACC_RESP lead to the next step of ACCEPT (R85). -/
theorem State.Accepting.blockStep (h : s.Accepting cmd rows (r + 1)) (hr : r ≤ 2) :
    ∃ t, s.blockStep = .next t ∧ t.Accepting cmd rows r ∧ t.moves = s.moves := by
  obtain ⟨hc, hx, hl, hf, hlr⟩ := h
  match r, hr with
  | 2, _ =>
    refine ⟨s.acceptAddr, ?_, ⟨hc, rfl, hl, hf, by simp⟩, rfl⟩
    simp only [State.blockStep, State.fetch, hx, acceptCtl, exec_accept_addr]
  | 1, _ =>
    refine ⟨s.acceptRows, ?_, ⟨hc, rfl, hl, hf, fun _ => hf⟩, rfl⟩
    simp only [State.blockStep, State.fetch, hx, acceptCtl, exec_accept_rows]
  | 0, _ =>
    refine ⟨(s.cbWrite .resp 0).goto .accCmd, ?_, ⟨hc, rfl, hl, ?_, fun _ => hlr le_rfl⟩, rfl⟩
    · simp only [State.blockStep, State.fetch, hx, acceptCtl, exec_accept_resp]
    · rw [State.field_goto, State.field_cbWrite, if_neg (by decide), hf]

/-- ACC_CMD clears CMD, whatever it holds, and takes the exit-vs-start test on the command latched (R54, R80). -/
theorem State.Accepting.blockStep_clear (h : s.Accepting cmd rows 0) :
    ∃ t, s.blockStep = .next t ∧ t.Cleared cmd rows ∧ t.moves = s.moves := by
  obtain ⟨-, hx, hl, -, hlr⟩ := h
  have hb : s.blockStep = exec (.accept .cmd) s := by simp only [State.blockStep, State.fetch, hx, acceptCtl]
  by_cases hv : s.cmd = 0xFF
  · refine ⟨_, hb.trans (exec_accept_cmd_exit s hv), ⟨State.field_cbWrite_self s _ _, hl, ?_⟩, rfl⟩
    rw [if_pos (hl ▸ hv), State.goto_ctl]
  · refine ⟨_, hb.trans (exec_accept_cmd_start s hv), ⟨?_, ?_, ?_⟩, ?_⟩
    · rw [State.field, State.enterTransmit_cb]
      exact State.field_cbWrite_self s _ _
    · rw [State.enterTransmit_cmd, State.cbWrite_cmd, hl]
    · rw [if_neg (hl ▸ hv), State.enterTransmit_ctl, State.cbWrite_rows, hlr (Nat.zero_le 1)]
    · rw [State.enterTransmit_moves, State.cbWrite_moves]

/-- With no move to come, ACCEPT goes through to its clear. -/
theorem State.Accepting.run (h : s.Accepting cmd rows r) (hr : r ≤ 3) (hm : s.moves = []) :
    ∃ t, core.run (r + 1) s = .next t ∧ t.Cleared cmd rows ∧ t.moves = [] := by
  induction r generalizing s with
  | zero =>
    obtain ⟨t, hb, ht, htm⟩ := h.blockStep_clear
    have hstep := step_of_turn_block h.config (State.turn_of_moves_nil hm)
    exact ⟨t, core_run_succ (hstep.trans hb) 0, ht, htm.trans hm⟩
  | succ r ih =>
    obtain ⟨t, hb, ht, htm⟩ := h.blockStep (by omega)
    have hstep := step_of_turn_block h.config (State.turn_of_moves_nil hm)
    rw [core_run_succ (hstep.trans hb)]
    exact ih ht (by omega) (htm.trans hm)

/-- With one write of CMD to come before the clear, ACCEPT goes through to the same clear, one step later (R54, R166). -/
theorem State.Accepting.run_overlapped {v : Word} {j : Nat} (h : s.Accepting cmd rows r) (hr : r ≤ 3) (hj : j ≤ r)
    (hm : s.moves = List.replicate j .block ++ [.w32 .cmd v]) :
    ∃ t, core.run (r + 2) s = .next t ∧ t.Cleared cmd rows ∧ t.moves = [] := by
  induction j generalizing s r with
  | zero =>
    rw [core_run_succ (step_of_environment h.config (State.turn_of_moves_w32 hm))]
    exact ((h.withMoves []).producerWrite v).run hr rfl
  | succ j ih =>
    obtain ⟨r, rfl⟩ := Nat.exists_eq_add_one_of_ne_zero (Nat.ne_zero_of_lt hj)
    obtain ⟨s', hb, hs', hm'⟩ := (h.withMoves (List.replicate j .block ++ [.w32 .cmd v])).blockStep (by omega)
    have hstep := step_of_turn_block h.config (State.turn_of_moves_block hm)
    rw [core_run_succ (hstep.trans hb)]
    exact ih hs' (by omega) (by omega) hm'

end Accepting

/-- Settles O31: at ACC_ADDR three steps of ACCEPT are to go before the clear, and the write falls before one of the
four. -/
theorem overlappingCommandIsLost : Obligations.OverlappingCommandIsLost := by
  intro s v j hc hx hj hm
  have hs : s.Accepting s.cmd (s.field .rows) 3 := ⟨hc, hx, rfl, rfl, by simp⟩
  obtain ⟨t, hrun, ⟨hcmd, hl, hctl⟩, htm⟩ := hs.run_overlapped le_rfl hj hm
  refine ⟨t, hrun, htm, hcmd, hl, fun he => ?_, fun he hr => ?_, fun he hr => ?_⟩
  · rw [hctl, if_pos he]
  · rw [hctl, if_neg he, if_neg hr]
  · rw [hctl, if_neg he, if_pos hr]

end Sys2Proof.Machine

namespace Sys2Proof

/-! ### The decoder and the encoder undo each other -/

section Encoding

variable {v : Word} {i : Instr}

/-- A word that is neither the idle word nor the exit word starts a frame (R62). -/
theorem decodeWord_of_ne (h0 : v ≠ 0) (h1 : v ≠ 0xFF) : decodeWord v = .cmdStart v := by
  rw [decodeWord_eq, if_neg h0, if_neg h1]

theorem decodeWord_eq_cmdIdle_iff : decodeWord v = .cmdIdle ↔ v = 0 := by
  rw [decodeWord_eq]
  split_ifs with h0 h1
  · exact iff_of_true rfl h0
  · exact iff_of_false nofun h0
  · exact iff_of_false nofun h0

theorem decodeWord_eq_cmdExit_iff : decodeWord v = .cmdExit ↔ v = 0xFF := by
  rw [decodeWord_eq]
  split_ifs with h0 h1
  · exact iff_of_false nofun (by rw [h0]; decide)
  · exact iff_of_true rfl h1
  · exact iff_of_false nofun h1

/-- A word is the encoding of the command it decodes to. -/
theorem encode_decodeWord (v : Word) : encode (decodeWord v) = some v := by
  rw [decodeWord_eq]
  split_ifs with h0 h1
  · rw [h0]; rfl
  · rw [h1]; rfl
  · rfl

theorem decodeWord_wellFormed (v : Word) : (decodeWord v).wellFormed = true := by
  rw [decodeWord_eq]
  split_ifs with h0 h1
  · rfl
  · rfl
  · simpa [Instr.wellFormed] using And.intro h0 h1

/-- The commands are the instructions with an encoding; the internal operations have none (R72). -/
theorem encode_isSome (i : Instr) : (encode i).isSome = i.isCommand := by
  cases i <;> rfl

/-- A well-formed command is what its word decodes to. The words of CMD_IDLE and CMD_EXIT are tried first, and a
well-formed start command has neither (R62). -/
theorem decodeWord_of_encode (hw : i.wellFormed = true) (he : encode i = some v) : decodeWord v = i := by
  cases i <;> cases he
  case cmdIdle => exact decodeWord_eq_cmdIdle_iff.2 rfl
  case cmdExit => exact decodeWord_eq_cmdExit_iff.2 rfl
  case cmdStart =>
    obtain ⟨h0, h1⟩ : v ≠ 0 ∧ v ≠ 0xFF := by simpa [Instr.wellFormed] using hw
    exact decodeWord_of_ne h0 h1

/-- A word's four bytes decode as the word, and what follows them is left over (R61, R62). -/
theorem decode_bytesOfWord_append (v : Word) (rest : List Byte) :
    decode (bytesOfWord v ++ rest) = .ok (decodeWord v, rest) := by
  simp [bytesOfWord]

end Encoding

/-- Settles O3: the word of a well-formed command decodes to it, and the other way round; its bytes are the word's. -/
theorem decodeAndEncodeAgree : Obligations.DecodeAndEncodeAgree := by
  refine ⟨fun i hw hcmd => ?_, fun v => ⟨encode_decodeWord v, decodeWord_wellFormed v, ?_⟩, fun i hcmd => ?_⟩
  · obtain ⟨v, he⟩ := Option.isSome_iff_exists.1 ((encode_isSome i).trans hcmd)
    refine ⟨bytesOfWord v, by rw [encodeBytes, he, Option.map_some], rfl, fun rest => ?_⟩
    rw [decode_bytesOfWord_append, decodeWord_of_encode hw he]
  · rw [← encode_isSome, encode_decodeWord, Option.isSome_some]
  · rw [← Option.isNone_iff_eq_none, ← Option.isSome_eq_false_iff, encode_isSome, hcmd]

/-- Settles O1: the closed form of the command table for the two equivalences, the rule's own words by it. -/
theorem commandComparisonsUseAllBits : Obligations.CommandComparisonsUseAllBits :=
  ⟨fun _ => decodeWord_eq_cmdIdle_iff, fun _ => decodeWord_eq_cmdExit_iff, decodeWord_of_ne (by decide) (by decide),
    decodeWord_of_ne (by decide) (by decide), decodeWord_of_ne (by decide) (by decide), by decide, by decide⟩

/-- Settles O2: four bytes decode as their word, and the command table in closed form is R62's priority order. -/
theorem everyFourBytesAreOneCommand : Obligations.EveryFourBytesAreOneCommand := by
  intro b0 b1 b2 b3 rest
  rw [decode_four, decodeWord_eq]

end Sys2Proof

namespace Sys2Proof.Machine

/-- Settles O12: a 32-bit word is its own low 32 bits, and its bytes decode as the word. -/
theorem placedCommandRunsNext : Obligations.PlacedCommandRunsNext := by
  intro s w hc hw
  refine ⟨_, rfl, ?_, ?_⟩
  · rw [decodeTableWord, decode_bytesOfWord, Nat.mod_eq_of_lt hw]
  · rw [step_withFetchWord s 32 w hc, Nat.mod_eq_of_lt hw]

/-! ### A producer's write of a field -/

/-- Bit `b` of byte `j` of the field written is bit `8·j + b` of the value (R44, R61). -/
theorem cbPut_getLsbD (cb : ControlBlock) (f : CbField) (v : Word) (j : Fin 4) {b : Nat} (hb : b < 8) :
    ((cbPut cb f v)[f.offset + j.val]'(f.offset_add_lt j)).getLsbD b = v.getLsbD (8 * j.val + b) := by
  rw [← cbGet_getLsbD (cbPut cb f v) f j hb, cbGet_cbPut_self]

/-- Settles O35: the move's turn is one field write, read back by field and by bit. -/
theorem producerWritesOneField : Obligations.ProducerWritesOneField := by
  intro s f v rest hc hm
  refine ⟨_, step_of_environment hc (State.turn_of_moves_w32 hm), cbGet_cbPut_self s.cb f.toCbField v,
    fun g hg => cbGet_cbPut_of_ne s.cb v hg.symm, ?_, ?_, ?_, rfl⟩
  · rintro rfl j b hj hb
    exact cbPut_getLsbD s.cb .addr v ⟨j, hj⟩ hb
  · rintro rfl j b hj hb
    exact cbPut_getLsbD s.cb .rows v ⟨j, hj⟩ hb
  · rintro rfl j b hj hb
    exact cbPut_getLsbD s.cb .cmd v ⟨j, hj⟩ hb

/-! ### ENCODE -/

/-- A bit of a zero mask: the pin is controlled, and some channel marks it (R68). -/
theorem zeroMask_getLsbD (cfg : Config) (w : Vector Word 24) (b : Fin 24) (k : Fin 4) (p : Fin 32) :
    (zeroMask cfg w b k).getLsbD p.val = true ↔
      cfg.pinmask[k].getLsbD p.val = true ∧
        ∃ c : Fin 24, cfg.chmap[c].bank = k.val ∧ cfg.chmap[c].pin = p.val ∧ dataBit w[c] b = false := by
  rw [zeroMask, BitVec.getLsbD_and, foldl_addZeroBit_getLsbD cfg w b k _ 0 p.val p.isLt,
    show (0 : Word).getLsbD p.val = false from BitVec.getLsbD_zero, Bool.false_or, Bool.and_comm, Bool.and_eq_true,
    List.any_eq_true]
  simp only [List.mem_finRange, true_and, marksPin, Bool.and_eq_true, decide_eq_true_eq, Bool.not_eq_true', and_assoc]

/-- Settles O39: ENCODE's masks are the zero masks of the four banks. -/
theorem encodeComputesTheZeroMasks : Obligations.EncodeComputesTheZeroMasks := by
  intro s
  refine ⟨_, exec_encode s, fun k p => ?_, rfl⟩
  have hk : s.encodeMasks.zm[k] = zeroMask s.config s.w s.b k := by simp
  rw [hk, zeroMask_getLsbD]

/-! ### REPORT -/

section Report

variable {s : State}

/-- When the count is written: REPORT_CYCLES, and a count that reads neither as not done nor as exited (R89). -/
theorem reportsCount_iff (cfg : Config) (cyc : Word) :
    reportsCount cfg cyc = true ↔ cfg.reportCycles = true ∧ cyc ≠ 0 ∧ cyc ≠ 0xFF := by
  simp only [reportsCount, Bool.and_eq_true, bne_iff_ne, ne_eq, and_assoc]

theorem readResponse_of_ne {v : Word} (h0 : v ≠ 0) (h1 : v ≠ 0xFF) : readResponse v = .done := by
  rw [readResponse, if_neg h0, if_neg h1]

@[simp] theorem State.field_reportAck (s : State) (f : CbField) :
    s.reportAck.field f = if .resp = f then 1 else s.field f :=
  cbGet_cbPut s.cb .resp f 1

/-- With no move to come, the step is that of the instruction the block selects. -/
theorem step_of_moves_nil {i : Instr} (hc : failedCheck s.config = none) (hm : s.moves = []) (hi : s.fetch = some i) :
    step s = exec i s :=
  step_of_block hc (State.turn_of_moves_nil hm) hi

theorem step_of_reportAck (hc : failedCheck s.config = none) (hm : s.moves = []) (hx : s.ctl = .reportAck) :
    step s = .next s.reportAck :=
  step_of_moves_nil (i := .report .ack) hc hm (by rw [State.fetch, hx])

theorem step_of_reportCyc (hc : failedCheck s.config = none) (hm : s.moves = []) (hx : s.ctl = .reportCyc) :
    step s = .next ((s.cbWrite .resp s.cyc).goto .awaitEntry) :=
  step_of_moves_nil (i := .report .cyc) hc hm (by rw [State.fetch, hx])

end Report

/-- Settles O28: REPORT_ACK's step, and REPORT_CYC's where the count drawn is to be written, which then reads as done. -/
theorem reportReadsAsDone : Obligations.ReportReadsAsDone := by
  intro s hc hm hx
  have hack := core_run_succ (step_of_reportAck hc hm hx)
  by_cases hr : reportsCount s.config (Config.drawCycles s.draws) = true
  · obtain ⟨hrep, h0, h1⟩ := (reportsCount_iff _ _).1 hr
    have hcyc := core_run_succ (step_of_reportCyc (s := s.reportAck) hc hm (if_pos hr))
    refine ⟨2, _, .inr rfl, (hack 1).trans (hcyc 0), rfl, ?_, by simp [hrep], ?_, rfl, rfl⟩
    · simpa using readResponse_of_ne h0 h1
    · simp [State.field_cbWrite]
  · exact ⟨1, _, .inl rfl, hack 0, if_neg hr, by simp [readResponse], by simp, by simp, rfl, rfl⟩

/-! ### The law of RESP -/

section ResponseLaw

variable {s t : State}

/-- The law reads the control state, RESP and the count taken. -/
theorem State.ResponseLaw.of_frame (hs : s.ResponseLaw) (hx : t.ctl = s.ctl) (hr : t.field .resp = s.field .resp)
    (hcyc : t.cyc = s.cyc) : t.ResponseLaw := by
  rw [State.ResponseLaw, hx, hr, hcyc]
  exact hs

/-- While a frame is sent, up to its latch delay, RESP is 0 (R65). -/
theorem State.responseLaw_of_transmit_or_latchDelay (hx : t.ctl = .transmit ∨ t.ctl = .latchDelay)
    (hr : t.field .resp = 0) : t.ResponseLaw := by
  obtain hx | hx := hx <;> rw [State.ResponseLaw, hx] <;> exact hr

/-- TRANSMIT is entered, or the latch delay when no row is to be sent (R87). -/
theorem State.enterTransmit_ctl_or (s : State) : s.enterTransmit.ctl = .transmit ∨ s.enterTransmit.ctl = .latchDelay := by
  rw [State.enterTransmit_ctl]
  split
  · exact .inr rfl
  · exact .inl rfl

/-- A FULL_FALL write stays in TRANSMIT, or ends the frame (R124, R143). -/
theorem State.afterFullFall_ctl_or (hx : s.ctl = .transmit) :
    s.afterFullFall.ctl = .transmit ∨ s.afterFullFall.ctl = .latchDelay := by
  obtain ⟨-, h⟩ | ⟨-, -, h⟩ | ⟨-, -, -, h⟩ | ⟨-, -, -, h⟩ := s.afterFullFall_cases <;> rw [h]
  case inr.inr.inr =>
    rw [State.stepRow_ctl]
    split
    · exact .inr rfl
    · exact .inl hx
  all_goals exact .inl hx

/-- REPORT_ACK answers 1, and goes on to a count only where it is neither 0 nor 0xFF (R89). -/
theorem State.responseLaw_reportAck (s : State) : s.reportAck.ResponseLaw := by
  have hresp : s.reportAck.field .resp = 1 := by rw [State.field_reportAck, if_pos rfl]
  by_cases hr : reportsCount s.config (Config.drawCycles s.draws) = true
  · have hx : s.reportAck.ctl = .reportCyc := if_pos hr
    obtain ⟨-, hcyc⟩ := (reportsCount_iff _ _).1 hr
    rw [State.ResponseLaw, hx]
    exact ⟨hresp, hcyc⟩
  · have hx : s.reportAck.ctl = .awaitEntry := if_neg hr
    rw [State.ResponseLaw, hx, hresp]
    exact (by decide : (1 : Word) ≠ 0xFF)

/-- Clearing CMD leaves RESP alone. -/
theorem State.field_resp_cbWrite_cmd (s : State) (v : Word) : (s.cbWrite .cmd v).field .resp = s.field .resp := by
  rw [State.field_cbWrite, if_neg (by decide)]

/-- Every transition of the block keeps the law of RESP: one that writes RESP enters a part of the program whose value it
writes, and one that does not stays where the law asks the same. -/
theorem BlockTransition.responseLaw (h : BlockTransition s t) (hs : s.ResponseLaw) : t.ResponseLaw := by
  have hlaw := hs
  rw [State.ResponseLaw] at hlaw
  cases h
  case boot | acceptResp | exitResp => simp [State.ResponseLaw]
  case notify hx | pollIdle hx _ | pollAccept hx _ | acceptAddr hx | acceptRows hx | latch hx | exitNotify hx |
      exitHalt hx =>
    rw [hx] at hlaw
    exact hlaw
  case acceptExit hx _ =>
    rw [hx] at hlaw
    exact (State.field_resp_cbWrite_cmd s 0).trans hlaw
  case acceptStart hx _ =>
    rw [hx] at hlaw
    refine State.responseLaw_of_transmit_or_latchDelay (State.enterTransmit_ctl_or _) ?_
    rw [State.field, State.enterTransmit_cb]
    exact (State.field_resp_cbWrite_cmd s 0).trans hlaw
  case loadRow | rise | selFall => exact hs.of_frame (by simp) (by simp [State.field]) (by simp)
  case fullFall hx _ =>
    rw [hx] at hlaw
    exact State.responseLaw_of_transmit_or_latchDelay (State.afterFullFall_ctl_or hx) (by simpa [State.field] using hlaw)
  case reportAck => exact s.responseLaw_reportAck
  case reportCyc hx =>
    rw [hx] at hlaw
    obtain ⟨-, -, hcyc⟩ := hlaw
    exact ne_of_eq_of_ne (State.field_cbWrite_self s .resp s.cyc) hcyc

theorem State.ResponseLaw.turn_block (hs : s.ResponseLaw) (h : s.turn = .block t) : t.ResponseLaw := by
  rw [State.turn_block h]
  exact hs

/-- A restart leads to BOOT, where the law asks nothing; the other moves of the environment leave RESP and the block's
registers alone. -/
theorem State.ResponseLaw.turn_environment (hs : s.ResponseLaw) (h : s.turn = .environment t) : t.ResponseLaw := by
  by_cases hr : s.moves.head? = some .restart
  · obtain ⟨rest, hmoves⟩ := List.head?_eq_some_iff.1 hr
    cases (State.turn_of_moves_restart hmoves).symm.trans h
    trivial
  · obtain ⟨hresp, hf⟩ := State.turn_environment_frame h hr
    exact hs.of_frame (by rw [hf]) hresp (by rw [hf])

end ResponseLaw

/-- Settles O60: the block's turn, each transition of the block and each move of the environment keep the law, and reset
is in BOOT. -/
theorem stepKeepsTheResponseLaw : Obligations.StepKeepsTheResponseLaw := by
  refine ⟨fun s t hs h => ?_, trivial⟩
  obtain ⟨-, ⟨s', ht, hb⟩ | ht⟩ := step_next_cases h
  · exact hb.responseLaw (hs.turn_block ht)
  · exact hs.turn_environment ht

end Sys2Proof.Machine

namespace Sys2Proof.Machine

/-! ### When the block has a step -/

section Completion

variable {s : State} {i : Instr}

/-- Outside HALTED the block selects an instruction (R21, R80). -/
theorem State.exists_fetch_of_not_final (h : ¬ s.Final) : ∃ i, s.fetch = some i := by
  cases hx : s.ctl
  case halted => exact absurd hx h
  case awaitPoll => exact ⟨_, State.fetch_of_awaitPoll hx⟩
  all_goals exact ⟨_, by rw [State.fetch, hx]⟩

/-- The block selects LOAD_ROW in TRANSMIT's load phase only (R140). -/
theorem State.fetch_eq_loadRow_iff : s.fetch = some .loadRow ↔ s.ctl = .transmit ∧ s.phase = .load := by
  constructor
  · intro h
    cases hx : s.ctl
    case awaitPoll =>
      rw [State.fetch_of_awaitPoll hx, decodeWord_eq] at h
      split_ifs at h <;> cases h
    case transmit =>
      refine ⟨rfl, ?_⟩
      rw [State.fetch_of_transmit hx, State.fetchSequencer] at h
      split at h <;> cases h
      assumption
    all_goals rw [State.fetch, hx] at h; cases h
  · rintro ⟨hx, hp⟩
    rw [State.fetch_of_transmit hx, State.fetchSequencer, hp]

/-- Every instruction completes, but LOAD_ROW when its read is not admitted (R49, R162). -/
theorem exec_completes (h : i = .loadRow → admitsRead s.config s.loadAddress = true) : ∃ t, exec i s = .next t := by
  cases i with
  | loadRow => exact ⟨_, exec_loadRow_of_admitted s (h rfl)⟩
  | accept part => cases part <;> exact ⟨_, rfl⟩
  | report part => cases part <;> exact ⟨_, rfl⟩
  | exit part => cases part <;> exact ⟨_, rfl⟩
  | cmdIdle | cmdExit | cmdStart | boot | notify | poll | latch | encode | rise | selFall | fullFall | advanceRow =>
    exact ⟨_, rfl⟩

end Completion

/-- Settles O13: HALTED selects no instruction, and of the instructions selected only LOAD_ROW can stop. -/
theorem onlyHaltedAndStuckHaveNoStep : Obligations.OnlyHaltedAndStuckHaveNoStep := by
  intro s s' hc ht
  refine ⟨step_of_halted hc ht, fun ⟨hx, hp, ha⟩ => ?_, fun hf hs => ?_⟩
  · rw [step_of_block hc ht (State.fetch_eq_loadRow_iff.2 ⟨hx, hp⟩), exec_loadRow_of_not_admitted s' ha]
  · obtain ⟨i, hi⟩ := State.exists_fetch_of_not_final hf
    rw [step_of_block hc ht hi]
    refine exec_completes fun hload => ?_
    obtain ⟨hx, hp⟩ := State.fetch_eq_loadRow_iff.1 (hload ▸ hi)
    exact Bool.of_not_eq_false fun ha => hs ⟨hx, hp, ha⟩

/-! ### The clear of CMD and what follows it -/

section AcceptCmd

variable {s : State}

theorem exec_accept_cmd (s : State) : exec (.accept .cmd) s = .next s.acceptCmd := rfl

/-- The exit command, at ACC_CMD (R80, R90). -/
theorem State.acceptCmd_of_exit (h : s.cmd = 0xFF) : s.acceptCmd = (s.cbWrite .cmd 0).goto .exitResp :=
  if_pos (beq_iff_eq.2 h)

/-- A start command, at ACC_CMD (R80, R86). -/
theorem State.acceptCmd_of_start (h : s.cmd ≠ 0xFF) : s.acceptCmd = (s.cbWrite .cmd 0).enterTransmit :=
  if_neg fun hv => h (beq_iff_eq.1 hv)

/-- TRANSMIT entry writes the counter, the rows left, the row pointer and the position (R87). -/
theorem State.enterTransmit_frame (s : State) :
    s.enterTransmit =
      { s with cycleCounter := s.enterTransmit.cycleCounter, n := s.enterTransmit.n, ptr := s.enterTransmit.ptr,
               ctl := s.enterTransmit.ctl, phase := s.enterTransmit.phase, c := s.enterTransmit.c } := by
  by_cases hr : s.rows = 0
  · rw [State.enterTransmit_of_eq_zero hr]
  · rw [State.enterTransmit_of_ne_zero hr]

@[simp] theorem State.field_enterTransmit (s : State) (f : CbField) : s.enterTransmit.field f = s.field f := by
  rw [State.field, State.enterTransmit_cb, State.field]

/-- With no rows the latch delay is entered and the position stays (R87). -/
theorem State.enterTransmit_position_of_eq_zero (h : s.rows = 0) :
    s.enterTransmit.ctl = .latchDelay ∧ s.enterTransmit.phase = s.phase ∧ s.enterTransmit.c = s.c := by
  rw [State.enterTransmit_of_eq_zero h]
  exact ⟨rfl, rfl, rfl⟩

/-- With a row to send the frame starts with the load of channel 0 (R87, R140). -/
theorem State.enterTransmit_position_of_ne_zero (h : s.rows ≠ 0) :
    s.enterTransmit.ctl = .transmit ∧ s.enterTransmit.phase = .load ∧ s.enterTransmit.c = 0 := by
  rw [State.enterTransmit_of_ne_zero h]
  exact ⟨rfl, rfl, rfl⟩

/-- Both commands clear CMD and write nothing outside their control state and TRANSMIT's entry (R85, R87). -/
theorem State.acceptCmd_frame (s : State) :
    s.acceptCmd =
      { s with cb := cbPut s.cb .cmd 0, trace := s.trace ++ [.cbw .cmd 0], cycleCounter := s.acceptCmd.cycleCounter,
               n := s.acceptCmd.n, ptr := s.acceptCmd.ptr, ctl := s.acceptCmd.ctl, phase := s.acceptCmd.phase,
               c := s.acceptCmd.c } := by
  by_cases h : s.cmd = 0xFF
  · rw [State.acceptCmd_of_exit h]; rfl
  · rw [State.acceptCmd_of_start h]; exact State.enterTransmit_frame _

@[simp] theorem State.acceptCmd_trace (s : State) : s.acceptCmd.trace = s.trace ++ [.cbw .cmd 0] := by
  rw [State.acceptCmd_frame]

@[simp] theorem State.acceptCmd_cmd (s : State) : s.acceptCmd.cmd = s.cmd := by
  rw [State.acceptCmd_frame]

@[simp] theorem State.acceptCmd_addr (s : State) : s.acceptCmd.addr = s.addr := by
  rw [State.acceptCmd_frame]

@[simp] theorem State.acceptCmd_rows (s : State) : s.acceptCmd.rows = s.rows := by
  rw [State.acceptCmd_frame]

@[simp] theorem State.field_acceptCmd (s : State) (f : CbField) :
    s.acceptCmd.field f = if .cmd = f then 0 else s.field f := by
  rw [State.acceptCmd_frame]
  exact cbGet_cbPut s.cb .cmd f 0

/-- What a start command sets at ACC_CMD: the counter, the rows left, the row pointer, and the position by whether there
is a row to send (R87). -/
theorem State.acceptCmd_starts (h : s.cmd ≠ 0xFF) :
    s.acceptCmd.cycleCounter = 0 ∧ s.acceptCmd.n = s.rows ∧ s.acceptCmd.ptr = s.addr ∧
    (s.rows = 0 → s.acceptCmd.ctl = .latchDelay ∧ s.acceptCmd.phase = s.phase ∧ s.acceptCmd.c = s.c) ∧
    (s.rows ≠ 0 → s.acceptCmd.ctl = .transmit ∧ s.acceptCmd.phase = .load ∧ s.acceptCmd.c = 0) := by
  rw [State.acceptCmd_of_start h]
  exact ⟨State.enterTransmit_cycleCounter _, State.enterTransmit_n _, State.enterTransmit_ptr _,
    State.enterTransmit_position_of_eq_zero (s := s.cbWrite .cmd 0),
    State.enterTransmit_position_of_ne_zero (s := s.cbWrite .cmd 0)⟩

/-- The state in which ACC_CMD runs, from ACC_ADDR with no other move: ADDR and ROWS latched, RESP cleared (R85). -/
def State.acceptedUpToClear (s : State) : State := (s.acceptAddr.acceptRows.cbWrite .resp 0).goto .accCmd

/-- From ACC_ADDR with no move to come, ACCEPT's four steps in a row (R80, R85). -/
theorem core_run_accept (hc : failedCheck s.config = none) (hm : s.moves = []) (hx : s.ctl = .accAddr) :
    core.run 4 s = .next s.acceptedUpToClear.acceptCmd := by
  have haddr : step s = .next s.acceptAddr := step_of_moves_nil (i := .accept .addr) hc hm (by rw [State.fetch, hx])
  have hrows : step s.acceptAddr = .next s.acceptAddr.acceptRows :=
    step_of_moves_nil (i := .accept .rows) hc hm rfl
  have hresp : step s.acceptAddr.acceptRows = .next s.acceptedUpToClear :=
    step_of_moves_nil (i := .accept .resp) hc hm rfl
  have hcmd : step s.acceptedUpToClear = .next s.acceptedUpToClear.acceptCmd :=
    step_of_moves_nil (i := .accept .cmd) hc hm rfl
  rw [core_run_succ haddr, core_run_succ hrows, core_run_succ hresp, core_run_succ hcmd]
  rfl

theorem State.acceptedUpToClear_trace (s : State) :
    s.acceptedUpToClear.trace = s.trace ++ [.cbr .addr (s.field .addr), .cbr .rows (s.field .rows), .cbw .resp 0] := by
  simp [State.acceptedUpToClear, State.field]

/-- Up to the clear, RESP is the only field written (R85). -/
@[simp] theorem State.field_acceptedUpToClear (s : State) (f : CbField) :
    s.acceptedUpToClear.field f = if .resp = f then 0 else s.field f :=
  cbGet_cbPut s.cb .resp f 0

end AcceptCmd

/-- Settles O25: three steps latch ADDR and ROWS and clear RESP, and the fourth is ACC_CMD's. -/
theorem acceptRunsInFourSteps : Obligations.AcceptRunsInFourSteps := by
  intro s hc hm hx
  have hfield (f : CbField) :
      s.acceptedUpToClear.acceptCmd.field f = if .cmd = f then 0 else if .resp = f then 0 else s.field f := by
    rw [State.field_acceptCmd, State.field_acceptedUpToClear]
  refine ⟨_, core_run_accept hc hm hx, State.acceptCmd_addr _, State.acceptCmd_rows _, State.acceptCmd_cmd _,
    hfield .addr, hfield .rows, hfield .cmd, hfield .resp, ?_, fun hv => ?_, fun hv => ?_⟩
  · rw [State.acceptCmd_trace, State.acceptedUpToClear_trace, List.append_assoc]
    rfl
  · rw [State.acceptCmd_of_exit (s := s.acceptedUpToClear) hv, State.goto_ctl]
  · obtain ⟨-, hn, hptr, hzero, hne⟩ := State.acceptCmd_starts (s := s.acceptedUpToClear) hv
    exact ⟨hn, hptr, fun hr => (hzero hr).1, hne⟩

/-! ### HALTED -/

/-- HALTED has no transition of the block (R80). -/
theorem BlockTransition.ctl_ne_halted {s t : State} (h : BlockTransition s t) : s.ctl ≠ .halted := by
  cases h <;> simp [*]

/-- A write of the pins outside PINMASK keeps the controlled pins of every bank (R30). -/
theorem State.setOtherPins_controlled (k : Fin 4) (levels : Word) (s : State) (j : Fin 4) :
    (s.setOtherPins k levels).out[j] &&& s.config.pinmask[j] = s.out[j] &&& s.config.pinmask[j] := by
  by_cases hj : j = k
  · subst hj
    apply BitVec.eq_of_getLsbD_eq
    intro p hp
    have hout := (State.setOtherPins_out j levels s).2 ⟨p, hp⟩
    rw [BitVec.getLsbD_and, BitVec.getLsbD_and, hout]
    cases s.config.pinmask[j].getLsbD p <;> simp
  · rw [(State.setOtherPins_out k levels s).1 j hj]

/-- Once the block has left reset no move of the environment moves a controlled pin (R30, R127, R193). -/
theorem State.turn_environment_controlled {s t : State} (h : s.turn = .environment t) (hx : s.ctl ≠ .boot) (k : Fin 4) :
    t.out[k] &&& s.config.pinmask[k] = s.out[k] &&& s.config.pinmask[k] := by
  obtain ⟨m, rest, -, hm⟩ := State.turn_environment h
  obtain ⟨_, _, -, rfl⟩ | ⟨_, _, -, rfl⟩ | ⟨_, _, _, -, -, rfl⟩ | ⟨-, -, rfl⟩ | ⟨-, rfl⟩ | ⟨j, v, -, rfl⟩ | ⟨-, rfl⟩ |
    ⟨-, rfl⟩ := hm
  case inr.inr.inr.inr.inr.inl => exact State.setOtherPins_controlled j v { s with moves := rest } k
  case inr.inr.inr.inr.inr.inr.inl => rw [State.bringPinsLow_of_ne_boot (s := { s with moves := rest }) hx]
  all_goals rfl

/-- Settles O30: in HALTED the block has no transition, and a move of the environment other than a restart leaves the
block's registers, RESP and the controlled pins alone. -/
theorem haltedIsTerminal : Obligations.HaltedIsTerminal := by
  intro s t hx h hr
  obtain ⟨-, ⟨s', ht, hb⟩ | ht⟩ := step_next_cases h
  · refine absurd ?_ hb.ctl_ne_halted
    rw [State.turn_block ht]
    exact hx
  · obtain ⟨hresp, hf⟩ := State.turn_environment_frame ht hr
    refine ⟨by rw [hf]; exact hx, State.turn_environment_trace ht, hresp, State.turn_environment_controlled ht ?_⟩
    rw [hx]
    decide

/-! ### What the block's transitions read and write of the control block and the memory -/

section Transition

variable {s t : State}

theorem State.blockStep_of_fetch {i : Instr} (hi : s.fetch = some i) : s.blockStep = exec i s := by
  rw [State.blockStep, hi]

/-- The inversion of the block's step. -/
theorem blockTransition_of_blockStep (h : s.blockStep = .next t) : BlockTransition s t := by
  unfold State.blockStep at h
  split at h
  case h_1 i hi => exact blockTransition_of_exec hi h
  case h_2 => cases h

/-- No transition of the block writes the system memory (R42, R93). -/
theorem BlockTransition.mem (h : BlockTransition s t) : t.mem = s.mem := by
  cases h <;> simp

/-- The block's writes of the control block: RESP, and at ACC_CMD, and there only, CMD with 0 (R35, R93). -/
theorem BlockTransition.cb_cases (h : BlockTransition s t) :
    (s.ctl = .accCmd ∧ t.cb = cbPut s.cb .cmd 0) ∨ (s.ctl ≠ .accCmd ∧ (t.cb = s.cb ∨ ∃ v, t.cb = cbPut s.cb .resp v)) := by
  cases h
  case acceptExit hx _ | acceptStart hx _ => exact .inl ⟨hx, by simp⟩
  case boot hx | acceptResp hx | reportAck hx | reportCyc hx | exitResp hx => exact .inr ⟨by simp [hx], .inr ⟨_, rfl⟩⟩
  all_goals exact .inr ⟨by simp [*], .inl (by simp)⟩

end Transition

/-- Settles O33: by the writes of the block's transitions, and a field read after the write of another. -/
theorem blockWritesOnlyItsOwnFields : Obligations.BlockWritesOnlyItsOwnFields := by
  intro s t h
  have hb := blockTransition_of_blockStep h
  refine ⟨fun a => by rw [hb.mem], ?_⟩
  simp only [State.field]
  obtain ⟨hx, hcb⟩ | ⟨hx, hcb | ⟨v, hcb⟩⟩ := hb.cb_cases <;> simp [hcb, hx, cbGet_cbPut]

/-! ### Another word in CMD during a frame -/

/-- Away from ACC_CMD the command that a word decodes to latches that word, with idle or accept after it (R83, R84). -/
theorem exec_decodeWord_of_ne {s : State} (v : Word) (hne : s.ctl ≠ .accCmd) :
    exec (decodeWord v) s = .next (s.latchCommand v (if v = 0 then .awaitPoll else .accAddr)) := by
  rw [decodeWord_eq]
  split_ifs with h0 h1
  · rw [h0, exec_cmdIdle]
  · rw [h1, exec_cmdExit_of_ne s hne]
  · rw [exec_cmdStart_of_ne s v hne]

/-- Every transition is the block's step in its state. -/
theorem BlockTransition.blockStep {s t : State} (h : BlockTransition s t) : s.blockStep = .next t := by
  cases h
  case pollIdle hx hv =>
    rw [State.blockStep_of_fetch (State.fetch_of_awaitPoll hx), exec_decodeWord_of_ne _ (by simp [hx]), if_pos hv, hv]
  case pollAccept hx hv =>
    rw [State.blockStep_of_fetch (State.fetch_of_awaitPoll hx), exec_decodeWord_of_ne _ (by simp [hx]), if_neg hv]
  case acceptExit hx hv => rw [State.blockStep, State.fetch, hx, ← exec_accept_cmd_exit s hv]
  case acceptStart hx hv => rw [State.blockStep, State.fetch, hx, ← exec_accept_cmd_start s hv]
  case loadRow hx hp ha =>
    rw [State.blockStep_of_fetch (State.fetch_eq_loadRow_iff.2 ⟨hx, hp⟩), exec_loadRow_of_admitted s ha]
  case rise hx hp | selFall hx hp | fullFall hx hp =>
    rw [State.blockStep_of_fetch (State.fetch_of_transmit hx), State.fetchSequencer, hp]
    rfl
  all_goals rw [State.blockStep, State.fetch, ‹s.ctl = _›]; rfl

/-- Writes of two different fields commute: they share no byte (R34). -/
theorem cbPut_comm (cb : ControlBlock) {f g : CbField} (v u : Word) (h : f ≠ g) :
    cbPut (cbPut cb f v) g u = cbPut (cbPut cb g u) f v := by
  have hne : f.offset / 4 ≠ g.offset / 4 := by cases f <;> cases g <;> simp [CbField.offset] at h ⊢
  apply Vector.ext
  intro x hx
  simp only [cbPut_getElem]
  by_cases hf : x / 4 = f.offset / 4
  · have hg : ¬ x / 4 = g.offset / 4 := fun hg => hne (hf.symm.trans hg)
    simp only [if_pos hf, if_neg hg]
  · simp only [if_neg hf]

section OtherWord

variable (f : ProducerField) (v : Word) (s : State)

/-! The position operations read and write no control block field, so they commute with a write of one. -/

theorem State.nextRow_producerWrite : (s.producerWrite f v).nextRow = s.nextRow.producerWrite f v := by
  simp only [State.nextRow, apply_ite (State.producerWrite f v)]
  rfl

theorem State.stepRow_producerWrite : (s.producerWrite f v).stepRow = s.stepRow.producerWrite f v :=
  State.nextRow_producerWrite f v { s with ptr := s.ptr + rowStride, n := s.n - 1 }

theorem State.nextChannel_producerWrite : (s.producerWrite f v).nextChannel = s.nextChannel.producerWrite f v := by
  simp only [State.nextChannel, apply_ite (State.producerWrite f v)]
  rfl

theorem State.encodeAtCellStart_producerWrite :
    (s.producerWrite f v).encodeAtCellStart = s.encodeAtCellStart.producerWrite f v := by
  simp only [State.encodeAtCellStart, apply_ite (State.producerWrite f v)]
  rfl

theorem State.afterRise_producerWrite : (s.producerWrite f v).afterRise = s.afterRise.producerWrite f v := by
  simp only [State.afterRise, apply_ite (State.producerWrite f v)]
  rfl

theorem State.afterSelFall_producerWrite : (s.producerWrite f v).afterSelFall = s.afterSelFall.producerWrite f v := by
  simp only [State.afterSelFall, apply_ite (State.producerWrite f v)]
  rfl

theorem State.afterCell_producerWrite : (s.producerWrite f v).afterCell = s.afterCell.producerWrite f v := by
  simp only [State.afterCell, apply_ite (State.producerWrite f v), ← State.stepRow_producerWrite]
  rfl

theorem State.afterFullFall_producerWrite : (s.producerWrite f v).afterFullFall = s.afterFullFall.producerWrite f v := by
  simp only [State.afterFullFall, apply_ite (State.producerWrite f v), ← State.afterCell_producerWrite]
  rfl

/-- A write of RESP and the producer's write of a field commute (R35). -/
theorem State.cbWrite_resp_producerWrite (u : Word) :
    (s.producerWrite f v).cbWrite .resp u = (s.cbWrite .resp u).producerWrite f v := by
  have hcb : cbPut (cbPut s.cb f.toCbField v) .resp u = cbPut (cbPut s.cb .resp u) f.toCbField v :=
    cbPut_comm s.cb v u (by cases f <;> decide)
  simp only [State.cbWrite, State.producerWrite, State.log, hcb]

end OtherWord

section Frame

variable {s t : State}

/-- From TRANSMIT to REPORT_DONE the block reads no control block field, so its transition is the same with another word in
a field the producer writes (R92). -/
theorem BlockTransition.producerWrite (h : BlockTransition s t) (hframe : s.ctl.inFrame = true) (f : ProducerField) (v : Word) :
    BlockTransition (s.producerWrite f v) (t.producerWrite f v) := by
  cases h
  case loadRow hx hp ha =>
    rw [← State.nextChannel_producerWrite]
    exact .loadRow (s := s.producerWrite f v) hx hp ha
  case rise hx hp =>
    have h := BlockTransition.rise (s := s.producerWrite f v) hx hp
    rw [State.encodeAtCellStart_producerWrite] at h
    rw [← State.afterRise_producerWrite]
    exact h
  case selFall hx hp =>
    rw [← State.afterSelFall_producerWrite]
    exact .selFall (s := s.producerWrite f v) hx hp
  case fullFall hx hp =>
    rw [← State.afterFullFall_producerWrite]
    exact .fullFall (s := s.producerWrite f v) hx hp
  case latch hx => exact .latch (s := s.producerWrite f v) hx
  case reportAck hx =>
    have h := BlockTransition.reportAck (s := s.producerWrite f v) hx
    have hw : (s.producerWrite f v).reportAck = s.reportAck.producerWrite f v :=
      congrArg (State.goto _) (State.cbWrite_resp_producerWrite f v s.drawCycles 1)
    rwa [hw] at h
  case reportCyc hx =>
    have h := BlockTransition.reportCyc (s := s.producerWrite f v) hx
    rwa [State.cbWrite_resp_producerWrite] at h
  all_goals exact absurd hframe (by simp [*, Ctl.inFrame])

/-- A frame in progress stays on its path: TRANSMIT, the latch delay, the report, and then AWAIT_ENTRY (R80, R92). -/
theorem BlockTransition.inFrame (h : BlockTransition s t) (hframe : s.ctl.inFrame = true) :
    t.ctl.inFrame = true ∨ t.ctl = .awaitEntry := by
  cases h
  case loadRow | rise | selFall => exact .inl (by simpa using hframe)
  case fullFall hx _ =>
    obtain h | h := State.afterFullFall_ctl_or (s := s.gpioClear s.k s.config.pinmask[s.k]) hx <;>
      exact .inl (by rw [h]; rfl)
  case latch => exact .inl rfl
  case reportAck =>
    rw [State.reportAck_ctl]
    split
    · exact .inl rfl
    · exact .inr rfl
  case reportCyc => exact .inr rfl
  all_goals exact absurd hframe (by simp [*, Ctl.inFrame])

end Frame

/-- Settles O32: the block's transition with another word in CMD is its transition, with that word left in CMD. -/
theorem frameIgnoresTheCommandField : Obligations.FrameIgnoresTheCommandField := by
  intro s t v hx h
  have hb := blockTransition_of_blockStep h
  exact ⟨(hb.producerWrite hx .cmd v).blockStep, hb.inFrame hx⟩

/-! ### One step of the handshake at a time -/

/-- Settles O11: by the word the poll reads, and at ACC_CMD by the exit-vs-start test on the word latched. -/
theorem pollRunsTheFetchedCommand : Obligations.PollRunsTheFetchedCommand := by
  intro s
  refine ⟨fun hx => ?_, fun hx h0 => ?_⟩
  · rw [exec_poll, exec_decodeWord_of_ne _ (by simp [hx])]
  · by_cases h1 : s.cmd = 0xFF
    · rw [exec_accept_cmd_exit s h1, decodeWord_eq_cmdExit_iff.2 h1, exec_cmdExit_of_accCmd s hx]
    · rw [exec_accept_cmd_start s h1, decodeWord_of_ne h0 h1, exec_cmdStart_of_accCmd s _ hx]

/-- A write of one field leaves each other field as it was (R34). -/
theorem State.field_cbWrite_of_ne (s : State) {f g : CbField} (v : Word) (h : g ≠ f) :
    (s.cbWrite f v).field g = s.field g := by
  rw [State.field_cbWrite, if_neg h.symm]

/-- Settles O18: one write of RESP, and AWAIT_ENTRY. -/
theorem bootClearsResponse : Obligations.BootClearsResponse := fun s =>
  ⟨_, exec_boot s, State.field_cbWrite_self s .resp 0, fun _ => State.field_cbWrite_of_ne s 0, rfl, rfl, rfl⟩

/-- Settles O19: one event, and AWAIT_POLL. -/
theorem notifyRaisesAnEvent : Obligations.NotifyRaisesAnEvent := fun s => ⟨_, exec_notify s, rfl, rfl, rfl⟩

/-- Settles O20: POLL latches the word it reads. -/
theorem pollLatchesTheCommand : Obligations.PollLatchesTheCommand := fun s => ⟨_, exec_poll s, rfl, rfl, rfl, rfl⟩

/-- Settles O21: the idle command latches 0 and stays. -/
theorem idleStaysInAwaitPoll : Obligations.IdleStaysInAwaitPoll := fun s _ _ =>
  ⟨_, exec_cmdIdle s, rfl, rfl, rfl, rfl⟩

/-- Settles O22: at the poll the word is latched; at ACC_CMD CMD is cleared and TRANSMIT entered. -/
theorem startCommandEntersTransmit : Obligations.StartCommandEntersTransmit := by
  refine fun word s => ⟨fun hx => ?_, fun hx => ?_⟩
  · exact ⟨_, exec_cmdStart_of_ne s word (by simp [hx]), rfl, rfl, rfl, rfl⟩
  · have htrace := State.enterTransmit_trace (s.cbWrite .cmd 0)
    refine ⟨_, exec_cmdStart_of_accCmd s word hx, ?_, fun f hf => ?_, State.enterTransmit_cycleCounter _,
      State.enterTransmit_n _, State.enterTransmit_ptr _,
      State.enterTransmit_position_of_eq_zero (s := s.cbWrite .cmd 0),
      State.enterTransmit_position_of_ne_zero (s := s.cbWrite .cmd 0), htrace, ?_⟩
    · rw [State.field_enterTransmit, State.field_cbWrite_self]
    · rw [State.field_enterTransmit, State.field_cbWrite_of_ne s 0 hf]
    · rw [htrace, State.enterTransmit_cb]
      exact State.enterTransmit_frame _

/-- Settles O23: at the poll the exit word is latched; at ACC_CMD CMD is cleared and EXIT_RESP entered. -/
theorem exitCommandGoesToExit : Obligations.ExitCommandGoesToExit := by
  refine fun s => ⟨fun hx => ?_, fun hx => ?_⟩
  · exact ⟨_, exec_cmdExit_of_ne s (by simp [hx]), rfl, rfl, rfl, rfl⟩
  · exact ⟨_, exec_cmdExit_of_accCmd s hx, State.field_cbWrite_self s .cmd 0, fun _ => State.field_cbWrite_of_ne s 0, rfl,
      rfl, rfl⟩

/-- Settles O24: two reads that latch, the clear of RESP, and ACC_CMD's clear of CMD with its test. -/
theorem acceptStepsComplete : Obligations.AcceptStepsComplete := by
  intro s
  refine ⟨⟨_, exec_accept_addr s, rfl, rfl, rfl, rfl⟩, ⟨_, exec_accept_rows s, rfl, rfl, rfl, rfl⟩,
    ⟨_, exec_accept_resp s, State.field_cbWrite_self s .resp 0, fun _ => State.field_cbWrite_of_ne s 0, rfl, rfl, rfl⟩,
    ⟨_, exec_accept_cmd s, ?_, fun f hf => ?_, fun hv => ?_, State.acceptCmd_starts, State.acceptCmd_trace s, ?_⟩⟩
  · rw [State.field_acceptCmd, if_pos rfl]
  · rw [State.field_acceptCmd, if_neg hf.symm]
  · rw [State.acceptCmd_of_exit hv]
    exact ⟨rfl, rfl⟩
  · rw [State.acceptCmd_frame]

/-- Settles O26: LATCH logs its event and moves on. -/
theorem latchOnlyMovesOn : Obligations.LatchOnlyMovesOn := fun s => ⟨_, exec_latch s, rfl, rfl, rfl⟩

/-- Settles O27: the write of 1 with the test on the count drawn, and the write of the count. -/
theorem reportWritesDoneThenTheCount : Obligations.ReportWritesDoneThenTheCount := by
  intro s
  refine ⟨⟨_, exec_report_ack s, ?_, fun f hf => ?_, ?_, fun hx => ?_, rfl, rfl⟩,
    ⟨_, exec_report_cyc s, State.field_cbWrite_self s .resp _, fun _ => State.field_cbWrite_of_ne s _, rfl, rfl, rfl⟩⟩
  · rw [State.field_reportAck, if_pos rfl]
  · rw [State.field_reportAck, if_neg hf.symm]
  · rw [State.reportAck_ctl, State.reportAck_cyc, ← reportsCount_iff]
    split_ifs with hr <;> simp [hr]
  · rw [State.reportAck_ctl] at hx ⊢
    split_ifs at hx ⊢
    · exact absurd rfl hx
    · rfl

/-- Settles O29: the write of 0xFF, the notification and the halt. -/
theorem exitStepsComplete : Obligations.ExitStepsComplete := fun s =>
  ⟨⟨_, exec_exit_resp s, State.field_cbWrite_self s .resp _, fun _ => State.field_cbWrite_of_ne s _, rfl, rfl, rfl⟩,
    ⟨_, exec_exit_notify s, rfl, rfl, rfl⟩, ⟨_, exec_exit_halt s, rfl, rfl, rfl⟩⟩

end Sys2Proof.Machine

namespace Sys2Proof.Machine

/-! ### The data bit -/

/-- The data bit counted in bytes: bit `b mod 8` of byte `2 - b div 8` (R100). -/
theorem dataBit_eq_byteOfWord_getLsbD (v : Word) (b : Fin 24) :
    dataBit v b = (byteOfWord v (2 - b.val / 8)).getLsbD (b.val % 8) := by
  rw [byteOfWord_getLsbD, decide_eq_true (Nat.mod_lt _ (by decide)), Bool.true_and, dataBit, dataBitIndex]

/-- The data bit lies in bits 0 to 23: the unused byte is never selected (R106). -/
theorem dataBitIndex_lt (b : Fin 24) : dataBitIndex b < 24 := by
  unfold dataBitIndex
  omega

/-- Settles O38: the three groups of eight data bits select bytes 0, 1 and 2 of the record. -/
theorem dataBitIsTheRecordBit : Obligations.DataBitIsTheRecordBit := by
  refine ⟨fun _ _ => rfl, fun green red blue unused b => ?_, by decide⟩
  obtain ⟨hgreen, hred, hblue, -⟩ := byteOfWord_wordOfBytes green red blue unused
  rw [dataBit_eq_byteOfWord_getLsbD]
  split_ifs with h16 h8
  · rw [show 2 - b.val / 8 = 0 by omega, show b.val % 8 = b.val - 16 by omega, hgreen]
  · rw [show 2 - b.val / 8 = 1 by omega, show b.val % 8 = b.val - 8 by omega, hred]
  · rw [show 2 - b.val / 8 = 2 by omega, show b.val % 8 = b.val by omega, hblue]

/-! ### What the zero masks depend on -/

section ZeroMask

variable {cfg : Config} {w w' : Vector Word 24} {b : Fin 24} {k : Fin 4}

/-- The zero mask of a bank depends only on the data bits of the channels on its controlled pins (R101, R102). -/
theorem zeroMask_congr
    (h : ∀ c : Fin 24, cfg.chmap[c].bank = k.val → cfg.pinmask[k].getLsbD cfg.chmap[c].pin = true →
      dataBit w[c] b = dataBit w'[c] b) :
    zeroMask cfg w b k = zeroMask cfg w' b k := by
  refine BitVec.eq_of_getLsbD_eq fun p hp => Bool.eq_iff_iff.2 ?_
  rw [zeroMask_getLsbD cfg w b k ⟨p, hp⟩, zeroMask_getLsbD cfg w' b k ⟨p, hp⟩]
  refine and_congr_right fun hctl => exists_congr fun c => and_congr_right fun hbank => and_congr_right fun hpin => ?_
  rw [h c hbank (hpin ▸ hctl)]

/-- On a controlled pin with one channel, the mask bit is the NOT of that channel's data bit (R105). -/
theorem zeroMask_getLsbD_of_unique {p : Fin 32} {c : Fin 24} (hctl : cfg.pinmask[k].getLsbD p.val = true)
    (hc : cfg.chmap[c] = ⟨k.val, p.val⟩) (huniq : ∀ c' : Fin 24, cfg.chmap[c'] = ⟨k.val, p.val⟩ → c' = c) :
    (zeroMask cfg w b k).getLsbD p.val = !dataBit w[c] b := by
  rw [Bool.eq_iff_iff, zeroMask_getLsbD, Bool.not_eq_true']
  constructor
  · rintro ⟨-, c', hbank, hpin, hbit⟩
    rwa [← huniq c' (by rw [← hbank, ← hpin])]
  · exact fun hbit => ⟨hctl, c, by rw [hc], by rw [hc], hbit⟩

end ZeroMask

/-- Settles O40: WF4 of R10 gives the channel and that it is the only one. -/
theorem lanesDoNotInteract : Obligations.LanesDoNotInteract := by
  intro cfg w b k p hcfg hctl
  obtain ⟨c, hc, huniq⟩ := (failedCheck_eq_none_iff cfg).1 hcfg .wf4 k p hctl
  exact ⟨c, hc, huniq, zeroMask_getLsbD_of_unique hctl hc huniq⟩

/-- Settles O41: the mask ends in the conjunction with PINMASK. -/
theorem zeroMaskWithinPinmask : Obligations.ZeroMaskWithinPinmask := zeroMask_and_not_pinmask

/-- Settles O42: every data bit lies in bits 0 to 23, where the words agree. -/
theorem unusedByteIsNeverSent : Obligations.UnusedByteIsNeverSent := fun _ _ _ b _ h =>
  zeroMask_congr fun c _ _ => h c (dataBitIndex b) (dataBitIndex_lt b)

/-- Settles O43: on a controlled pin the channel is another one, whose word is unchanged. -/
theorem inertChannelsContributeNothing : Obligations.InertChannelsContributeNothing := by
  intro cfg w c word b k hinert
  refine zeroMask_congr fun c' hbank hctl => ?_
  have hne : c.val ≠ c'.val := by
    intro heq
    obtain rfl := Fin.ext heq
    exact Bool.false_ne_true ((hinert k hbank).symm.trans hctl)
  rw [Fin.getElem_fin, Vector.getElem_set_ne _ _ hne, Fin.getElem_fin]

end Sys2Proof.Machine

namespace Sys2Proof.Machine

/-! ### Banks after a write -/

/-- Reading bank `j` after a write of bank `k`. -/
theorem getElem_set_bank (v : Vector Word 4) (k j : Fin 4) (x : Word) : (v.set k x)[j] = if j = k then x else v[j] := by
  simp only [Fin.getElem_fin, Vector.getElem_set, Fin.ext_iff, eq_comm]

section Banks

variable {s t : State} {j : Fin 4}

theorem State.BankLow.of_eq (h : s.BankLow j) (ho : t.out[j] = s.out[j]) (hc : t.config = s.config) : t.BankLow j := by
  rw [State.BankLow, ho, hc]
  exact h

theorem State.PinsLow.of_eq (h : s.PinsLow) (ho : t.out = s.out) (hc : t.config = s.config) : t.PinsLow :=
  fun k => (h k).of_eq (by rw [ho]) hc

/-- A SET write moves the pins of its own bank only. -/
theorem State.BankLow.gpioSet (h : s.BankLow j) {k : Fin 4} (m : Word) (hj : j ≠ k) : (s.gpioSet k m).BankLow j :=
  h.of_eq (by rw [State.gpioSet_out, getElem_set_bank, if_neg hj]) rfl

/-- No CLEAR write raises a pin. -/
theorem State.BankLow.gpioClear (h : s.BankLow j) (k : Fin 4) (m : Word) : (s.gpioClear k m).BankLow j := by
  by_cases hj : j = k
  · subst hj
    have hcomm : s.out[j] &&& ~~~m &&& s.config.pinmask[j] = s.out[j] &&& s.config.pinmask[j] &&& ~~~m := by ac_rfl
    rw [State.BankLow, State.gpioClear_out, getElem_set_bank, if_pos rfl, State.gpioClear_config, hcomm,
      show s.out[j] &&& s.config.pinmask[j] = 0 from h]
    exact BitVec.zero_and
  · exact h.of_eq (by rw [State.gpioClear_out, getElem_set_bank, if_neg hj]) rfl

/-- A CLEAR write of PINMASK brings its bank low. -/
theorem State.bankLow_gpioClear_pinmask (s : State) (k : Fin 4) : (s.gpioClear k s.config.pinmask[k]).BankLow k := by
  rw [State.BankLow, State.gpioClear_out, getElem_set_bank, if_pos rfl, State.gpioClear_config, BitVec.and_assoc,
    BitVec.not_and_self]
  exact BitVec.and_zero

end Banks

/-! ### The law of the controlled pins -/

section PinLaw

variable {s t : State}

/-- With every controlled pin low the law holds anywhere. -/
theorem State.PinsLow.pinLaw (h : s.PinsLow) : s.PinLaw := by
  unfold State.PinLaw
  split
  · exact fun _ j _ => h j
  · trivial
  · exact fun j _ => h j
  · exact h

/-- Outside a cell the law has every controlled pin low (R128). -/
theorem State.PinLaw.pinsLow (h : s.PinLaw) (hx : s.ctl = .transmit → s.phase = .load) : s.PinsLow := by
  unfold State.PinLaw at h
  split at h
  case h_4 => exact h
  all_goals
    rename_i hctl hp
    cases hp.symm.trans (hx hctl)

theorem State.pinLaw_iff_of_rise (hx : s.ctl = .transmit) (hp : s.phase = .rise) :
    s.PinLaw ↔ (s.i = 0 → ∀ j : Fin 4, s.k ≤ j → s.BankLow j) := by
  rw [State.PinLaw, hx, hp]

theorem State.pinLaw_of_mid (hx : s.ctl = .transmit) (hp : s.phase = .mid) : s.PinLaw := by
  rw [State.PinLaw, hx, hp]
  trivial

theorem State.pinLaw_iff_of_low (hx : s.ctl = .transmit) (hp : s.phase = .low) :
    s.PinLaw ↔ ∀ j : Fin 4, j < s.k → s.BankLow j := by
  rw [State.PinLaw, hx, hp]

/-- The law reads the control state, the position and which banks are low. -/
theorem State.PinLaw.of_frame (h : s.PinLaw) (hx : t.ctl = s.ctl) (hp : t.phase = s.phase) (hi : t.i = s.i) (hk : t.k = s.k)
    (hb : ∀ j, s.BankLow j → t.BankLow j) : t.PinLaw := by
  unfold State.PinLaw at h ⊢
  rw [hx, hp, hi, hk]
  split at h
  · exact fun h0 j hj => hb j (h h0 j hj)
  · trivial
  · exact fun j hj => hb j (h j hj)
  · exact fun j => hb j (h j)

/-- RISE raises its own bank only, so in the first sweep the banks after it stay low; the next sweep is not the first. -/
theorem State.PinLaw.rise (h : s.PinLaw) (hx : s.ctl = .transmit) (hp : s.phase = .rise) (m : Word) :
    (s.encodeAtCellStart.gpioSet s.k m).afterRise.PinLaw := by
  rw [State.pinLaw_iff_of_rise hx hp] at h
  obtain ⟨hk, ht⟩ | ⟨-, -, ht⟩ | ⟨-, -, ht⟩ := (s.encodeAtCellStart.gpioSet s.k m).afterRise_cases <;> rw [ht]
  · refine (State.pinLaw_iff_of_rise (by simpa using hx) (by simpa using hp)).2 fun hi j hj => ?_
    simp only [State.gpioSet_k, State.gpioSet_i, State.encodeAtCellStart_k, State.encodeAtCellStart_i] at hk hi hj
    have hlt : s.k < j := by omega
    have hlow : s.encodeAtCellStart.BankLow j := (h hi j hlt.le).of_eq (by simp) (by simp)
    exact hlow.gpioSet m hlt.ne'
  · exact (State.pinLaw_iff_of_rise (by simpa using hx) (by simpa using hp)).2 nofun
  · exact State.pinLaw_of_mid (by simpa using hx) rfl

/-- The full fall starts at bank 0, before which there is no bank. -/
theorem State.pinLaw_afterSelFall (hx : s.ctl = .transmit) (hp : s.phase = .mid) : s.afterSelFall.PinLaw := by
  obtain ⟨-, h⟩ | ⟨-, -, h⟩ | ⟨-, -, h⟩ := s.afterSelFall_cases <;> rw [h]
  · exact State.pinLaw_of_mid hx hp
  · exact State.pinLaw_of_mid hx hp
  · exact (State.pinLaw_iff_of_low (s := { s with k := 0, i := 0, phase := .low }) hx rfl).2 fun j hj =>
      absurd hj (Fin.not_lt_zero j)

/-- With the banks up to the one just cleared low, the law holds after a FULL_FALL write: at the end of a sweep every bank
is low. -/
theorem State.pinLaw_afterFullFall (hx : s.ctl = .transmit) (hp : s.phase = .low) (h : ∀ j : Fin 4, j ≤ s.k → s.BankLow j) :
    s.afterFullFall.PinLaw := by
  have hall (hk : s.k = 3) : s.PinsLow := fun j => h j (by omega)
  obtain ⟨hk, ht⟩ | ⟨-, -, ht⟩ | ⟨hk, -, -, ht⟩ | ⟨hk, -, -, ht⟩ := s.afterFullFall_cases <;> rw [ht]
  · refine (State.pinLaw_iff_of_low (s := { s with k := s.k + 1 }) hx hp).2 fun j hj => h j ?_
    simp only at hj
    omega
  · exact (State.pinLaw_iff_of_low (s := { s with k := 0, i := s.i + 1 }) hx hp).2 fun j hj =>
      absurd hj (Fin.not_lt_zero j)
  · exact State.PinsLow.pinLaw (hall hk)
  · exact ((hall hk).of_eq (by simp) (by simp)).pinLaw

/-- FULL_FALL clears its own bank and raises none. -/
theorem State.PinLaw.fullFall (h : s.PinLaw) (hx : s.ctl = .transmit) (hp : s.phase = .low) :
    (s.gpioClear s.k s.config.pinmask[s.k]).afterFullFall.PinLaw := by
  rw [State.pinLaw_iff_of_low hx hp] at h
  refine State.pinLaw_afterFullFall hx hp fun j hj => ?_
  obtain hlt | rfl := lt_or_eq_of_le hj
  · exact (h j hlt).gpioClear _ _
  · exact s.bankLow_gpioClear_pinmask s.k

/-- Every transition of the block keeps the law: outside the cell's three phases none writes OUT (R128). -/
theorem BlockTransition.pinLaw (h : BlockTransition s t) (hs : s.PinLaw) : t.PinLaw := by
  cases h
  case rise hx hp => exact hs.rise hx hp _
  case selFall hx hp => exact State.pinLaw_afterSelFall hx hp
  case fullFall hx hp => exact hs.fullFall hx hp
  all_goals exact ((hs.pinsLow (by simp [*])).of_eq (by simp) (by simp)).pinLaw

/-- No move of the environment raises a controlled pin (R30, R193). -/
theorem State.BankLow.turn_environment {j : Fin 4} (hb : s.BankLow j) (h : s.turn = .environment t) : t.BankLow j := by
  obtain ⟨m, rest, -, hm⟩ := State.turn_environment h
  obtain ⟨_, _, -, rfl⟩ | ⟨_, _, -, rfl⟩ | ⟨_, _, _, -, -, rfl⟩ | ⟨-, -, rfl⟩ | ⟨-, rfl⟩ | ⟨k, v, -, rfl⟩ | ⟨-, rfl⟩ |
    ⟨-, rfl⟩ := hm
  case inr.inr.inr.inr.inr.inl => exact (State.setOtherPins_controlled k v { s with moves := rest } j).trans hb
  case inr.inr.inr.inr.inr.inr.inl =>
    by_cases hx : s.ctl = .boot
    · exact (State.bringPinsLow_of_boot (s := { s with moves := rest }) hx).1 j
    · rw [State.bringPinsLow_of_ne_boot (s := { s with moves := rest }) hx]
      exact hb
  all_goals exact hb

/-- A move of the environment other than a restart keeps the law. -/
theorem State.PinLaw.turn_environment (hs : s.PinLaw) (h : s.turn = .environment t) (hr : s.moves.head? ≠ some .restart) :
    t.PinLaw := by
  obtain ⟨-, hf⟩ := State.turn_environment_frame h hr
  exact hs.of_frame (by rw [hf]) (by rw [hf]) (by rw [hf]) (by rw [hf]) fun j hj => hj.turn_environment h

/-- No transition of the block touches the moves to come. -/
theorem BlockTransition.moves (h : BlockTransition s t) : t.moves = s.moves := by
  cases h <;> simp

/-- A move of the environment takes itself off the moves to come. -/
theorem State.turn_environment_moves (h : s.turn = .environment t) : ∃ m, s.moves = m :: t.moves := by
  obtain ⟨m, rest, hmoves, hm⟩ := State.turn_environment h
  refine ⟨m, hmoves.trans ?_⟩
  obtain ⟨_, _, -, rfl⟩ | ⟨_, _, -, rfl⟩ | ⟨_, _, _, -, -, rfl⟩ | ⟨-, -, rfl⟩ | ⟨-, rfl⟩ | ⟨_, _, -, rfl⟩ | ⟨-, rfl⟩ |
    ⟨-, rfl⟩ := hm
  case inr.inr.inr.inr.inr.inr.inl => rw [State.bringPinsLow_frame]
  all_goals rfl

/-- A step takes at most the first of the moves to come. -/
theorem step_moves (h : step s = .next t) : t.moves = s.moves ∨ ∃ m, s.moves = m :: t.moves := by
  obtain ⟨-, ⟨s', ht, hb⟩ | ht⟩ := step_next_cases h
  · rw [hb.moves]
    exact (State.turn_block_moves ht).imp id fun hm => ⟨_, hm⟩
  · exact .inr (State.turn_environment_moves ht)

theorem State.restartFree_iff : s.restartFree = true ↔ .restart ∉ s.moves := by
  simp [State.restartFree]

/-- The run stays free of restarts. -/
theorem State.restartFree_of_step (hs : s.restartFree = true) (h : step s = .next t) : t.restartFree = true := by
  rw [State.restartFree_iff] at hs ⊢
  obtain hm | ⟨m, hm⟩ := step_moves h
  · rwa [hm]
  · rw [hm] at hs
    exact fun hmem => hs (List.mem_cons_of_mem m hmem)

end PinLaw

/-- Settles O50: the block's turn, each transition of the block and each move of the environment but a restart keep the
law, and no step adds a move. -/
theorem stepKeepsPinsLowBetweenCells : Obligations.StepKeepsPinsLowBetweenCells := by
  refine fun s t hfree hs h => ⟨?_, State.restartFree_of_step hfree h⟩
  obtain ⟨-, ⟨s', ht, hb⟩ | ht⟩ := step_next_cases h
  · refine hb.pinLaw ?_
    rw [State.turn_block ht]
    exact hs
  · refine hs.turn_environment ht fun hr => State.restartFree_iff.1 hfree ?_
    exact List.mem_of_head? hr

/-- Settles O51: OUT is 0 at reset and no move is to come. -/
theorem resetHasPinsLow : Obligations.ResetHasPinsLow :=
  ⟨State.PinsLow.pinLaw fun k => by simp [State.BankLow, State.reset], rfl⟩

/-! ### The pins outside PINMASK -/

/-- A mask within another has none of its bits outside. -/
theorem getElem_eq_false_of_within {m q : Word} {p : Nat} (hm : m &&& ~~~q = 0) (hp : p < 32) (hq : q[p] = false) :
    m[p] = false := by
  simpa [hq] using congrArg (·[p]) hm

/-- Clearing pins within `q` leaves those outside `q`. -/
theorem and_not_and_not_of_within (o : Word) {m q : Word} (hm : m &&& ~~~q = 0) : o &&& ~~~m &&& ~~~q = o &&& ~~~q := by
  ext p hp
  cases hq : q[p]
  · simp [getElem_eq_false_of_within hm hp hq]
  · simp [hq]

section OtherPins

variable {s t : State}

theorem State.otherPins_of_eq (ho : t.out = s.out) (hc : t.config = s.config) (j : Fin 4) : t.otherPins j = s.otherPins j := by
  rw [State.otherPins, ho, hc]

/-- A SET write within PINMASK moves no pin outside it (R43). -/
theorem State.otherPins_gpioSet {k : Fin 4} {m : Word} (hm : m &&& ~~~s.config.pinmask[k] = 0) (j : Fin 4) :
    (s.gpioSet k m).otherPins j = s.otherPins j := by
  rw [State.otherPins, State.gpioSet_out, getElem_set_bank]
  split_ifs with hj
  · subst hj
    rw [State.gpioSet_config, BitVec.and_or_distrib_right, hm]
    exact BitVec.or_zero
  · rfl

/-- A CLEAR write within PINMASK moves no pin outside it (R43). -/
theorem State.otherPins_gpioClear {k : Fin 4} {m : Word} (hm : m &&& ~~~s.config.pinmask[k] = 0) (j : Fin 4) :
    (s.gpioClear k m).otherPins j = s.otherPins j := by
  rw [State.otherPins, State.gpioClear_out, getElem_set_bank]
  split_ifs with hj
  · subst hj
    exact and_not_and_not_of_within _ hm
  · rfl

end OtherPins

/-- Settles O47: the instructions that write OUT are RISE and FULL_FALL, whose mask is PINMASK, and SEL_FALL, whose mask is
within PINMASK by the invariant. -/
theorem pinsOutsidePinmaskNeverMove : Obligations.PinsOutsidePinmaskNeverMove := by
  intro i s t hs h k
  cases i with
  | rise =>
    cases (exec_rise s).symm.trans h
    calc (s.encodeAtCellStart.gpioSet s.k s.config.pinmask[s.k]).afterRise.otherPins k
      _ = (s.encodeAtCellStart.gpioSet s.k s.config.pinmask[s.k]).otherPins k := State.otherPins_of_eq (by simp) (by simp) k
      _ = s.encodeAtCellStart.otherPins k := State.otherPins_gpioSet (by simp) k
      _ = s.otherPins k := State.otherPins_of_eq (by simp) (by simp) k
  | selFall =>
    cases (exec_selFall s).symm.trans h
    exact (State.otherPins_of_eq (by simp) (by simp) k).trans (State.otherPins_gpioClear (hs.maskedZm s.k) k)
  | fullFall =>
    cases (exec_fullFall s).symm.trans h
    exact (State.otherPins_of_eq (by simp) (by simp) k).trans
      (State.otherPins_gpioClear (k := s.k) (m := s.config.pinmask[s.k]) (by simp) k)
  | loadRow =>
    cases ha : admitsRead s.config s.loadAddress with
    | true =>
      cases (exec_loadRow_of_admitted s ha).symm.trans h
      exact State.otherPins_of_eq (by simp) (by simp) k
    | false => cases (exec_loadRow_of_not_admitted s ha).symm.trans h
  | cmdExit => cases h; split <;> rfl
  | cmdStart =>
    cases h
    split
    · exact State.otherPins_of_eq (by simp) (by simp) k
    · rfl
  | accept part =>
    cases part with
    | addr | rows | resp => cases h; rfl
    | cmd =>
      cases h
      rw [State.acceptCmd_frame]
  | report part => cases part <;> cases h <;> rfl
  | exit part => cases part <;> cases h <;> rfl
  | advanceRow =>
    cases h
    exact State.otherPins_of_eq (by simp) (by simp) k
  | cmdIdle | boot | notify | poll | latch | encode => cases h; rfl

/-! ### The emitter's steps -/

theorem isLastBank_iff (k : Fin 4) : isLastBank k = true ↔ k = 3 := by
  simp only [isLastBank, Bool.not_eq_true', decide_eq_false_iff_not]
  omega

theorem isLastRepetition_iff (i reps : Nat) : isLastRepetition i reps = true ↔ ¬ i < reps - 1 := by
  simp only [isLastRepetition, Bool.not_eq_true', decide_eq_false_iff_not]

theorem isLastBit_iff (b : Fin 24) : isLastBit b = true ↔ b = 0 := by
  simp only [isLastBit, Bool.not_eq_true', decide_eq_false_iff_not]
  omega

section Position

variable {s : State}

theorem State.encodeAtCellStart_of_start (h : s.i = 0 ∧ s.k = 0) : s.encodeAtCellStart = s.encodeMasks := if_pos h

theorem State.encodeAtCellStart_of_not_start (h : ¬ (s.i = 0 ∧ s.k = 0)) : s.encodeAtCellStart = s := if_neg h

/-- ENCODE writes ZM only (R103). -/
theorem State.encodeAtCellStart_frame (s : State) : s.encodeAtCellStart = { s with zm := s.encodeAtCellStart.zm } := by
  unfold State.encodeAtCellStart
  split <;> rfl

/-- The next bank (R122). -/
theorem State.afterRise_of_bank (hk : s.k < 3) : s.afterRise = { s with k := s.k + 1 } := by
  rw [State.afterRise, if_neg (mt (isLastBank_iff s.k).1 hk.ne)]

/-- The next sweep (R122). -/
theorem State.afterRise_of_sweep (hk : s.k = 3) (hi : s.i < s.config.nRise - 1) :
    s.afterRise = { s with k := 0, i := s.i + 1 } := by
  rw [State.afterRise, if_pos ((isLastBank_iff s.k).2 hk), if_neg fun h => (isLastRepetition_iff _ _).1 h hi]

/-- The selective fall (R122). -/
theorem State.afterRise_of_last (hk : s.k = 3) (hi : ¬ s.i < s.config.nRise - 1) :
    s.afterRise = { s with k := 0, i := 0, phase := .mid } := by
  rw [State.afterRise, if_pos ((isLastBank_iff s.k).2 hk), if_pos ((isLastRepetition_iff _ _).2 hi)]

/-- A RISE write moves the position only (R122). -/
theorem State.afterRise_frame (s : State) :
    s.afterRise = { s with k := s.afterRise.k, i := s.afterRise.i, phase := s.afterRise.phase } := by
  obtain ⟨-, h⟩ | ⟨-, -, h⟩ | ⟨-, -, h⟩ := s.afterRise_cases <;> rw [h]

/-- The next bank (R123). -/
theorem State.afterSelFall_of_bank (hk : s.k < 3) : s.afterSelFall = { s with k := s.k + 1 } := by
  rw [State.afterSelFall, if_neg (mt (isLastBank_iff s.k).1 hk.ne)]

/-- The next sweep (R123). -/
theorem State.afterSelFall_of_sweep (hk : s.k = 3) (hi : s.i < s.config.nMid - 1) :
    s.afterSelFall = { s with k := 0, i := s.i + 1 } := by
  rw [State.afterSelFall, if_pos ((isLastBank_iff s.k).2 hk), if_neg fun h => (isLastRepetition_iff _ _).1 h hi]

/-- The full fall (R123). -/
theorem State.afterSelFall_of_last (hk : s.k = 3) (hi : ¬ s.i < s.config.nMid - 1) :
    s.afterSelFall = { s with k := 0, i := 0, phase := .low } := by
  rw [State.afterSelFall, if_pos ((isLastBank_iff s.k).2 hk), if_pos ((isLastRepetition_iff _ _).2 hi)]

/-- A SEL_FALL write moves the position only (R123). -/
theorem State.afterSelFall_frame (s : State) :
    s.afterSelFall = { s with k := s.afterSelFall.k, i := s.afterSelFall.i, phase := s.afterSelFall.phase } := by
  obtain ⟨-, h⟩ | ⟨-, -, h⟩ | ⟨-, -, h⟩ := s.afterSelFall_cases <;> rw [h]

/-- The next bank (R124). -/
theorem State.afterFullFall_of_bank (hk : s.k < 3) : s.afterFullFall = { s with k := s.k + 1 } := by
  rw [State.afterFullFall, if_neg (mt (isLastBank_iff s.k).1 hk.ne)]

/-- The next sweep (R124). -/
theorem State.afterFullFall_of_sweep (hk : s.k = 3) (hi : s.i < s.config.nLow - 1) :
    s.afterFullFall = { s with k := 0, i := s.i + 1 } := by
  rw [State.afterFullFall, if_pos ((isLastBank_iff s.k).2 hk), if_neg fun h => (isLastRepetition_iff _ _).1 h hi]

/-- The end of the cell (R124). -/
theorem State.afterFullFall_of_last (hk : s.k = 3) (hi : ¬ s.i < s.config.nLow - 1) : s.afterFullFall = s.afterCell := by
  rw [State.afterFullFall, if_pos ((isLastBank_iff s.k).2 hk), if_pos ((isLastRepetition_iff _ _).2 hi)]

/-- The next cell of the row (R124). -/
theorem State.afterCell_of_pos (hb : s.b > 0) : s.afterCell = { s with k := 0, i := 0, b := s.b - 1, phase := .rise } := by
  rw [State.afterCell, if_neg (mt (isLastBit_iff s.b).1 hb.ne')]

/-- ADVANCE_ROW after the row's last cell (R124, R143). -/
theorem State.afterCell_of_eq_zero (hb : s.b = 0) : s.afterCell = State.stepRow { s with k := 0, i := 0 } := by
  rw [State.afterCell, if_pos ((isLastBit_iff s.b).2 hb)]

end Position

/-- Settles O44: ENCODE at a cell's start, the write, and the three positions after it. -/
theorem riseSetsTheControlledPins : Obligations.RiseSetsTheControlledPins := by
  intro s
  let u := s.encodeAtCellStart.gpioSet s.k s.config.pinmask[s.k]
  have hk : u.k = s.k := by simp [u]
  have hi : u.i = s.i := by simp [u]
  have hc : u.config = s.config := by simp [u]
  have hp : u.phase = s.phase := by simp [u]
  refine ⟨u.afterRise, exec_rise s, by simp [u], fun h => ?_, fun h => ?_, by simp [u], fun h => ?_, fun h h' => ?_,
    fun h h' => ?_, ?_⟩
  · simp [u, State.encodeAtCellStart_of_start h]
  · simp [u, State.encodeAtCellStart_of_not_start h]
  · rw [State.afterRise_of_bank (hk ▸ h)]
    exact ⟨congrArg (· + 1) hk, hi, hp⟩
  · rw [State.afterRise_of_sweep (hk.trans h) (by rwa [hi, hc])]
    exact ⟨rfl, congrArg (· + 1) hi, hp⟩
  · rw [State.afterRise_of_last (hk.trans h) (by rwa [hi, hc])]
    exact ⟨rfl, rfl, rfl⟩
  · rw [State.afterRise_frame]
    simp only [u]
    rw [State.encodeAtCellStart_frame]
    rfl

/-- Settles O45: the write and the three positions after it. -/
theorem selFallClearsTheZeroBits : Obligations.SelFallClearsTheZeroBits := by
  intro s
  let u := s.gpioClear s.k s.zm[s.k]
  refine ⟨u.afterSelFall, exec_selFall s, by simp [u], by simp [u], fun h => ?_, fun h h' => ?_, fun h h' => ?_, ?_⟩
  · rw [State.afterSelFall_of_bank (s := u) h]
    exact ⟨rfl, rfl, rfl⟩
  · rw [State.afterSelFall_of_sweep (s := u) h h']
    exact ⟨rfl, rfl, rfl⟩
  · rw [State.afterSelFall_of_last (s := u) h h']
    exact ⟨rfl, rfl, rfl⟩
  · rw [State.afterSelFall_frame]
    rfl

/-- Settles O46: the write and the four positions after it, the last by ADVANCE_ROW. -/
theorem fullFallClearsTheControlledPins : Obligations.FullFallClearsTheControlledPins := by
  intro s
  let u := s.gpioClear s.k s.config.pinmask[s.k]
  have hout : u.afterFullFall.out = u.out := State.afterFullFall_out u
  have htrace : u.afterFullFall.trace = u.trace := State.afterFullFall_trace u
  refine ⟨u.afterFullFall, exec_fullFall s, hout, htrace, fun h => ?_, fun h h' => ?_, fun h h' hb => ?_, fun h h' hb => ?_⟩
  · rw [State.afterFullFall_of_bank (s := u) h]
    rfl
  · rw [State.afterFullFall_of_sweep (s := u) h h']
    rfl
  · rw [State.afterFullFall_of_last (s := u) h h', State.afterCell_of_pos (s := u) hb]
    rfl
  · rw [hout, htrace, State.afterFullFall_of_last (s := u) h h', State.afterCell_of_eq_zero (s := u) hb]
    exact exec_advanceRow _

/-! ### A run, and the writes of a cell by their place -/

/-- A run of one step more ends with the step of the state it came to. -/
theorem run_succ_last (M : Host.Core) {s t : M.State} {k : Nat} (h : M.run k s = .next t) : M.run (k + 1) s = M.step t := by
  induction k generalizing s with
  | zero =>
    cases h
    rw [Host.Core.run]
    cases M.step t <;> rfl
  | succ k ih =>
    rw [Host.Core.run] at h ⊢
    cases hs : M.step s with
    | next s' =>
      rw [hs] at h
      exact ih h
    | fault | refused =>
      rw [hs] at h
      cases h

theorem sweepsEvents_succ (reps : Nat) (write : Fin 4 → Event) :
    sweepsEvents (reps + 1) write = sweepEvents write ++ sweepsEvents reps write := by
  rw [sweepsEvents, List.replicate_succ, List.flatten_cons, sweepsEvents]

@[simp] theorem length_sweepsEvents (reps : Nat) (write : Fin 4 → Event) : (sweepsEvents reps write).length = 4 * reps := by
  induction reps with
  | zero => rfl
  | succ reps ih =>
    rw [sweepsEvents_succ, List.length_append, ih, Nat.mul_succ, Nat.add_comm]
    rfl

/-- Write `4·i + k` of the sweeps is the one of bank `k` (R121). -/
theorem sweepsEvents_getElem? {reps i : Nat} (hi : i < reps) (write : Fin 4 → Event) (k : Fin 4) :
    (sweepsEvents reps write)[4 * i + k.val]? = some (write k) := by
  induction reps generalizing i with
  | zero => exact absurd hi (Nat.not_lt_zero i)
  | succ reps ih =>
    rw [sweepsEvents_succ]
    cases i with
    | zero => fin_cases k <;> rfl
    | succ i =>
      have hlen : (sweepEvents write).length = 4 := rfl
      rw [List.getElem?_append_right (by omega), hlen, ← ih (Nat.lt_of_succ_lt_succ hi)]
      congr 1
      omega

section CellEvents

variable {cfg : Config} {w : Vector Word 24} {b : Fin 24} {i : Nat} (k : Fin 4)

theorem cellEvents_getElem?_rise (hi : i < cfg.nRise) :
    (cellEvents cfg w b)[4 * i + k.val]? = some (.gset k cfg.pinmask[k]) := by
  rw [cellEvents, List.append_assoc, List.getElem?_append_left (by simp; omega), sweepsEvents_getElem? hi]

theorem cellEvents_getElem?_mid (hi : i < cfg.nMid) :
    (cellEvents cfg w b)[4 * cfg.nRise + (4 * i + k.val)]? = some (.gclr k (zeroMask cfg w b k)) := by
  rw [cellEvents, List.append_assoc, List.getElem?_append_right (by simp), length_sweepsEvents, Nat.add_sub_cancel_left,
    List.getElem?_append_left (by simp; omega), sweepsEvents_getElem? hi]

theorem cellEvents_getElem?_low (hi : i < cfg.nLow) :
    (cellEvents cfg w b)[4 * (cfg.nRise + cfg.nMid) + (4 * i + k.val)]? = some (.gclr k cfg.pinmask[k]) := by
  rw [cellEvents, List.getElem?_append_right (by simp; omega), List.length_append, length_sweepsEvents, length_sweepsEvents,
    ← Nat.mul_add, Nat.add_sub_cancel_left, sweepsEvents_getElem? hi]

theorem length_cellEvents (cfg : Config) (w : Vector Word 24) (b : Fin 24) : (cellEvents cfg w b).length = cellSteps cfg := by
  simp only [cellEvents, List.length_append, length_sweepsEvents, cellSteps, Nat.mul_add]

end CellEvents

/-! ### The levels of a bank through a cell -/

/-- The output of bank `k` after `j` writes of a cell that found it at `o`, with zero mask `z` (R126). -/
def cellLevels (cfg : Config) (o z : Word) (k : Fin 4) (j : Nat) : Word :=
  if j ≤ k.val then o
  else if j ≤ 4 * cfg.nRise + k.val then o ||| cfg.pinmask[k]
  else if j ≤ 4 * (cfg.nRise + cfg.nMid) + k.val then (o ||| cfg.pinmask[k]) &&& ~~~z
  else o &&& ~~~cfg.pinmask[k]

section Levels

variable {cfg : Config} {o z : Word} {k : Fin 4} {i j : Nat}

theorem cellLevels_start (h : j ≤ k.val) : cellLevels cfg o z k j = o := if_pos h

theorem cellLevels_rise (h : k.val < j) (h' : j ≤ 4 * cfg.nRise + k.val) : cellLevels cfg o z k j = o ||| cfg.pinmask[k] := by
  rw [cellLevels, if_neg (by omega), if_pos h']

theorem cellLevels_mid (h : 4 * cfg.nRise + k.val < j) (h' : j ≤ 4 * (cfg.nRise + cfg.nMid) + k.val) :
    cellLevels cfg o z k j = (o ||| cfg.pinmask[k]) &&& ~~~z := by
  rw [cellLevels, if_neg (by omega), if_neg (by omega), if_pos h']

theorem cellLevels_low (h : 4 * (cfg.nRise + cfg.nMid) + k.val < j) : cellLevels cfg o z k j = o &&& ~~~cfg.pinmask[k] := by
  rw [cellLevels, if_neg (by omega), if_neg (by omega), if_neg (by omega)]

/-- Write `j` moves no bank but `j mod 4`. -/
theorem cellLevels_succ_of_ne (h : j % 4 ≠ k.val) : cellLevels cfg o z k (j + 1) = cellLevels cfg o z k j := by
  have hle (x : Nat) : j + 1 ≤ 4 * x + k.val ↔ j ≤ 4 * x + k.val := by omega
  have h0 : j + 1 ≤ k.val ↔ j ≤ k.val := by omega
  simp only [cellLevels, hle, h0]

/-- A RISE write (R122). -/
theorem cellLevels_succ_rise (hi : i < cfg.nRise) :
    cellLevels cfg o z k (4 * i + k.val + 1) = cellLevels cfg o z k (4 * i + k.val) ||| cfg.pinmask[k] := by
  rw [cellLevels_rise (by omega) (by omega)]
  obtain rfl | h0 := Nat.eq_zero_or_pos i
  · rw [cellLevels_start (by omega)]
  · rw [cellLevels_rise (by omega) (by omega), BitVec.or_assoc, BitVec.or_self]

/-- A SEL_FALL write, after at least one RISE sweep (R123). -/
theorem cellLevels_succ_mid (hr : 1 ≤ cfg.nRise) (hi : i < cfg.nMid) :
    cellLevels cfg o z k (4 * cfg.nRise + (4 * i + k.val) + 1) =
      cellLevels cfg o z k (4 * cfg.nRise + (4 * i + k.val)) &&& ~~~z := by
  rw [cellLevels_mid (by omega) (by omega)]
  obtain rfl | h0 := Nat.eq_zero_or_pos i
  · rw [cellLevels_rise (by omega) (by omega)]
  · rw [cellLevels_mid (by omega) (by omega), BitVec.and_assoc, BitVec.and_self]

/-- A FULL_FALL write, after at least one SEL_FALL sweep (R124). -/
theorem cellLevels_succ_low (hz : z &&& ~~~cfg.pinmask[k] = 0) (hm : 1 ≤ cfg.nMid) :
    cellLevels cfg o z k (4 * (cfg.nRise + cfg.nMid) + (4 * i + k.val) + 1) =
      cellLevels cfg o z k (4 * (cfg.nRise + cfg.nMid) + (4 * i + k.val)) &&& ~~~cfg.pinmask[k] := by
  rw [cellLevels_low (by omega)]
  obtain rfl | h0 := Nat.eq_zero_or_pos i
  · rw [cellLevels_mid (by omega) (by omega), and_not_and_not_of_within _ hz, BitVec.and_or_distrib_right, BitVec.and_not_self]
    exact BitVec.or_zero.symm
  · rw [cellLevels_low (by omega), BitVec.and_assoc, BitVec.and_self]

/-- The level of a controlled pin: high from its rise to its fall (R126). -/
theorem cellLevels_getLsbD {p : Fin 32} {v : Bool} (hp : cfg.pinmask[k].getLsbD p.val = true) (hz : z.getLsbD p.val = !v)
    (hj : k.val ≤ j) : (cellLevels cfg o z k (j + 1)).getLsbD p.val = true ↔ j < fallStep cfg k v := by
  unfold fallStep
  by_cases hrise : j + 1 ≤ 4 * cfg.nRise + k.val
  · rw [cellLevels_rise (by omega) hrise, BitVec.getLsbD_or, hp]
    simp only [Bool.or_true, true_iff]
    split <;> omega
  by_cases hmid : j + 1 ≤ 4 * (cfg.nRise + cfg.nMid) + k.val
  · rw [cellLevels_mid (by omega) hmid, BitVec.getLsbD_and, BitVec.getLsbD_or, BitVec.getLsbD_not, hp, hz]
    cases v <;> simp <;> omega
  · rw [cellLevels_low (by omega), BitVec.getLsbD_and, BitVec.getLsbD_not, hp]
    cases v <;> simp <;> omega

end Levels

/-! ### The states of a cell -/

/-- `s` is reached from the cell start `s₀` by `j` writes of the cell: they are in the trace and in OUT, the masks are in ZM
from the first on, and nothing else has changed but the position. -/
structure State.WroteCell (s₀ s : State) (j : Nat) : Prop where
  frame : s = { s₀ with out := s.out, zm := s.zm, k := s.k, i := s.i, phase := s.phase, trace := s.trace }
  masks : 0 < j → s.zm = Vector.ofFn (zeroMask s₀.config s₀.w s₀.b)
  trace : s.trace = s₀.trace ++ (cellEvents s₀.config s₀.w s₀.b).take j
  out : ∀ k : Fin 4, s.out[k] = cellLevels s₀.config s₀.out[k] (zeroMask s₀.config s₀.w s₀.b k) k j

/-- The writes of a cell before the first of a phase (R120). -/
def phaseStart (cfg : Config) : Phase → Nat
  | .load => 0
  | .rise => 0
  | .mid => 4 * cfg.nRise
  | .low => 4 * (cfg.nRise + cfg.nMid)

/-- The position is that of write `j` of a cell, counted from 0 (R120, R121). -/
structure State.AtWrite (s : State) (j : Nat) : Prop where
  inCell : s.phase ≠ .load
  repetition : s.i < phaseReps s.config s.phase
  count : j = phaseStart s.config s.phase + (4 * s.i + s.k.val)

section Writes

variable {s₀ s t u : State} {j : Nat}

theorem State.WroteCell.config (h : s₀.WroteCell s j) : s.config = s₀.config := by rw [h.frame]

/-- At the start of a cell nothing is written yet. -/
theorem State.wroteCell_zero (s : State) : s.WroteCell s 0 where
  frame := rfl
  masks h := absurd h (Nat.not_lt_zero 0)
  trace := by rw [List.take_zero, List.append_nil]
  out k := (cellLevels_start (Nat.zero_le _)).symm

/-- The position is nothing to what is written. -/
theorem State.WroteCell.move (h : s₀.WroteCell u j) (ht : t = { u with k := t.k, i := t.i, phase := t.phase }) :
    s₀.WroteCell t j := by
  rw [ht]
  exact { h with frame := by rw [h.frame] }

/-- One write more: of bank `j mod 4`, as the cell's prescribed trace and levels have it. -/
theorem State.WroteCell.write (h : s₀.WroteCell s j) {k : Fin 4} {e : Event} {x : Word} (hk : j % 4 = k.val)
    (he : (cellEvents s₀.config s₀.w s₀.b)[j]? = some e)
    (hx : x = cellLevels s₀.config s₀.out[k] (zeroMask s₀.config s₀.w s₀.b k) k (j + 1))
    (hu : u = { s with out := s.out.set k x, zm := Vector.ofFn (zeroMask s₀.config s₀.w s₀.b), trace := s.trace ++ [e] }) :
    s₀.WroteCell u (j + 1) := by
  subst hu
  refine ⟨by rw [h.frame], fun _ => rfl, ?_, fun k' => ?_⟩
  · rw [List.take_add_one, he, ← List.append_assoc, ← h.trace]
    rfl
  · rw [getElem_set_bank]
    split_ifs with hk'
    · rw [hx, hk']
    · rw [h.out, cellLevels_succ_of_ne fun hj => hk' (Fin.ext (hj.symm.trans hk))]

/-- The step of RISE up to its position (R122). -/
theorem State.WroteCell.rise (h : s₀.WroteCell s j) (ha : s.AtWrite j) (hp : s.phase = .rise) :
    s₀.WroteCell (s.encodeAtCellStart.gpioSet s.k s.config.pinmask[s.k]) (j + 1) := by
  obtain ⟨-, hi, hj⟩ := ha
  have hc := h.config
  have hzm : s.encodeAtCellStart.zm = Vector.ofFn (zeroMask s₀.config s₀.w s₀.b) := by
    by_cases hstart : s.i = 0 ∧ s.k = 0
    · rw [State.encodeAtCellStart_of_start hstart, h.frame]
      rfl
    · rw [State.encodeAtCellStart_of_not_start hstart, h.masks (by omega)]
  simp only [hp, hc, phaseReps, phaseStart, Nat.zero_add] at hi hj
  subst hj
  refine h.write (k := s.k) (by omega) (cellEvents_getElem?_rise s.k hi) (x := s.out[s.k] ||| s.config.pinmask[s.k]) ?_ ?_
  · rw [cellLevels_succ_rise hi, ← h.out, hc]
  · rw [State.encodeAtCellStart_frame, hzm, hc]
    rfl

/-- The step of SEL_FALL up to its position (R123). -/
theorem State.WroteCell.selFall (h : s₀.WroteCell s j) (ha : s.AtWrite j) (hp : s.phase = .mid) (hr : 1 ≤ s₀.config.nRise) :
    s₀.WroteCell (s.gpioClear s.k s.zm[s.k]) (j + 1) := by
  obtain ⟨-, hi, hj⟩ := ha
  simp only [hp, h.config, phaseReps, phaseStart] at hi hj
  have hzm := h.masks (by omega)
  have hz : s.zm[s.k] = zeroMask s₀.config s₀.w s₀.b s.k := by simp [hzm]
  subst hj
  refine h.write (k := s.k) (by omega) (cellEvents_getElem?_mid s.k hi) (x := s.out[s.k] &&& ~~~s.zm[s.k]) ?_ ?_
  · rw [cellLevels_succ_mid hr hi, ← h.out, hz]
  · rw [← hzm, ← hz]
    rfl

/-- The step of FULL_FALL up to its position (R124). -/
theorem State.WroteCell.fullFall (h : s₀.WroteCell s j) (ha : s.AtWrite j) (hp : s.phase = .low) (hm : 1 ≤ s₀.config.nMid) :
    s₀.WroteCell (s.gpioClear s.k s.config.pinmask[s.k]) (j + 1) := by
  obtain ⟨-, hi, hj⟩ := ha
  simp only [hp, h.config, phaseReps, phaseStart] at hi hj
  have hzm := h.masks (by omega)
  subst hj
  refine h.write (k := s.k) (e := .gclr s.k s.config.pinmask[s.k]) (x := s.out[s.k] &&& ~~~s.config.pinmask[s.k]) (by omega)
    (by rw [h.config]; exact cellEvents_getElem?_low s.k hi) ?_ ?_
  · rw [cellLevels_succ_low (zeroMask_and_not_pinmask _ _ _ _) hm, ← h.out, h.config]
  · rw [← hzm]
    rfl

/-- The next bank of the sweep is the next write's. -/
theorem State.AtWrite.nextBank (h : s.AtWrite j) (hk : s.k.val < 3) : State.AtWrite { s with k := s.k + 1 } (j + 1) := by
  obtain ⟨hp, hi, hj⟩ := h
  have hk' : (s.k + 1).val = s.k.val + 1 := by omega
  exact ⟨hp, hi, by simp only [hk']; omega⟩

/-- After bank 3 the next sweep's first write is the next. -/
theorem State.AtWrite.nextSweep (h : s.AtWrite j) (hk : s.k = 3) (hi : s.i + 1 < phaseReps s.config s.phase) :
    State.AtWrite { s with k := 0, i := s.i + 1 } (j + 1) := by
  obtain ⟨hp, -, hj⟩ := h
  exact ⟨hp, hi, by simp only [Fin.val_zero]; omega⟩

/-- The last write of a phase. -/
theorem State.AtWrite.phaseEnd (h : s.AtWrite j) (hk : s.k = 3) (hi : phaseReps s.config s.phase ≤ s.i + 1) :
    j + 1 = phaseStart s.config s.phase + 4 * phaseReps s.config s.phase := by
  obtain ⟨-, hi', hj⟩ := h
  omega

/-- The first write of a phase that makes a sweep. -/
theorem State.atWrite_phaseStart (s : State) {p : Phase} (hp : p ≠ .load) (hr : 1 ≤ phaseReps s.config p) :
    State.AtWrite { s with k := 0, i := 0, phase := p } (phaseStart s.config p) :=
  ⟨hp, hr, rfl⟩

/-- After a RISE write the position is the next write's: the selective fall makes a sweep by WF5. -/
theorem State.AtWrite.afterRise (h : s.AtWrite j) (hp : s.phase = .rise) (hm : 1 ≤ s.config.nMid) :
    s.afterRise.AtWrite (j + 1) := by
  obtain ⟨hk, ht⟩ | ⟨hk, hi, ht⟩ | ⟨hk, hi, ht⟩ := s.afterRise_cases <;> rw [ht]
  · exact h.nextBank hk
  · exact h.nextSweep hk (by rwa [hp])
  · have hend : j + 1 = phaseStart s.config .mid := by
      rw [h.phaseEnd hk (by rwa [hp]), hp]
      exact Nat.zero_add _
    rw [hend]
    exact s.atWrite_phaseStart nofun hm

/-- After a SEL_FALL write the position is the next write's: the full fall makes a sweep by WF5. -/
theorem State.AtWrite.afterSelFall (h : s.AtWrite j) (hp : s.phase = .mid) (hl : 1 ≤ s.config.nLow) :
    s.afterSelFall.AtWrite (j + 1) := by
  obtain ⟨hk, ht⟩ | ⟨hk, hi, ht⟩ | ⟨hk, hi, ht⟩ := s.afterSelFall_cases <;> rw [ht]
  · exact h.nextBank hk
  · exact h.nextSweep hk (by rwa [hp])
  · have hend : j + 1 = phaseStart s.config .low := by
      rw [h.phaseEnd hk (by rwa [hp]), hp]
      exact (Nat.mul_add _ _ _).symm
    rw [hend]
    exact s.atWrite_phaseStart nofun hl

/-- After a FULL_FALL write the position is the next write's, or the cell is written. -/
theorem State.AtWrite.afterFullFall (h : s.AtWrite j) (hp : s.phase = .low) :
    (s.afterFullFall.AtWrite (j + 1) ∧
      s.afterFullFall = { s with k := s.afterFullFall.k, i := s.afterFullFall.i, phase := s.afterFullFall.phase }) ∨
    (j + 1 = cellSteps s.config ∧ s.afterFullFall = s.afterCell) := by
  have hlt : s.k < 3 ∨ s.k = 3 := by omega
  obtain hk | hk := hlt
  · rw [State.afterFullFall_of_bank hk]
    exact .inl ⟨h.nextBank hk, rfl⟩
  · by_cases hi : s.i < s.config.nLow - 1
    · rw [State.afterFullFall_of_sweep hk hi]
      exact .inl ⟨h.nextSweep hk (by rw [hp]; exact Nat.add_lt_of_lt_sub hi), rfl⟩
    · refine .inr ⟨?_, State.afterFullFall_of_last hk hi⟩
      rw [h.phaseEnd hk (by rw [hp]; exact Nat.le_add_of_sub_le (Nat.le_of_not_lt hi)), hp]
      exact (Nat.mul_add _ _ _).symm

/-- Within a cell there are writes left. -/
theorem State.AtWrite.lt_cellSteps (h : s.AtWrite j) : j < cellSteps s.config := by
  obtain ⟨hp, hi, hj⟩ := h
  cases hs : s.phase <;> simp only [hs, phaseReps, phaseStart] at hp hi hj
  case load => exact absurd rfl hp
  all_goals
    rw [cellSteps]
    omega

end Writes

/-! ### The run of a cell -/

section CellRun

variable {s₀ s : State} {j : Nat}

/-- One step within a cell is its next write: the position is then the one after, or the cell is written and its end follows in
the same step. -/
theorem State.WroteCell.step_cell (h : s₀.WroteCell s j) (ha : s.AtWrite j) (hc : failedCheck s₀.config = none)
    (hm : s₀.moves = []) (hx : s₀.ctl = .transmit) :
    (∃ t, step s = .next t ∧ s₀.WroteCell t (j + 1) ∧ t.AtWrite (j + 1)) ∨
    (j + 1 = cellSteps s₀.config ∧ ∃ u, step s = .next u.afterCell ∧ s₀.WroteCell u (j + 1)) := by
  obtain ⟨hrise, hmid, hlow⟩ := (failedCheck_eq_none_iff s₀.config).1 hc .wf5
  have hcfg := h.config
  have hx' : s.ctl = .transmit := by rw [h.frame]; exact hx
  have hstep : step s = exec s.fetchSequencer s :=
    step_of_moves_nil (by rw [hcfg]; exact hc) (by rw [h.frame]; exact hm) (State.fetch_of_transmit hx')
  cases hp : s.phase <;> simp only [State.fetchSequencer, hp] at hstep
  case load => exact absurd hp ha.inCell
  case rise =>
    have hw := h.rise ha hp
    have ha' : (s.encodeAtCellStart.gpioSet s.k s.config.pinmask[s.k]).AtWrite j := by
      rw [State.encodeAtCellStart_frame]
      exact ⟨ha.inCell, ha.repetition, ha.count⟩
    exact .inl ⟨_, hstep.trans (exec_rise s), hw.move (State.afterRise_frame _),
      ha'.afterRise (by simpa using hp) (by rwa [hw.config])⟩
  case mid =>
    have hw := h.selFall ha hp hrise
    have ha' : (s.gpioClear s.k s.zm[s.k]).AtWrite j := ⟨ha.inCell, ha.repetition, ha.count⟩
    exact .inl ⟨_, hstep.trans (exec_selFall s), hw.move (State.afterSelFall_frame _),
      ha'.afterSelFall hp (by rwa [hw.config])⟩
  case low =>
    have hw := h.fullFall ha hp hmid
    have ha' : (s.gpioClear s.k s.config.pinmask[s.k]).AtWrite j := ⟨ha.inCell, ha.repetition, ha.count⟩
    obtain ⟨hat, hframe⟩ | ⟨hend, hcell⟩ := ha'.afterFullFall hp
    · exact .inl ⟨_, hstep.trans (exec_fullFall s), hw.move hframe, hat⟩
    · rw [hw.config] at hend
      exact .inr ⟨hend, _, hstep.trans ((exec_fullFall s).trans (by rw [hcell])), hw⟩

section

variable (hc : failedCheck s.config = none) (hm : s.moves = []) (hx : s.ctl = .transmit) (hp : s.phase = .rise)
  (hi : s.i = 0) (hk : s.k = 0)

include hc hm hx hp hi hk

/-- From a cell's first RISE the steps before its last are its writes one by one. -/
theorem core_run_cell (hj : j < cellSteps s.config) :
    ∃ t, core.run j s = .next t ∧ s.WroteCell t j ∧ t.AtWrite j := by
  induction j with
  | zero =>
    obtain ⟨hrise, -, -⟩ := (failedCheck_eq_none_iff s.config).1 hc .wf5
    refine ⟨s, rfl, s.wroteCell_zero, ⟨by simp [hp], ?_, ?_⟩⟩
    · rw [hp, hi]
      exact hrise
    · rw [hp, hi, hk]
      rfl
  | succ j ih =>
    obtain ⟨u, hrun, hu, hat⟩ := ih (by omega)
    obtain ⟨t, hs, ht⟩ | ⟨hend, -⟩ := hu.step_cell hat hc hm hx
    · exact ⟨t, (run_succ_last core hrun).trans hs, ht⟩
    · omega

/-- Step `j` of a cell leaves its writes up to `j` in OUT (R126). -/
theorem core_run_cell_out (hj : j < cellSteps s.config) :
    ∃ t, core.run (j + 1) s = .next t ∧ ∀ k : Fin 4,
      t.out[k] = cellLevels s.config s.out[k] (zeroMask s.config s.w s.b k) k (j + 1) := by
  obtain ⟨u, hrun, hu, hat⟩ := core_run_cell hc hm hx hp hi hk hj
  obtain ⟨t, hs, ht, -⟩ | ⟨-, t, hs, ht⟩ := hu.step_cell hat hc hm hx
  · exact ⟨t, (run_succ_last core hrun).trans hs, ht.out⟩
  · exact ⟨_, (run_succ_last core hrun).trans hs, fun k => by rw [State.afterCell_out, ht.out]⟩

/-- A whole cell: its writes, and then its end (R120). -/
theorem core_run_wholeCell :
    ∃ u, core.run (cellSteps s.config) s = .next u.afterCell ∧ s.WroteCell u (cellSteps s.config) := by
  obtain ⟨hrise, -, -⟩ := (failedCheck_eq_none_iff s.config).1 hc .wf5
  obtain ⟨j, hj⟩ : ∃ j, cellSteps s.config = j + 1 := Nat.exists_eq_add_one_of_ne_zero (by rw [cellSteps]; omega)
  obtain ⟨v, hrun, hv, hat⟩ := core_run_cell hc hm hx hp hi hk (j := j) (by omega)
  rw [hj]
  obtain ⟨t, -, ht, hat'⟩ | ⟨-, u, hs, hu⟩ := hv.step_cell hat hc hm hx
  · have hlt := hat'.lt_cellSteps
    rw [ht.config] at hlt
    omega
  · exact ⟨u, (run_succ_last core hrun).trans hs, hu⟩

end

/-- A written cell ends with every controlled pin low and the others as they were (R125, R128). -/
theorem State.WroteCell.pins (h : s₀.WroteCell s (cellSteps s₀.config)) (hc : failedCheck s₀.config = none) :
    s.PinsLow ∧ ∀ k : Fin 4, s.otherPins k = s₀.otherPins k := by
  obtain ⟨-, -, hlow⟩ := (failedCheck_eq_none_iff s₀.config).1 hc .wf5
  have hout (k : Fin 4) : s.out[k] = s₀.out[k] &&& ~~~s₀.config.pinmask[k] := by
    rw [h.out, cellLevels_low (by rw [cellSteps]; omega)]
  refine ⟨fun k => ?_, fun k => ?_⟩
  · rw [State.BankLow, hout, h.config, BitVec.and_assoc, BitVec.not_and_self]
    exact BitVec.and_zero
  · rw [State.otherPins, hout, h.config, BitVec.and_assoc, BitVec.and_self]

end CellRun

/-- Settles O49: OUT after each step of the cell is given by its writes, and WF4 of R10 makes the pin's mask bit the NOT of its
one channel's data bit. -/
theorem pinWaveformOfACell : Obligations.PinWaveformOfACell := by
  intro s k p c j hc hm hx hp hi hk hctl hmap hj
  obtain ⟨t, hrun, hout⟩ := core_run_cell_out hc hm hx hp hi hk hj
  obtain ⟨c', -, huniq⟩ := (failedCheck_eq_none_iff s.config).1 hc .wf4 k p hctl
  obtain rfl := huniq c hmap
  have hz : (zeroMask s.config s.w s.b k).getLsbD p.val = !dataBit s.w[c] s.b := zeroMask_getLsbD_of_unique hctl hmap huniq
  refine ⟨t, hrun, fun hlt => ?_, fun hle => ?_⟩
  · rw [hout, cellLevels_start hlt]
  · rw [hout, cellLevels_getLsbD hctl hz hle]

/-- Settles O48: the whole cell, and its end by the bit position. -/
theorem bitCellRunsToItsEnd : Obligations.BitCellRunsToItsEnd := by
  intro s hc hm hx hp hi hk
  obtain ⟨u, hrun, hu⟩ := core_run_wholeCell hc hm hx hp hi hk
  obtain ⟨hlow, hother⟩ := hu.pins hc
  have hctl : u.ctl = .transmit := by rw [hu.frame]; exact hx
  have hbit : u.b = s.b := by rw [hu.frame]
  have hrows : u.n = s.n := by rw [hu.frame]
  have hptr : u.ptr = s.ptr := by rw [hu.frame]
  refine ⟨_, hrun, ?_, hlow.of_eq (by simp) (by simp), fun k => ?_, fun hb => ?_, fun hb => ?_, ?_, ?_, ?_⟩
  · rw [State.afterCell_trace, hu.trace, ← length_cellEvents, List.take_length]
  · exact (State.otherPins_of_eq (by simp) (by simp) k).trans (hother k)
  · rw [State.afterCell_of_pos (by rwa [hbit])]
    exact ⟨hctl, rfl, congrArg (· - 1) hbit, rfl, rfl, hrows, hptr⟩
  · have hlast : u.n - 1 = 0 ↔ s.n = 1 := by rw [hrows, sub_eq_zero]
    rw [State.afterCell_of_eq_zero (hbit.trans hb), State.stepRow_n, State.stepRow_ptr, State.stepRow_ctl, State.stepRow_phase,
      State.stepRow_c]
    refine ⟨congrArg (· - 1) hrows, congrArg (· + rowStride) hptr, fun h => ?_, fun h => ?_⟩
    · rw [if_pos (hlast.2 h)]
    · rw [if_neg (mt hlast.1 h), if_neg (mt hlast.1 h), if_neg (mt hlast.1 h)]
      exact ⟨hctl, rfl, rfl⟩
  · rw [State.afterCell_w, hu.frame]
  · rw [State.afterCell_mem, hu.frame]
  · rw [State.afterCell_cb, hu.frame]

end Sys2Proof.Machine

namespace Sys2Proof.Machine

/-! ### The steps of the Frame Sequencer -/

section SequencerPosition

variable {s : State}

/-- The position after a channel read that is not the row's last (R141). -/
theorem State.nextChannel_of_lt (hc : s.c < 23) : s.nextChannel = { s with c := s.c + 1 } :=
  if_neg (by simpa [isLastChannel, Fin.lt_def] using hc)

/-- The position after a row's last channel read (R141). -/
theorem State.nextChannel_of_last (hc : s.c = 23) :
    s.nextChannel = { s with b := 23, i := 0, k := 0, phase := .rise } :=
  if_pos (by simp [isLastChannel, hc])

theorem State.nextChannel_frame (s : State) :
    s.nextChannel = { s with c := s.nextChannel.c, b := s.nextChannel.b, i := s.nextChannel.i, k := s.nextChannel.k,
                             phase := s.nextChannel.phase } := by
  unfold State.nextChannel
  split <;> rfl

end SequencerPosition

/-- Settles O52: the channel's read, then the position by whether the channel is the row's last. -/
theorem loadRowReadsOneChannel : Obligations.LoadRowReadsOneChannel := by
  intro s ha
  refine ⟨_, exec_loadRow_of_admitted s ha, State.nextChannel_w _, State.nextChannel_trace _, fun hc => ?_, fun hc => ?_⟩
  · rw [State.nextChannel_of_lt (s := s.loadChannel) hc]
    rfl
  · rw [State.nextChannel_of_last (s := s.loadChannel) hc]
    rfl

/-- Settles O54: NextRow by whether a row is left. -/
theorem advanceRowMovesToTheNextRow : Obligations.AdvanceRowMovesToTheNextRow := by
  intro s
  refine ⟨_, exec_advanceRow s, State.stepRow_ptr s, State.stepRow_n s, fun hn => ?_, fun hn => ?_⟩
  · rw [State.stepRow_of_eq_zero hn]
  · rw [State.stepRow_of_ne_zero hn]

/-! ### What the prescribed traces hold -/

section PrescribedTraces

variable {cfg : Config} {mem : Memory} {ptr : Word} {w : Vector Word 24} {b : Fin 24} {e : Event}

/-- The cells of the bit positions below `m`, the highest first (R142). -/
def cellsEvents (cfg : Config) (w : Vector Word 24) (m : Nat) : List Event :=
  (((List.finRange 24).take m).reverse.map (cellEvents cfg w)).flatten

/-- A row's trace is its reads and its 24 cells (R147). -/
theorem rowEvents_eq (cfg : Config) (mem : Memory) (ptr : Word) :
    rowEvents cfg mem ptr = rowReads mem ptr ++ cellsEvents cfg (rowWords mem ptr) 24 := rfl

/-- The cell of the highest bit position comes first (R142). -/
theorem cellsEvents_succ (cfg : Config) (w : Vector Word 24) (b : Fin 24) :
    cellsEvents cfg w (b.val + 1) = cellEvents cfg w b ++ cellsEvents cfg w b.val := by
  have hb : (List.finRange 24)[b.val]? = some b := by simp
  simp only [cellsEvents, List.take_add_one, hb, Option.toList_some, List.reverse_append, List.reverse_singleton,
    List.singleton_append, List.map_cons, List.flatten_cons]

theorem length_cellsEvents {m : Nat} (hm : m ≤ 24) : (cellsEvents cfg w m).length = m * cellSteps cfg := by
  induction m with
  | zero => simp [cellsEvents]
  | succ m ih =>
    rw [cellsEvents_succ cfg w ⟨m, hm⟩, List.length_append, length_cellEvents, ih (by omega), Nat.succ_mul, Nat.add_comm]

/-- The read of channel `c` stands at place `c` of a row's reads (R141). -/
theorem rowReads_getElem? (mem : Memory) (ptr : Word) (c : Fin 24) :
    (rowReads mem ptr)[c.val]? = some (.pxr (recordAddress ptr c) (mem.readWord (recordAddress ptr c))) := by
  simp [rowReads]

@[simp] theorem length_rowReads (mem : Memory) (ptr : Word) : (rowReads mem ptr).length = 24 := by
  simp [rowReads]

/-- No event is both a pixel read and a GPIO write. -/
theorem Event.isGpio_eq_false_of_isPixelRead (h : e.isPixelRead = true) : e.isGpio = false :=
  match e, h with
  | .pxr _ _, _ => rfl

theorem isPixelRead_of_mem_rowReads (h : e ∈ rowReads mem ptr) : e.isPixelRead = true := by
  obtain ⟨c, -, rfl⟩ := List.mem_map.1 h
  rfl

/-- Every event of a run of sweeps is a write of one bank (R121). -/
theorem exists_write_of_mem_sweepsEvents {reps : Nat} {write : Fin 4 → Event} (h : e ∈ sweepsEvents reps write) :
    ∃ k, e = write k := by
  induction reps with
  | zero => cases h
  | succ reps ih =>
    obtain h | h := List.mem_append.1 (sweepsEvents_succ reps write ▸ h)
    · simp only [sweepEvents, List.mem_cons, List.not_mem_nil, or_false] at h
      obtain h | h | h | h := h <;> exact ⟨_, h⟩
    · exact ih h

theorem isGpio_of_mem_cellEvents (h : e ∈ cellEvents cfg w b) : e.isGpio = true := by
  obtain (h | h) | h := (List.mem_append.1 h).imp_left List.mem_append.1 <;>
  · obtain ⟨k, rfl⟩ := exists_write_of_mem_sweepsEvents h
    rfl

theorem isGpio_of_mem_cellsEvents {m : Nat} (h : e ∈ cellsEvents cfg w m) : e.isGpio = true := by
  obtain ⟨es, hes, he⟩ := List.mem_flatten.1 h
  obtain ⟨b, -, rfl⟩ := List.mem_map.1 hes
  exact isGpio_of_mem_cellEvents he

/-- A row has one pixel read per channel (R146). -/
theorem countP_isPixelRead_rowEvents (cfg : Config) (mem : Memory) (ptr : Word) :
    (rowEvents cfg mem ptr).countP (·.isPixelRead) = 24 := by
  have hreads : (rowReads mem ptr).countP (·.isPixelRead) = (rowReads mem ptr).length :=
    List.countP_eq_length.2 fun _ => isPixelRead_of_mem_rowReads
  have hcells : (cellsEvents cfg (rowWords mem ptr) 24).countP (·.isPixelRead) = 0 :=
    List.countP_eq_zero.2 fun _ he hread => by
      simpa [isGpio_of_mem_cellsEvents he] using Event.isGpio_eq_false_of_isPixelRead hread
  rw [rowEvents_eq, List.countP_append, hreads, hcells, length_rowReads]

/-- A row has as many GPIO writes as its 24 cells have steps (R146). -/
theorem countP_isGpio_rowEvents (cfg : Config) (mem : Memory) (ptr : Word) :
    (rowEvents cfg mem ptr).countP (·.isGpio) = 24 * cellSteps cfg := by
  have hreads : (rowReads mem ptr).countP (·.isGpio) = 0 :=
    List.countP_eq_zero.2 fun _ he => by
      simp [Event.isGpio_eq_false_of_isPixelRead (isPixelRead_of_mem_rowReads he)]
  have hcells : (cellsEvents cfg (rowWords mem ptr) 24).countP (·.isGpio) = (cellsEvents cfg (rowWords mem ptr) 24).length :=
    List.countP_eq_length.2 fun _ => isGpio_of_mem_cellsEvents
  rw [rowEvents_eq, List.countP_append, hreads, hcells, length_cellsEvents (Nat.le_refl 24), Nat.zero_add]

end PrescribedTraces

/-- Settles O57, by induction on the rows: each row adds its own counts. -/
theorem frameEventCounts : Obligations.FrameEventCounts := by
  intro cfg mem rows ptr
  induction rows generalizing ptr with
  | zero => exact ⟨rfl, rfl⟩
  | succ rows ih =>
    obtain ⟨hreads, hwrites⟩ := ih (ptr + rowStride)
    rw [frameEvents, List.countP_append, List.countP_append, hreads, hwrites, countP_isPixelRead_rowEvents,
      countP_isGpio_rowEvents, cellSteps]
    constructor <;> ring

/-! ### The reads of a row -/

/-- A run splits at any state that it passes. -/
theorem run_add (M : Host.Core) {s t : M.State} {k : Nat} (h : M.run k s = .next t) (j : Nat) :
    M.run (k + j) s = M.run j t := by
  induction k generalizing s with
  | zero =>
    cases h
    rw [Nat.zero_add]
  | succ k ih =>
    rw [Nat.succ_add]
    rw [Host.Core.run] at h ⊢
    cases hs : M.step s with
    | next u =>
      rw [hs] at h
      exact ih h
    | fault | refused =>
      rw [hs] at h
      cases h

/-- A row is about to be loaded, and nobody but the block acts. -/
structure State.AtRowStart (s : State) : Prop where
  config : failedCheck s.config = none
  moves : s.moves = []
  ctl : s.ctl = .transmit
  phase : s.phase = .load
  channel : s.c = 0

/-- Every read of the row at `ptr` is admitted (R49, R141). -/
def RowAdmitted (cfg : Config) (ptr : Word) : Prop := ∀ c : Fin 24, admitsRead cfg (recordAddress ptr c) = true

/-- `s` is reached from the row start `s₀` by the reads of the channels below `j`: they are in the trace and in W, and nothing
else has changed but the position. -/
structure State.ReadChannels (s₀ s : State) (j : Nat) : Prop where
  frame : s = { s₀ with w := s.w, c := s.c, b := s.b, i := s.i, k := s.k, phase := s.phase, trace := s.trace }
  words : ∀ c : Fin 24, c.val < j → s.w[c] = s₀.mem.readWord (recordAddress s₀.ptr c)
  trace : s.trace = s₀.trace ++ (rowReads s₀.mem s₀.ptr).take j

section Reads

variable {s₀ s : State} {j : Nat}

theorem State.readChannels_zero (s : State) : s.ReadChannels s 0 where
  frame := rfl
  words _ h := absurd h (Nat.not_lt_zero _)
  trace := by rw [List.take_zero, List.append_nil]

/-- One read more: of channel `j` (R141). -/
theorem State.ReadChannels.loadChannel (h : s₀.ReadChannels s j) (hc : s.c.val = j) :
    s₀.ReadChannels s.loadChannel.nextChannel (j + 1) := by
  have haddr : s.loadAddress = recordAddress s₀.ptr s.c := by rw [State.loadAddress, h.frame]
  have hmem : s.mem = s₀.mem := by rw [h.frame]
  refine ⟨?_, fun c hlt => ?_, ?_⟩
  · rw [State.nextChannel_frame s.loadChannel, State.loadChannel, h.frame]
    rfl
  · rw [State.nextChannel_w, State.loadChannel_w, haddr, hmem, Fin.getElem_fin, Vector.getElem_set]
    split_ifs with heq
    · rw [Fin.ext heq]
    · exact h.words c (by omega)
  · subst hc
    rw [State.nextChannel_trace, State.loadChannel_trace, h.trace, haddr, hmem, List.take_add_one, rowReads_getElem?,
      List.append_assoc]
    rfl

/-- A step at a channel's load is its read. -/
theorem State.ReadChannels.step_load (h : s₀.ReadChannels s j) (h₀ : s₀.AtRowStart) (ha : RowAdmitted s₀.config s₀.ptr)
    (hp : s.phase = .load) : step s = .next s.loadChannel.nextChannel := by
  have hadm : admitsRead s.config s.loadAddress = true := by
    rw [State.loadAddress, h.frame]
    exact ha s.c
  rw [step_of_moves_nil (by rw [h.frame]; exact h₀.config) (by rw [h.frame]; exact h₀.moves)
    (State.fetch_eq_loadRow_iff.2 ⟨by rw [h.frame]; exact h₀.ctl, hp⟩), exec_loadRow_of_admitted s hadm]

/-- From a row's start the steps before its last read are its reads one by one. -/
theorem core_run_reads (h : s.AtRowStart) (ha : RowAdmitted s.config s.ptr) (hj : j < 24) :
    ∃ t : State, core.run j s = .next t ∧ s.ReadChannels t j ∧ t.phase = .load ∧ t.c.val = j := by
  induction j with
  | zero => exact ⟨s, rfl, s.readChannels_zero, h.phase, congrArg Fin.val h.channel⟩
  | succ j ih =>
    obtain ⟨u, hrun, hu, hp, hc⟩ := ih (by omega)
    have hlt : u.loadChannel.c < 23 := Fin.lt_def.2 (by rw [State.loadChannel_c, hc]; exact Nat.lt_of_succ_lt_succ hj)
    refine ⟨_, (run_succ_last core hrun).trans (hu.step_load h ha hp), hu.loadChannel hc, ?_, ?_⟩
    · rw [State.nextChannel_of_lt hlt]
      exact hp
    · rw [State.nextChannel_of_lt hlt, ← hc]
      exact Fin.val_add_one_of_lt' (by rw [State.loadChannel_c, hc]; exact hj)

/-- A row's 24 reads lead to its first cell, with the row's words in W (R141). -/
theorem core_run_wholeRead (h : s.AtRowStart) (ha : RowAdmitted s.config s.ptr) :
    ∃ t : State, core.run 24 s = .next t ∧ s.ReadChannels t 24 ∧ t.w = rowWords s.mem s.ptr ∧
      t.phase = .rise ∧ t.b = 23 ∧ t.i = 0 ∧ t.k = 0 := by
  obtain ⟨u, hrun, hu, hp, hc⟩ := core_run_reads h ha (j := 23) (by decide)
  have ht := hu.loadChannel hc
  have hlast := State.nextChannel_of_last (s := u.loadChannel) (Fin.ext hc)
  refine ⟨_, (run_succ_last core hrun).trans (hu.step_load h ha hp), ht, ?_, ?_⟩
  · refine Vector.ext fun c hc => ?_
    rw [rowWords, Vector.getElem_ofFn]
    exact ht.words ⟨c, hc⟩ hc
  · rw [hlast]
    exact ⟨rfl, rfl, rfl, rfl⟩

end Reads

/-! ### The cells of a row -/

/-- `t` is reached from `s` within a row, with the events `es`: no pin outside PINMASK, and nothing that is not the row's own,
has changed. -/
structure State.WithinRow (s t : State) (es : List Event) : Prop where
  frame : t = { s with w := t.w, zm := t.zm, out := t.out, c := t.c, b := t.b, i := t.i, k := t.k, phase := t.phase,
                       trace := t.trace }
  trace : t.trace = s.trace ++ es
  otherPins : ∀ k : Fin 4, t.otherPins k = s.otherPins k

section Row

variable {s t u : State} {es es' : List Event}

theorem State.WithinRow.trans (h : s.WithinRow t es) (h' : t.WithinRow u es') : s.WithinRow u (es ++ es') where
  frame := by rw [h'.frame, h.frame]
  trace := by rw [h'.trace, h.trace, List.append_assoc]
  otherPins k := (h'.otherPins k).trans (h.otherPins k)

theorem State.WithinRow.config (h : s.WithinRow t es) : t.config = s.config := by rw [h.frame]

/-- A row's reads leave the pins alone. -/
theorem State.ReadChannels.withinRow (h : s.ReadChannels t 24) : s.WithinRow t (rowReads s.mem s.ptr) where
  frame := by rw [h.frame]
  trace := by rw [h.trace, List.take_of_length_le (length_rowReads s.mem s.ptr).le]
  otherPins := State.otherPins_of_eq (by rw [h.frame]) (by rw [h.frame])

theorem State.WroteCell.withinRow (h : s.WroteCell t (cellSteps s.config)) (hc : failedCheck s.config = none) :
    s.WithinRow t (cellEvents s.config s.w s.b) where
  frame := by rw [h.frame]
  trace := by rw [h.trace, ← length_cellEvents, List.take_length]
  otherPins := (h.pins hc).2

/-- The move to the next bit position appends nothing (R124). -/
theorem State.withinRow_afterCell (hb : s.b > 0) : s.WithinRow s.afterCell [] := by
  rw [State.afterCell_of_pos hb]
  exact ⟨rfl, (List.append_nil _).symm, fun _ => rfl⟩

/-- A whole cell as a part of its row: it leaves the row's words and the bit position to what follows. -/
theorem core_run_cellWithinRow (hc : failedCheck s.config = none) (hm : s.moves = []) (hx : s.ctl = .transmit)
    (hp : s.phase = .rise) (hi : s.i = 0) (hk : s.k = 0) :
    ∃ v, core.run (cellSteps s.config) s = .next v.afterCell ∧ s.WithinRow v (cellEvents s.config s.w s.b) ∧
      v.w = s.w ∧ v.b = s.b ∧ v.PinsLow := by
  obtain ⟨v, hrun, hv⟩ := core_run_wholeCell hc hm hx hp hi hk
  exact ⟨v, hrun, hv.withinRow hc, by rw [hv.frame], by rw [hv.frame], (hv.pins hc).1⟩

/-- After a cell, the cells of the lower bit positions follow one another, and ADVANCE_ROW ends the last one's last step (R124,
R142, R143). -/
theorem core_run_cellsLeft {m : Nat} (hc : failedCheck s.config = none) (hm : s.moves = []) (hx : s.ctl = .transmit)
    (hb : s.b.val = m) (hlow : s.PinsLow) :
    ∃ u, core.run (m * cellSteps s.config) s.afterCell = .next u.stepRow ∧
      s.WithinRow u (cellsEvents s.config s.w m) ∧ u.PinsLow := by
  induction m generalizing s with
  | zero =>
    refine ⟨{ s with k := 0, i := 0 }, ?_, ⟨rfl, (List.append_nil _).symm, fun _ => rfl⟩, hlow⟩
    rw [State.afterCell_of_eq_zero (Fin.ext hb), Nat.zero_mul]
    rfl
  | succ m ih =>
    have hpos : s.b > 0 := Fin.lt_def.2 (by rw [hb]; exact Nat.succ_pos m)
    have hbit : (s.b - 1).val = m := by rw [Fin.val_sub_one_of_ne_zero hpos.ne', hb, Nat.add_sub_cancel]
    have hnext := State.afterCell_of_pos hpos
    obtain ⟨v, hrun, hv, hw, hvb, hvlow⟩ := core_run_cellWithinRow (s := s.afterCell) (by rwa [State.afterCell_config])
      (by rwa [State.afterCell_moves]) (by rw [hnext]; exact hx) (by rw [hnext]) (by rw [hnext]) (by rw [hnext])
    replace hvb : v.b = s.b - 1 := by rw [hvb, hnext]
    have hcell := (State.withinRow_afterCell hpos).trans hv
    have hcfg : v.config = s.config := hcell.config
    obtain ⟨u, hrun', hu, hlow'⟩ := ih (by rwa [hcfg]) (by rw [hcell.frame]; exact hm) (by rw [hcell.frame]; exact hx)
      (by rw [hvb, hbit]) hvlow
    refine ⟨u, ?_, ?_, hlow'⟩
    · rw [State.afterCell_config] at hrun
      rw [hcfg] at hrun'
      rw [Nat.succ_mul, Nat.add_comm, run_add core hrun, hrun']
    · have hcells := cellsEvents_succ s.config s.w (s.b - 1)
      have hall := hcell.trans hu
      rw [hbit] at hcells
      rwa [hcfg, hw, State.afterCell_config, State.afterCell_w, hnext, List.nil_append, ← hcells] at hall

/-- A whole row: its reads, its cells from bit 23 down, and ADVANCE_ROW in its last step (R142, R146, R147). -/
theorem core_run_row (h : s.AtRowStart) (ha : RowAdmitted s.config s.ptr) :
    ∃ u, core.run (rowSteps s.config) s = .next u.stepRow ∧ s.WithinRow u (rowEvents s.config s.mem s.ptr) ∧ u.PinsLow := by
  obtain ⟨r, hrun, hr, hw, hp, hb, hi, hk⟩ := core_run_wholeRead h ha
  have hreads := hr.withinRow
  have hcfg : r.config = s.config := hreads.config
  obtain ⟨v, hrun', hv, hvw, hvb, hvlow⟩ := core_run_cellWithinRow (by rw [hcfg]; exact h.config)
    (by rw [hreads.frame]; exact h.moves) (by rw [hreads.frame]; exact h.ctl) hp hi hk
  have hfirst := hreads.trans hv
  have hcfg' : v.config = s.config := hfirst.config
  obtain ⟨u, hrun'', hu, hlow⟩ := core_run_cellsLeft (m := 23) (by rw [hcfg']; exact h.config)
    (by rw [hfirst.frame]; exact h.moves) (by rw [hfirst.frame]; exact h.ctl) (by rw [hvb, hb]; rfl) hvlow
  refine ⟨u, ?_, ?_, hlow⟩
  · rw [hcfg] at hrun'
    rw [hcfg'] at hrun''
    have hsteps : rowSteps s.config = 24 + (cellSteps s.config + 23 * cellSteps s.config) := by rw [rowSteps]; omega
    rw [hsteps, run_add core hrun, run_add core hrun', hrun'']
  · have hcells : cellsEvents s.config (rowWords s.mem s.ptr) 24 = _ := cellsEvents_succ s.config (rowWords s.mem s.ptr) 23
    have hall := hfirst.trans hu
    rw [hcfg', hvw, hcfg, hw, hb, List.append_assoc] at hall
    rwa [rowEvents_eq, hcells]

end Row

/-! ### The rows of a frame -/

/-- `t` is reached from `s`, where NextRow has been done, by sending the `rows` rows left of the frame (R140). -/
structure State.SentRows (s t : State) (rows : Nat) : Prop where
  ctl : t.ctl = .latchDelay
  n : t.n = 0
  ptr : t.ptr = s.ptr + BitVec.ofNat 32 (96 * rows)
  trace : t.trace = s.trace ++ frameEvents s.config s.mem rows s.ptr
  pinsLow : t.PinsLow
  otherPins : ∀ k : Fin 4, t.otherPins k = s.otherPins k
  mem : t.mem = s.mem
  cb : t.cb = s.cb

/-- The row after the next `r` is the next row's `r`-th (R143, R59). -/
theorem add_rowStride_add (ptr : Word) (r : Nat) :
    ptr + rowStride + BitVec.ofNat 32 (96 * r) = ptr + BitVec.ofNat 32 (96 * (r + 1)) := by
  rw [BitVec.add_assoc, show rowStride = BitVec.ofNat 32 96 from rfl, ← BitVec.ofNat_add, Nat.mul_succ, Nat.add_comm]

section FrameRun

variable {s t u : State} {rows : Nat}

/-- At the end of the frame no row is left to send. -/
theorem State.sentRows_zero (hx : s.ctl = .latchDelay) (hn : s.n = 0) (hlow : s.PinsLow) : s.SentRows s 0 where
  ctl := hx
  n := hn
  ptr := (BitVec.add_zero _).symm
  trace := (List.append_nil _).symm
  pinsLow := hlow
  otherPins _ := rfl
  mem := rfl
  cb := rfl

/-- One row, and then the rows left. -/
theorem State.WithinRow.sentRows (h : s.WithinRow u (rowEvents s.config s.mem s.ptr)) (ht : u.stepRow.SentRows t rows) :
    s.SentRows t (rows + 1) where
  ctl := ht.ctl
  n := ht.n
  ptr := by rw [ht.ptr, State.stepRow_ptr, add_rowStride_add, h.frame]
  trace := by
    have hmem : u.mem = s.mem := by rw [h.frame]
    have hptr : u.ptr = s.ptr := by rw [h.frame]
    rw [ht.trace, State.stepRow_trace, State.stepRow_config, State.stepRow_mem, State.stepRow_ptr, h.trace, h.config, hmem, hptr,
      List.append_assoc, frameEvents]
  pinsLow := ht.pinsLow
  otherPins k :=
    calc t.otherPins k = u.stepRow.otherPins k := ht.otherPins k
      _ = u.otherPins k := State.otherPins_of_eq (State.stepRow_out u) (State.stepRow_config u) k
      _ = s.otherPins k := h.otherPins k
  mem := by rw [ht.mem, State.stepRow_mem, h.frame]
  cb := by rw [ht.cb, State.stepRow_cb, h.frame]

/-- With a row left, ADVANCE_ROW comes to its start (R143). -/
theorem State.AtRowStart.stepRow {es : List Event} (h : s.AtRowStart) (hu : s.WithinRow u es) (hn : u.n - 1 ≠ 0) :
    u.stepRow.AtRowStart where
  config := by rw [State.stepRow_config, hu.config]; exact h.config
  moves := by rw [State.stepRow_moves, hu.frame]; exact h.moves
  ctl := by rw [State.stepRow_ctl, if_neg hn, hu.frame]; exact h.ctl
  phase := by rw [State.stepRow_phase, if_neg hn]
  channel := by rw [State.stepRow_c, if_neg hn]

/-- The rows left are sent one after another, each as long as it takes (R140, R146). -/
theorem core_run_rows (hn : s.n.toNat = rows) (hend : s.n = 0 → s.ctl = .latchDelay ∧ s.PinsLow)
    (hstart : s.n ≠ 0 → s.AtRowStart) (ha : ∀ r < rows, RowAdmitted s.config (s.ptr + BitVec.ofNat 32 (96 * r))) :
    ∃ t, core.run (rows * rowSteps s.config) s = .next t ∧ s.SentRows t rows := by
  induction rows generalizing s with
  | zero =>
    have hn0 : s.n = 0 := BitVec.eq_of_toNat_eq hn
    obtain ⟨hx, hlow⟩ := hend hn0
    exact ⟨s, by rw [Nat.zero_mul]; rfl, State.sentRows_zero hx hn0 hlow⟩
  | succ rows ih =>
    have h : s.AtRowStart := hstart fun h0 => by simp [h0] at hn
    have hfirst := ha 0 (Nat.succ_pos rows)
    obtain ⟨u, hrun, hu, hlow⟩ := core_run_row h (by simpa using hfirst)
    have hcfg : u.stepRow.config = s.config := (State.stepRow_config u).trans hu.config
    have hrows : u.n = s.n := by rw [hu.frame]
    have hptr : u.ptr = s.ptr := by rw [hu.frame]
    obtain ⟨t, hrun', ht⟩ : ∃ t, core.run (rows * rowSteps u.stepRow.config) u.stepRow = .next t ∧
        u.stepRow.SentRows t rows := by
      refine ih ?_ (fun hn0 => ?_) (fun hn0 => ?_) fun r hr => ?_
      · rw [State.stepRow_n, hrows]
        bv_omega
      · rw [State.stepRow_n] at hn0
        exact ⟨by rw [State.stepRow_ctl, if_pos hn0], hlow.of_eq (State.stepRow_out u) (State.stepRow_config u)⟩
      · rw [State.stepRow_n] at hn0
        exact h.stepRow hu hn0
      · rw [hcfg, State.stepRow_ptr, hptr, add_rowStride_add]
        exact ha (r + 1) (Nat.succ_lt_succ hr)
    rw [hcfg] at hrun'
    exact ⟨t, by rw [Nat.succ_mul, Nat.add_comm, run_add core hrun, hrun'], hu.sentRows ht⟩

end FrameRun

/-- Settles O56: a frame with a row left is at the start of its first one. -/
theorem frameIsSentToItsEnd : Obligations.FrameIsSentToItsEnd := by
  intro s hc hm hx hp hch hn ha
  obtain ⟨t, hrun, h⟩ := core_run_rows rfl (fun h0 => absurd h0 hn) (fun _ => ⟨hc, hm, hx, hp, hch⟩) ha
  exact ⟨t, hrun, h.ctl, h.n, h.ptr, h.trace, h.pinsLow, h.otherPins, h.mem, h.cb⟩

end Sys2Proof.Machine

namespace Sys2Proof.Machine

/-! ### What is refused -/

section Refused

variable {s : State}

/-- Past the checks of R10 nothing is refused: a move of the environment is made, and the block's turn ends in a next state
or a fault. -/
theorem step_ne_refused_of_checked (hc : failedCheck s.config = none) (r : Refusal) : step s ≠ .refused r := by
  cases ht : s.turn with
  | environment t =>
    rw [step_of_environment hc ht]
    nofun
  | block s' =>
    obtain ⟨hhalted, hstuck, hnext⟩ := onlyHaltedAndStuckHaveNoStep s s' hc ht
    by_cases hf : s'.Final
    · rw [hhalted hf]
      nofun
    · by_cases hs : s'.Stuck
      · rw [hstuck hs]
        nofun
      · obtain ⟨t, hn⟩ := hnext hf hs
        rw [hn]
        nofun

/-- What is refused is a configuration, by the name of its first failing check (R161, M2; log entry 10). -/
theorem step_eq_refused_config_iff {check : ConfigCheck} :
    step s = .refused (.config check) ↔ failedCheck s.config = some check := by
  refine ⟨fun h => ?_, step_of_failedCheck⟩
  cases hc : failedCheck s.config with
  | none => exact absurd h (step_ne_refused_of_checked hc _)
  | some named =>
    cases (step_of_failedCheck hc).symm.trans h
    rfl

end Refused

/-- Settles O8: a failing check is refused before the turn is looked at, and past the checks every turn has another outcome. -/
theorem failingConfigurationIsRefused : Obligations.FailingConfigurationIsRefused :=
  ⟨fun _ _ => step_eq_refused_config_iff,
    fun _ _ h => not_meetsCheck_of_failedCheck (step_eq_refused_config_iff.1 h),
    fun s hs => step_ne_refused_of_checked ((failedCheck_eq_none_iff s.config).2 hs)⟩

end Sys2Proof.Machine

namespace Sys2Proof.Machine

/-! ### The end of a run: a quiescent state only polls (R207) -/

/-- The moves to come that take a step from the block. -/
def State.otherMoves (s : State) : Nat := s.moves.countP (· != .block)

/-- From `s` to `t` in `k` steps the state stays quiescent: `polls` of the steps are idle polls of the block, and each other
step takes a move that is not the block's. -/
structure State.Idles (s t : State) (k polls : Nat) : Prop where
  config : t.config = s.config
  quiescent : t.Quiescent
  trace : t.trace = s.trace ++ List.replicate polls (.cbr .cmd 0)
  polls_le : polls ≤ k
  steps : t.otherMoves + k = s.otherMoves + polls

section Quiescent

variable {s t u : State}

theorem State.Quiescent.idles_refl (hq : s.Quiescent) : s.Idles s 0 0 := ⟨rfl, hq, by simp, le_rfl, rfl⟩

theorem State.Idles.trans {j k p q : Nat} (h : s.Idles t j p) (h' : t.Idles u k q) : s.Idles u (j + k) (p + q) where
  config := h'.config.trans h.config
  quiescent := h'.quiescent
  trace := by rw [h'.trace, h.trace, List.append_assoc, List.replicate_append_replicate]
  polls_le := Nat.add_le_add h.polls_le h'.polls_le
  steps := by have := h.steps; have := h'.steps; omega

/-- The block's turn in a quiescent state is an idle poll (R83, R84). -/
theorem State.Quiescent.idles_of_turn_block {rest : List Move} (hc : failedCheck s.config = none) (hq : s.Quiescent)
    (ht : s.turn = .block { s with moves := rest }) : ∃ t, step s = .next t ∧ s.Idles t 1 1 := by
  obtain ⟨hx, hv, hm⟩ := hq
  have hpoll : BlockTransition { s with moves := rest } (State.latchCommand 0 .awaitPoll { s with moves := rest }) :=
    .pollIdle hx hv
  obtain ⟨hall, hcount⟩ : rest.all (fun m => !m.isProducers) = true ∧ rest.countP (· != .block) = s.otherMoves := by
    obtain rfl | hcons := State.turn_block_moves ht
    · exact ⟨hm, rfl⟩
    · simpa [State.otherMoves, hcons, Move.isProducers] using hm
  exact ⟨_, (step_of_turn_block hc ht).trans hpoll.blockStep, rfl, ⟨rfl, hv, hall⟩, rfl, le_rfl,
    congrArg (· + 1) hcount⟩

/-- A move of the environment that writes at most OUT and the notification line is one step without a poll. -/
theorem State.Quiescent.idles_of_turn_environment {m : Move} {rest : List Move} {out : Vector Word 4} {pending : Nat}
    (hc : failedCheck s.config = none) (hq : s.Quiescent) (hm : s.moves = m :: rest) (hb : m ≠ .block)
    (ht : s.turn = .environment { s with out := out, notifyPending := pending, moves := rest }) :
    ∃ t, step s = .next t ∧ s.Idles t 1 0 := by
  obtain ⟨hx, hv, hall⟩ := hq
  rw [hm, List.all_cons, Bool.and_eq_true] at hall
  refine ⟨_, step_of_environment hc ht, rfl, ⟨hx, hv, hall.2⟩, (List.append_nil _).symm, Nat.zero_le 1, ?_⟩
  simp [State.otherMoves, hm, hb]

/-- A quiescent state has a step: an idle poll, or a move of the platform. -/
theorem State.Quiescent.idles_step (hc : failedCheck s.config = none) (hq : s.Quiescent) :
    ∃ polls t, step s = .next t ∧ s.Idles t 1 polls := by
  obtain ⟨hx, -, hall⟩ := id hq
  cases hm : s.moves with
  | nil => exact ⟨1, hq.idles_of_turn_block hc (State.turn_of_moves_nil hm)⟩
  | cons m rest =>
    rw [hm, List.all_cons, Bool.and_eq_true] at hall
    obtain ⟨hp, -⟩ := hall
    cases m with
    | block => exact ⟨1, hq.idles_of_turn_block hc (State.turn_of_moves_block hm)⟩
    | dropNotification =>
      exact ⟨0, hq.idles_of_turn_environment hc hm nofun (State.turn_of_moves_dropNotification hm)⟩
    | otherPins k levels =>
      exact ⟨0, hq.idles_of_turn_environment hc hm nofun (State.turn_of_moves_otherPins hm)⟩
    | pinsLow =>
      have ht := State.turn_of_moves_pinsLow hm
      rw [State.bringPinsLow_of_ne_boot (s := { s with moves := rest }) (by simp [hx])] at ht
      exact ⟨0, hq.idles_of_turn_environment hc hm nofun ht⟩
    | w32 | wpix | wait | waitn | restart => cases hp

/-- Any number of steps from a quiescent state. -/
theorem State.Quiescent.idles_run (hc : failedCheck s.config = none) (hq : s.Quiescent) (k : Nat) :
    ∃ t polls, core.run k s = .next t ∧ s.Idles t k polls := by
  induction k generalizing s with
  | zero => exact ⟨s, 0, rfl, hq.idles_refl⟩
  | succ k ih =>
    obtain ⟨p, u, hstep, hu⟩ := hq.idles_step hc
    obtain ⟨t, q, hrun, ht⟩ := ih (by rw [hu.config]; exact hc) hu.quiescent
    exact ⟨t, p + q, (core_run_succ hstep k).trans hrun, Nat.add_comm 1 k ▸ hu.trans ht⟩

end Quiescent

/-- Settles O37: by induction on the steps, each of them a poll that reads 0 or a move that is not the block's. -/
theorem quiescentStatesOnlyPoll : Obligations.QuiescentStatesOnlyPoll := by
  intro s hc hq k
  obtain ⟨t, polls, hrun, h⟩ := hq.idles_run hc k
  have hk : k ≤ polls + s.otherMoves := by have := h.steps; omega
  exact ⟨t, polls, hrun, h.quiescent, h.trace, h.polls_le, hk⟩

/-! ### The first steps after reset (R192) -/

/-- The state that BOOT and NOTIFY leave, in which the first poll runs. -/
def State.booted (s : State) : State := ((s.cbWrite .resp 0).goto .awaitEntry).raiseNotify.goto .awaitPoll

@[simp] theorem State.field_cmd_booted (s : State) : s.booted.field .cmd = s.field .cmd :=
  State.field_cbWrite_of_ne s 0 (by decide)

theorem State.booted_trace (s : State) : s.booted.trace = s.trace ++ [.cbw .resp 0, .notify] := by
  simp [State.booted]

/-- From BOOT with no move to come, BOOT and NOTIFY in a row (R80, R192). -/
theorem core_run_boot {s : State} (hc : failedCheck s.config = none) (hx : s.ctl = .boot) (hm : s.moves = []) (k : Nat) :
    core.run (k + 2) s = core.run k s.booted := by
  have hboot : step s = .next ((s.cbWrite .resp 0).goto .awaitEntry) :=
    step_of_moves_nil (i := .boot) hc hm (by rw [State.fetch, hx])
  have hnotify : step ((s.cbWrite .resp 0).goto .awaitEntry) = .next s.booted :=
    step_of_moves_nil (i := .notify) hc hm rfl
  rw [core_run_succ hboot, core_run_succ hnotify]

/-- Settles O17: BOOT, NOTIFY, and the first poll, which reads the word that CMD held at the start. -/
theorem bootSequence : Obligations.BootSequence := by
  intro s hc hx hm
  have hpoll : step s.booted = exec (decodeWord (s.booted.field .cmd)) s.booted :=
    step_of_moves_nil hc hm (State.fetch_of_awaitPoll rfl)
  have hlatch := hpoll.trans (exec_decodeWord_of_ne _ nofun)
  refine ⟨_, (core_run_boot hc hx hm 1).trans (core_run_succ hlatch 0), ?_⟩
  simp [State.booted_trace]

end Sys2Proof.Machine
